-- ==== Sys2Proof/Word.lean ====
section
/-! DEFINITION. The word types of the spec: timestamps (32 bits), value patterns (64 bits), command and response words
(128 bits), bytes and bit strings. -/

namespace Sys2Proof

/-- A timestamp or a delta: 32 bits (00_scope.md R10, 10_state.md R30). -/
abbrev Time := BitVec 32

/-- An IEEE-754 double handled only as its 64-bit pattern (R10, R38, R128). -/
abbrev Value := BitVec 64

/-- A command or a response, one 128-bit word (R80, R88). -/
abbrev Word := BitVec 128

/-- One byte of a packed stream (R53, R56). -/
abbrev Byte := BitVec 8

/-- A bit string, first bit on the stream first (R12). -/
abbrev Bits := List Bool

/-- The two agents (R22); also the two command ports of R81. -/
inductive Agent where
  | enc
  | dec
deriving DecidableEq, Repr

end Sys2Proof
end

