-- ==== Sys2Proof/Config.lean ====
section
/-! DEFINITION. The fixed parameters of 00_scope.md R11, and the one value the spec leaves free. The two open parameters
of the spec are not here: `SinkOracle` (P1) and `SourceBytes` (P2) are data in State, so every statement holds for each
choice of them. -/

namespace Sys2Proof.Config

/-- `N_FIRST_DELTA` (R11): the width of the first-delta field. -/
def nFirstDelta : Nat := 14

/-- `FIRST_DELTA_SENTINEL` (R11, R94): the 14-bit pattern that ends an empty block. -/
def firstDeltaSentinel : Nat := 0x3FFF

/-- `DOD_END_PAYLOAD` (R11, R99): the 32-bit payload that ends a non-empty block. -/
def dodEndPayload : Nat := 0xFFFFFFFF

/-- `LZ_FIELD_WIDTH` (R11, R98). -/
def lzFieldWidth : Nat := 5

/-- `SIG_FIELD_WIDTH` (R11, R98). -/
def sigFieldWidth : Nat := 6

/-- `LZ_MAX` (R11, R153): the clamp of the leading-zero count. -/
def lzMax : Nat := 31

/-- FREE VALUE (R55, 93_implementation_defined.md U1; log 5): where the source's read position stands after a short read.
The argument counts the free values used so far, so that each short read has a value of its own. It has no body: nothing
can be proved of it. -/
opaque rposAfterShortRead : Nat → Nat

end Sys2Proof.Config
end

