-- ==== Sys2Proof/Machine/Bits.lean ====
section
/-! DEFINITION. Bit strings (00_scope.md R12) and the packing of stream bits into bytes (20_memory.md R53, R56). -/

namespace Sys2Proof.Machine

/-- `bin_n(v)` (R12): the n-bit string of `v mod 2^n`, most significant bit first; `bin_0(v)` is empty. -/
def bin : Nat → Nat → Bits
  | 0, _ => []
  | n + 1, v => v.testBit n :: bin n v

/-- The unsigned integer whose binary digits, most significant first, are the string (R55). -/
def natOf (b : Bits) : Nat := b.foldl (fun acc x => 2 * acc + x.toNat) 0

/-- `ones(n)` (R12). -/
def ones (n : Nat) : Bits := List.replicate n true

/-- `zeros(n)` (R12). -/
def zeros (n : Nat) : Bits := List.replicate n false

/-- Byte `k` of a bit sequence (R53): stream bit 8k in byte bit 7, stream bit 8k+7 in byte bit 0. A bit past the end of the
sequence, which only an unflushed sink can have in its last byte, is taken as 0 (log 21). -/
def byteAt (b : Bits) (k : Nat) : Byte :=
  BitVec.ofNat 8 (natOf ((List.range 8).map fun j => b.getD (8 * k + j) false))

/-- The bytes of a bit sequence in stream order (R53). -/
def packBytes (b : Bits) : List Byte := (List.range ((b.length + 7) / 8)).map (byteAt b)

/-- The bit sequence of a byte sequence (R56): bit 8k+j is bit 7−j of byte k. -/
def unpackBytes (bytes : List Byte) : Bits := bytes.flatMap fun y => bin 8 y.toNat

/-- How many zero bits the flush adds (R52): `(8 − len mod 8) mod 8`. -/
def padCount (len : Nat) : Nat := (8 - len % 8) % 8

/-- The S of a V-new codeword's 6-bit field: "value `0` in that 6-bit field is interpreted as 64" (R98). -/
def sigCount (m : BitVec 6) : Nat := if m = 0 then 64 else m.toNat

end Sys2Proof.Machine
end

