-- ==== Sys2Proof/Syntax.lean ====
section
/-! DEFINITION. The syntax of the two instruction sets of the spec (R2): the commands of R81 and the wire codewords of R95,
one constructor per row of spec/opcode_table.json. -/

namespace Sys2Proof

/-- One constructor per row of spec/opcode_table.json. The `enc…` and `dec…` constructors are the 128-bit commands of R81;
the `wire…` constructors are the codewords of R91 to R100, which the decoder's parser reads. -/
inductive Instr where
  /-- `ENC_HEADER t0` (R141). -/
  | encHeader (t0 : Time)
  /-- `ENC_POINT ts, val` (R142). -/
  | encPoint (ts : Time) (val : Value)
  /-- `ENC_FINISH` (R160). -/
  | encFinish
  /-- `ENC_RDREG reg` (R163). -/
  | encRdreg (idx : BitVec 3)
  /-- `DEC_HEADER` (R181). -/
  | decHeader
  /-- `DEC_POINT` (R182). -/
  | decPoint
  /-- `DEC_RDREG reg` (R200). -/
  | decRdreg (idx : BitVec 3)
  /-- The header codeword `bin_32(t0)` (R92). -/
  | wireHeader (t : Time)
  /-- The first-point codeword `bin_14(d) ++ bin_64(v)` (R93). -/
  | wireFirstPoint (d : BitVec 14) (v : Value)
  /-- The empty sentinel `ones(14) ++ zeros(64)` (R94). -/
  | wireEmptySentinel
  /-- TS-0, `'0'` (R96). -/
  | wireTs0
  /-- TS-7, `'10' ++ bin_7(p)` (R96). -/
  | wireTs7 (p : BitVec 7)
  /-- TS-9, `'110' ++ bin_9(p)` (R96). -/
  | wireTs9 (p : BitVec 9)
  /-- TS-12, `'1110' ++ bin_12(p)` (R96). -/
  | wireTs12 (p : BitVec 12)
  /-- TS-32, `'1111' ++ bin_32(p)` (R96). -/
  | wireTs32 (p : BitVec 32)
  /-- The end sentinel `'1111' ++ ones(32) ++ '0'` (R99). -/
  | wireEndSentinel
  /-- V-same, `'0'` (R97). -/
  | wireVSame
  /-- V-reuse, `'10' ++ bin_S(sig)` with S = `width` (R97). -/
  | wireVReuse (width : Nat) (sig : Value)
  /-- V-new, `'11' ++ bin_5(l) ++ bin_6(m) ++ bin_S(sig)` with S = `m`, or 64 where `m` is 0 (R98). -/
  | wireVNew (l : BitVec 5) (m : BitVec 6) (sig : Value)
  /-- The padding `zeros(k)` after the final codeword (R100). -/
  | wirePad (k : Nat)
deriving DecidableEq, Repr

/-- Which codewords may come next: the grammar of R101 is state-dependent, and the parser's state says which of its tables
it reads (R102). -/
inductive CodeCtx where
  /-- The header, at the start of a block (R92). -/
  | header
  /-- A first point or the empty sentinel: `storedTS = 0` (R93, R94). -/
  | first
  /-- A timestamp-control codeword or the end sentinel: `storedTS ≠ 0` (R96, R99). -/
  | ts
  /-- A value-control codeword, after a timestamp-control one (R97, R98). -/
  | value
  /-- The padding, after the final codeword (R100). -/
  | pad
deriving DecidableEq, Repr

/-- Why a word is illegal on a port (R84), or a bit string not a whole codeword (R103). -/
inductive DecodeError where
  /-- An opcode R84 reserves on both ports. -/
  | reservedOpcode
  /-- An opcode of the other unit's port (R81, R84). -/
  | otherPort
  /-- `RSV` or an operand field the command does not use is not zero (R82). -/
  | unusedNotZero
  /-- `RDREG` with index 7 (R83). -/
  | reservedIndex
  /-- The bits end inside the codeword (R55). -/
  | truncated
  /-- V-reuse while no window is valid (R103, R192). -/
  | noWindow
  /-- V-new with L + S > 64 (R103, R193). -/
  | badWindow
  /-- More than 7 bits of padding, or a padding bit that is not 0 (R100). -/
  | badPad
deriving DecidableEq, Repr

end Sys2Proof
end

