-- ==== Sys2Proof/WellFormed.lean ====
section
/-! DEFINITION. Which terms of `Instr` are instructions of the spec: the operand values the encodings admit. -/

namespace Sys2Proof

open Machine

/-- The operand values the encodings admit: `RDREG` index 0..6 (R83); a first delta that is not the sentinel (R93); a TS-32
payload that is not the end marker (R96); significant bits that fit their width, which is 1..64 (R97, R98, R51); L + S at
most 64 (R103); 0..7 bits of padding (R100). -/
def Instr.wf : Instr → Bool
  | .encHeader _ => true
  | .encPoint _ _ => true
  | .encFinish => true
  | .encRdreg idx => idx != 7
  | .decHeader => true
  | .decPoint => true
  | .decRdreg idx => idx != 7
  | .wireHeader _ => true
  | .wireFirstPoint d _ => d != 0x3FFF
  | .wireEmptySentinel => true
  | .wireTs0 => true
  | .wireTs7 _ => true
  | .wireTs9 _ => true
  | .wireTs12 _ => true
  | .wireTs32 p => p != 0xFFFFFFFF
  | .wireEndSentinel => true
  | .wireVSame => true
  | .wireVReuse width sig => decide (1 ≤ width) && decide (width ≤ 64) && decide (sig.toNat < 2 ^ width)
  | .wireVNew l m sig => decide (l.toNat + sigCount m ≤ 64) && decide (sig.toNat < 2 ^ sigCount m)
  | .wirePad k => decide (k ≤ 7)

end Sys2Proof
end

