-- ==== Sys2Proof/Decode.lean ====
section
/-! DEFINITION. The two decoders of the spec, each total: a command word on a port (30_encoding.md R80 to R85) and a wire
codeword at the head of a bit string (R91 to R104); after them the encoder of both; then the table reading the host asks
for. -/

namespace Sys2Proof

open Machine

/-! ### Command words -/

/-- `OPC`, bits 127:120 (R80). -/
def opcOf (w : Word) : BitVec 8 := w.extractLsb' 120 8

/-- `RSV`, bits 119:96 (R80). -/
def rsvOf (w : Word) : BitVec 24 := w.extractLsb' 96 24

/-- `TS`, bits 95:64 (R80). -/
def tsOf (w : Word) : Time := w.extractLsb' 64 32

/-- `VAL`, bits 63:0 (R80). -/
def valOf (w : Word) : Value := w.extractLsb' 0 64

/-- The word of R80 with `RSV` zero. -/
def cmdWord (opc : BitVec 8) (ts : Time) (val : Value) : Word := opc ++ (0 : BitVec 24) ++ ts ++ val

/-- The `RDREG` operand (R83): `TS[2:0]` names the register, `TS[31:3]` and `VAL` must be 0, index 7 is reserved. -/
def decodeRdreg (w : Word) (mk : BitVec 3 → Instr) : Except DecodeError Instr :=
  if (tsOf w).extractLsb' 3 29 ≠ 0 ∨ valOf w ≠ 0 then .error .unusedNotZero
  else if (tsOf w).extractLsb' 0 3 = 7 then .error .reservedIndex
  else .ok (mk ((tsOf w).extractLsb' 0 3))

/-- The encoder port (R81): only `ENC_` opcodes. -/
def decodeEncWord (w : Word) : Except DecodeError Instr :=
  if opcOf w = 0x01 then (if valOf w = 0 then .ok (.encHeader (tsOf w)) else .error .unusedNotZero)
  else if opcOf w = 0x02 then .ok (.encPoint (tsOf w) (valOf w))
  else if opcOf w = 0x03 then (if tsOf w = 0 ∧ valOf w = 0 then .ok .encFinish else .error .unusedNotZero)
  else if opcOf w = 0x04 then decodeRdreg w .encRdreg
  else if opcOf w = 0x81 ∨ opcOf w = 0x82 ∨ opcOf w = 0x84 then .error .otherPort
  else .error .reservedOpcode

/-- The decoder port (R81): only `DEC_` opcodes. -/
def decodeDecWord (w : Word) : Except DecodeError Instr :=
  if opcOf w = 0x81 then (if tsOf w = 0 ∧ valOf w = 0 then .ok .decHeader else .error .unusedNotZero)
  else if opcOf w = 0x82 then (if tsOf w = 0 ∧ valOf w = 0 then .ok .decPoint else .error .unusedNotZero)
  else if opcOf w = 0x84 then decodeRdreg w .decRdreg
  else if opcOf w = 0x01 ∨ opcOf w = 0x02 ∨ opcOf w = 0x03 ∨ opcOf w = 0x04 then .error .otherPort
  else .error .reservedOpcode

/-- The instruction a word is on a port, or why it is illegal there (R81, R82, R84). -/
def decodeCmd (port : Agent) (w : Word) : Except DecodeError Instr :=
  if rsvOf w ≠ 0 then .error .unusedNotZero
  else match port with
    | .enc => decodeEncWord w
    | .dec => decodeDecWord w

/-- A row of spec/opcode_table.json in its mask and match form, with the port of R81. -/
structure CmdRow where
  port : Agent
  pattern : Word
  mask : Word
deriving DecidableEq, Repr

/-- The seven command rows of spec/opcode_table.json. -/
def cmdTable : List CmdRow :=
  [ ⟨.enc, 0x01000000000000000000000000000000, 0xffffffff00000000ffffffffffffffff⟩,
    ⟨.enc, 0x02000000000000000000000000000000, 0xffffffff000000000000000000000000⟩,
    ⟨.enc, 0x03000000000000000000000000000000, 0xffffffffffffffffffffffffffffffff⟩,
    ⟨.enc, 0x04000000000000000000000000000000, 0xfffffffffffffff8ffffffffffffffff⟩,
    ⟨.dec, 0x81000000000000000000000000000000, 0xffffffffffffffffffffffffffffffff⟩,
    ⟨.dec, 0x82000000000000000000000000000000, 0xffffffffffffffffffffffffffffffff⟩,
    ⟨.dec, 0x84000000000000000000000000000000, 0xfffffffffffffff8ffffffffffffffff⟩ ]

/-- The word matches the row (R84). -/
def CmdRow.hits (row : CmdRow) (w : Word) : Bool := w &&& row.mask == row.pattern

/-- R84: a word is legal on a port if it matches a row of that port and is not an `RDREG` with index 7. -/
def legalCmd (port : Agent) (w : Word) : Bool :=
  cmdTable.any (fun row => row.port == port && row.hits w) &&
    !((opcOf w == 0x04 || opcOf w == 0x84) && (tsOf w).extractLsb' 0 3 == 7)

/-! ### Wire codewords -/

/-- Take `n` bits off the head: their value and the rest; `none` where fewer are left (R55). -/
def takeBits (n : Nat) (b : Bits) : Option (Nat × Bits) :=
  if n ≤ b.length then some (natOf (b.take n), b.drop n) else none

/-- A header codeword (R92). -/
def decodeHeaderCode (b : Bits) : Except DecodeError Instr :=
  match takeBits 32 b with
  | some (t, _) => .ok (.wireHeader (BitVec.ofNat 32 t))
  | none => .error .truncated

/-- A first-point codeword, or the empty sentinel, recognised "from its 14 one bits alone" (R93, R94, R184). -/
def decodeFirstCode (b : Bits) : Except DecodeError Instr :=
  match takeBits Config.nFirstDelta b with
  | none => .error .truncated
  | some (d, rest) =>
    if d = Config.firstDeltaSentinel then .ok .wireEmptySentinel
    else match takeBits 64 rest with
      | some (v, _) => .ok (.wireFirstPoint (BitVec.ofNat 14 d) (BitVec.ofNat 64 v))
      | none => .error .truncated

/-- A payload of `n` bits, handed to `mk` (R96). -/
def decodePayload (n : Nat) (b : Bits) (mk : Nat → Instr) : Except DecodeError Instr :=
  match takeBits n b with
  | some (p, _) => .ok (mk p)
  | none => .error .truncated

/-- A timestamp-control codeword or the end sentinel: the unary prefix is read bit by bit and stops at the first 0
(R96, R99, R102, R185). The end sentinel is recognised from its 36 one bits (R188). -/
def decodeTsCode : Bits → Except DecodeError Instr
  | false :: _ => .ok .wireTs0
  | true :: false :: b => decodePayload 7 b fun p => .wireTs7 (BitVec.ofNat 7 p)
  | true :: true :: false :: b => decodePayload 9 b fun p => .wireTs9 (BitVec.ofNat 9 p)
  | true :: true :: true :: false :: b => decodePayload 12 b fun p => .wireTs12 (BitVec.ofNat 12 p)
  | true :: true :: true :: true :: b =>
    decodePayload 32 b fun p => if p = Config.dodEndPayload then .wireEndSentinel else .wireTs32 (BitVec.ofNat 32 p)
  | _ => .error .truncated

/-- A value-control codeword (R97, R98, R102). `window` is the reuse width S while a window is valid (R97). -/
def decodeValueCode (window : Option Nat) : Bits → Except DecodeError Instr
  | false :: _ => .ok .wireVSame
  | true :: false :: b =>
    match window with
    | none => .error .noWindow
    | some n => decodePayload n b fun p => .wireVReuse n (BitVec.ofNat 64 p)
  | true :: true :: b =>
    match takeBits Config.lzFieldWidth b with
    | none => .error .truncated
    | some (l, b') =>
      match takeBits Config.sigFieldWidth b' with
      | none => .error .truncated
      | some (m, b'') =>
        if l + sigCount (BitVec.ofNat 6 m) > 64 then .error .badWindow
        else decodePayload (sigCount (BitVec.ofNat 6 m)) b''
          fun p => .wireVNew (BitVec.ofNat 5 l) (BitVec.ofNat 6 m) (BitVec.ofNat 64 p)
  | _ => .error .truncated

/-- The padding: what is left after the final codeword, at most 7 zero bits (R100). -/
def decodePad (b : Bits) : Except DecodeError Instr :=
  if b.length ≤ 7 ∧ b.all (fun x => !x) then .ok (.wirePad b.length) else .error .badPad

/-- The codeword at the head of a bit string, in a context of the grammar (R101, R102). -/
def decodeWire (c : CodeCtx) (window : Option Nat) (b : Bits) : Except DecodeError Instr :=
  match c with
  | .header => decodeHeaderCode b
  | .first => decodeFirstCode b
  | .ts => decodeTsCode b
  | .value => decodeValueCode window b
  | .pad => decodePad b

/-! ### The encoder -/

/-- The port a command is for; none for a wire codeword (R81). -/
def Instr.port : Instr → Option Agent
  | .encHeader _ | .encPoint _ _ | .encFinish | .encRdreg _ => some .enc
  | .decHeader | .decPoint | .decRdreg _ => some .dec
  | .wireHeader _ | .wireFirstPoint _ _ | .wireEmptySentinel | .wireTs0 | .wireTs7 _ | .wireTs9 _ | .wireTs12 _
  | .wireTs32 _ | .wireEndSentinel | .wireVSame | .wireVReuse _ _ | .wireVNew _ _ _ | .wirePad _ => none

/-- The grammar context in which a wire codeword stands (R101); none for a command. -/
def Instr.ctx : Instr → Option CodeCtx
  | .encHeader _ | .encPoint _ _ | .encFinish | .encRdreg _ | .decHeader | .decPoint | .decRdreg _ => none
  | .wireHeader _ => some .header
  | .wireFirstPoint _ _ | .wireEmptySentinel => some .first
  | .wireTs0 | .wireTs7 _ | .wireTs9 _ | .wireTs12 _ | .wireTs32 _ | .wireEndSentinel => some .ts
  | .wireVSame | .wireVReuse _ _ | .wireVNew _ _ _ => some .value
  | .wirePad _ => some .pad

/-- The command word of a command (R80, R81); 0, which is illegal on both ports, for a wire codeword. -/
def encodeCmd : Instr → Word
  | .encHeader t0 => cmdWord 0x01 t0 0
  | .encPoint ts val => cmdWord 0x02 ts val
  | .encFinish => cmdWord 0x03 0 0
  | .encRdreg idx => cmdWord 0x04 ((0 : BitVec 29) ++ idx) 0
  | .decHeader => cmdWord 0x81 0 0
  | .decPoint => cmdWord 0x82 0 0
  | .decRdreg idx => cmdWord 0x84 ((0 : BitVec 29) ++ idx) 0
  | .wireHeader _ | .wireFirstPoint _ _ | .wireEmptySentinel | .wireTs0 | .wireTs7 _ | .wireTs9 _ | .wireTs12 _
  | .wireTs32 _ | .wireEndSentinel | .wireVSame | .wireVReuse _ _ | .wireVNew _ _ _ | .wirePad _ => 0

/-- The bits of a wire codeword in stream order (R92 to R100); none for a command. -/
def encodeWire : Instr → Bits
  | .encHeader _ | .encPoint _ _ | .encFinish | .encRdreg _ | .decHeader | .decPoint | .decRdreg _ => []
  | .wireHeader t => bin 32 t.toNat
  | .wireFirstPoint d v => bin 14 d.toNat ++ bin 64 v.toNat
  | .wireEmptySentinel => ones 14 ++ zeros 64
  | .wireTs0 => [false]
  | .wireTs7 p => [true, false] ++ bin 7 p.toNat
  | .wireTs9 p => [true, true, false] ++ bin 9 p.toNat
  | .wireTs12 p => [true, true, true, false] ++ bin 12 p.toNat
  | .wireTs32 p => [true, true, true, true] ++ bin 32 p.toNat
  | .wireEndSentinel => [true, true, true, true] ++ ones 32 ++ [false]
  | .wireVSame => [false]
  | .wireVReuse width sig => [true, false] ++ bin width sig.toNat
  | .wireVNew l m sig => [true, true] ++ bin 5 l.toNat ++ bin 6 m.toNat ++ bin (sigCount m) sig.toNat
  | .wirePad k => zeros k

/-- What an instruction is written as: a word on a port, or bits on the stream. -/
inductive Code where
  | word (port : Agent) (w : Word)
  | bits (b : Bits)
deriving DecidableEq, Repr

/-- The words of an instruction. -/
def encode (i : Instr) : Code :=
  match i.port with
  | some p => .word p (encodeCmd i)
  | none => .bits (encodeWire i)

/-- How many bits of a codeword the decoder consumes: all of them, but 14 of the empty sentinel, 36 of the end sentinel and
none of the padding (R184, R188, R198). A first delta or a TS-32 payload with the sentinel's pattern is that sentinel to the
decoder (R103). -/
def Instr.readLen : Instr → Nat
  | .encHeader _ | .encPoint _ _ | .encFinish | .encRdreg _ | .decHeader | .decPoint | .decRdreg _ => 0
  | .wireHeader _ => 32
  | .wireFirstPoint d _ => if d = 0x3FFF then 14 else 78
  | .wireEmptySentinel => 14
  | .wireTs0 => 1
  | .wireTs7 _ => 9
  | .wireTs9 _ => 12
  | .wireTs12 _ => 16
  | .wireTs32 _ => 36
  | .wireEndSentinel => 36
  | .wireVSame => 1
  | .wireVReuse width _ => 2 + width
  | .wireVNew _ m _ => 13 + sigCount m
  | .wirePad _ => 0

/-- The widths of the reads by which the decoder takes a codeword, in order (R181 to R195): control bits one at a time. -/
def Instr.reads : Instr → List Nat
  | .encHeader _ | .encPoint _ _ | .encFinish | .encRdreg _ | .decHeader | .decPoint | .decRdreg _ => []
  | .wireHeader _ => [32]
  | .wireFirstPoint _ _ => [14, 64]
  | .wireEmptySentinel => [14]
  | .wireTs0 => [1]
  | .wireTs7 _ => [1, 1, 7]
  | .wireTs9 _ => [1, 1, 1, 9]
  | .wireTs12 _ => [1, 1, 1, 1, 12]
  | .wireTs32 _ | .wireEndSentinel => [1, 1, 1, 1, 32]
  | .wireVSame => [1]
  | .wireVReuse width _ => [1, 1, width]
  | .wireVNew _ m _ => [1, 1, 5, 6, sigCount m]
  | .wirePad _ => []

/-! ### The opcode table's words -/

/-- A wire row's word is its pattern read as one number whose bit 0 is the pattern's last bit (98_reader.md), in whole bytes
with zeros above; this finds the row's context and true width from that number (log 11). A word that no row before it
claims is read as a value-control codeword, whose leading bit is 1, so that its highest set bit gives its width. -/
def tableForm (nbits w : Nat) : CodeCtx × Nat :=
  if nbits = 32 then (.header, 32)
  else if nbits = 78 ∨ nbits = 80 then (.first, 78)
  else if w = 0 then (.ts, 1)
  else if w >>> 7 = 0b10 then (.ts, 9)
  else if w >>> 9 = 0b110 then (.ts, 12)
  else if w >>> 12 = 0b1110 then (.ts, 16)
  else if w >>> 32 = 0b1111 then (.ts, 36)
  else if w = 0x1FFFFFFFFE then (.ts, 37)
  else (.value, Nat.log2 w + 1)

/-- The instruction the decoder reads from a word of the opcode table, numbered as the table numbers it. A 128-bit word is a
command on the port that opcode bit 7 names (R81); a shorter one a wire codeword. The table gives a value codeword's
significant bits no number of their own: those the word does not hold are zeros, 64 of them for a bare `'10'`; a V-reuse of
more than 64 of them has no window (R97) and is none (log 11). -/
def decodeTableWord (nbits w : Nat) : Option Instr :=
  if nbits = 128 then
    let word := BitVec.ofNat 128 w
    (decodeCmd (if (opcOf word).getLsbD 7 then .dec else .enc) word).toOption
  else
    let form := tableForm nbits w
    let width := if form.2 ≤ 2 then 64 else form.2 - 2
    let operand := if form.1 = .value ∧ 2 ≤ form.2 then zeros 75 else []
    (decodeWire form.1 (if width ≤ 64 then some width else none) (bin form.2 w ++ operand)).toOption

end Sys2Proof
end

