-- ==== Sys2Proof/Machine/BitCount.lean ====
section
/-! DEFINITION. The pure functions of the datapath: zero counts (40_bitcount.md R120, R121), signed fields (R124, R125) and
the bucket selector (41_encoder.md R150). -/

namespace Sys2Proof.Machine

/-- `clz64(v)` (R120): zero bits above the highest set bit; 64 for 0. -/
def clz64 (v : Value) : Nat := ((bin 64 v.toNat).takeWhile (fun b => !b)).length

/-- `ctz64(v)` (R121): zero bits below the lowest set bit; 64 for 0. -/
def ctz64 (v : Value) : Nat := ((bin 64 v.toNat).reverse.takeWhile (fun b => !b)).length

/-- `senc_n(x)` (R124): negative values are biased by `2^n`. -/
def senc (n : Nat) (x : Int) : Nat := if 0 ≤ x then x.toNat else (x + 2 ^ n).toNat

/-- `sdec_n(u)` (R125, 90_conflicts.md C1): payloads above `2^(n−1)` are negative. -/
def sdec (n : Nat) (u : Nat) : Int := if u > 2 ^ (n - 1) then (u : Int) - 2 ^ n else u

/-- A delta-of-delta class (R150): its prefix bits and its payload width. -/
structure Bucket where
  prefixBits : Bits
  width : Nat
deriving DecidableEq, Repr

/-- `bucket(dd)` (R150): the conditions in this order, the first that holds is taken. -/
def bucket (dd : Int) : Bucket :=
  if dd = 0 then ⟨[false], 0⟩
  else if -63 ≤ dd ∧ dd ≤ 64 then ⟨[true, false], 7⟩
  else if -255 ≤ dd ∧ dd ≤ 256 then ⟨[true, true, false], 9⟩
  else if -2047 ≤ dd ∧ dd ≤ 2048 then ⟨[true, true, true, false], 12⟩
  else ⟨[true, true, true, true], 32⟩

/-- The payload width of the prefix with `k` leading ones, `[0, 7, 9, 12, 32][k]` (R182, R185). -/
def payloadWidth (k : Nat) : Nat :=
  match k with
  | 0 => 0
  | 1 => 7
  | 2 => 9
  | 3 => 12
  | _ => 32

end Sys2Proof.Machine
end

