-- ==== Sys2Proof/Machine/State.lean ====
section
/-! DEFINITION. The state of the machine: both units' registers (10_state.md), the two stream devices (20_memory.md), the
response ports, and what the host does next. Plain data throughout. -/

namespace Sys2Proof.Machine

/-- The `phase` register's values (R24). -/
inductive Phase where
  /-- 0, `INIT`: no header yet. -/
  | init
  /-- 1, `OPEN`: header done, points may follow. -/
  | opened
  /-- 2, `DONE` of the encoder, `END` of the decoder. -/
  | finished
  /-- 3, `ERR`: a data error occurred. -/
  | error
deriving DecidableEq, Repr

/-- The status codes of R89. `badPrefix` is reserved: no command raises it (R234, 90_conflicts.md C2). -/
inductive Status where
  | ok
  | point
  | endBlock
  | eIO
  | eTruncated
  | eBadPrefix
  | eNoWindow
  | eBadWindow
  | eMisuse
  | eIllegal
deriving DecidableEq, Repr

/-- The registers of one unit; the two units have the same ones with the same widths (R23, R32). -/
structure Regs where
  /-- `U.phase` (R24). -/
  phase : Phase
  /-- `U.err` (R25): the code of the data error that moved the unit to `ERR`, 0x00 while there has been none. -/
  err : BitVec 8
  /-- `U.misuse` (R26): sticky. -/
  misuse : Bool
  /-- `U.hdrTS` (R27). -/
  hdrTS : Time
  /-- `U.storedTS` (R29): 0 also means "no point yet". -/
  storedTS : Time
  /-- `U.storedDelta` (R30). -/
  storedDelta : Time
  /-- `U.winValid` (R28). -/
  winValid : Bool
  /-- `U.storedLZ` (R28). -/
  storedLZ : BitVec 5
  /-- `U.storedTZ` (R28). -/
  storedTZ : BitVec 6
  /-- `U.storedVal` (R31). -/
  storedVal : Value
deriving DecidableEq, Repr

/-- The reset values of R23 and R40. -/
def Regs.reset : Regs where
  phase := .init
  err := 0
  misuse := false
  hdrTS := 0
  storedTS := 0
  storedDelta := 0
  winValid := false
  storedLZ := 0
  storedTZ := 0
  storedVal := 0

/-- The encoder's bit sink (R50): `SINK` in stream order, and the `flushed` flag. -/
structure Sink where
  bits : Bits
  flushed : Bool
deriving DecidableEq, Repr

/-- A fresh empty sink (R50, R262). -/
def Sink.fresh : Sink := ⟨[], false⟩

/-- The decoder's bit source (R54): `SourceBytes` (parameter P2) and the read position `rpos`, in bits. -/
structure Source where
  bytes : List Byte
  rpos : Nat
deriving DecidableEq, Repr

/-- What happens at one `SinkWrite` or `SinkFlush` of a command (parameter P1 `SinkOracle`, R57; R261, R271). -/
inductive SinkAnswer where
  /-- The sink answers `ok`. -/
  | ok
  /-- The sink answers `fail`, and then holds `left`, "whatever the sink holds" (R57), with this flag. -/
  | fail (left : Bits) (flushed : Bool)
  /-- The sink never answers (R271). -/
  | never
  /-- `ENC.RST` is asserted while the command waits here; the first `kept` bits of this access were already appended (R261,
  93_implementation_defined.md U15; log 8). -/
  | reset (kept : Nat)
deriving DecidableEq, Repr

/-- What happens at one `SourceRead` of a command (R261, R271). Running out of bits is no answer of the environment: it
follows from `SourceBytes` (R55). -/
inductive SourceAnswer where
  /-- The source answers. -/
  | ok
  /-- The source never answers (R271). -/
  | never
  /-- `DEC.RST` is asserted while the command waits here (R261). -/
  | reset
deriving DecidableEq, Repr

/-- One thing the host does (R262, R264, R265). A command word comes with what happens at each of its stream accesses, in
order; past the end of that list every access is answered `ok`. A `reset` left at the head of the list when the command
would respond is a reset before the response (R261). -/
inductive Input where
  /-- A word on `ENC`'s command port. -/
  | encCmd (w : Word) (answers : List SinkAnswer)
  /-- A word on `DEC`'s command port. -/
  | decCmd (w : Word) (answers : List SourceAnswer)
  /-- `ENC.RST`, between commands (R260). -/
  | encRst
  /-- `DEC.RST`, between commands (R260). -/
  | decRst
  /-- The host attaches a fresh empty sink (R262). -/
  | attachSink
  /-- The host attaches a source holding these bytes, with `rpos = 0` (R262). -/
  | attachSource (bytes : List Byte)
deriving DecidableEq, Repr

/-- The encoder unit with its sink and its response port. -/
structure EncUnit where
  regs : Regs
  sink : Sink
  /-- The responses produced so far, oldest first (R88; log 10). -/
  responses : List Word
  /-- MODEL's own: the command in progress waits for a sink that never answers (R271; log 7). -/
  waiting : Bool
deriving DecidableEq, Repr

/-- The decoder unit with its source and its response port. -/
structure DecUnit where
  regs : Regs
  source : Source
  /-- The responses produced so far, oldest first (R88; log 10). -/
  responses : List Word
  /-- MODEL's own: the command in progress waits for a source that never answers (R271; log 7). -/
  waiting : Bool
  /-- MODEL's own: inside a decoder command, the codeword its parser reads next; `none` between commands (log 1). -/
  stage : Option CodeCtx
  /-- MODEL's own: how many free values of `Config.rposAfterShortRead` were used (log 5). -/
  freeReads : Nat
deriving DecidableEq, Repr

/-- The machine: two units that share nothing (R22), and what the host does, in order (log 2). -/
structure State where
  enc : EncUnit
  dec : DecUnit
  /-- What the host does from now on, in order; the head is the action the machine takes next. -/
  inputs : List Input
deriving DecidableEq, Repr

/-- The machine at power-on: "At power-on each unit is in the reset state" (R260, R40). The stream devices are an empty sink
and an empty source, the ports have produced nothing and the host does nothing yet (DESIGN CHOICE, log 6 and log 2). -/
def State.reset : State where
  enc := { regs := .reset, sink := .fresh, responses := [], waiting := false }
  dec := { regs := .reset, source := ⟨[], 0⟩, responses := [], waiting := false, stage := none, freeReads := 0 }
  inputs := []

/-- Why a step can stop. Every error of the spec is a response, so a next state (R230); these two are no errors of a
command. -/
inductive Fault where
  /-- Raised by `step` alone: the host's next action is a word on `ENC`'s port while `ENC` waits for ever for its sink. The
  port accepts no second command (R267), and no response will ever come (R271). SAFE: the machine does nothing where the
  hardware does nothing. -/
  | encBusy
  /-- Raised by `step` alone: the same for `DEC` and its source (R267, R271). SAFE. -/
  | decBusy
deriving DecidableEq, Repr

/-- Why an instruction has no meaning. -/
inductive Refusal where
  /-- Raised by no arm: every instruction of the table has its meaning. Kept because the host's interface names it. SAFE. -/
  | notModelled (mnemonic : String)
deriving DecidableEq, Repr

/-- What the machine takes next. -/
inductive Fetched where
  /-- Nothing: the host does nothing (R249). -/
  | idle
  /-- An instruction: a legal command word, or a codeword inside a decoder command. -/
  | run (i : Instr)
  /-- A word that is illegal on its port (R84). -/
  | illegal (port : Agent)
  /-- A codeword that cannot be read whole, inside a decoder command (R55, R103). -/
  | broken (c : CodeCtx)
  /-- A word on the port of a unit that waits for ever (R267, R271). -/
  | busy (unit : Agent)
  /-- A reset input (R260). -/
  | reset (unit : Agent)
  /-- The host attaches a fresh sink (R262). -/
  | attachSink
  /-- The host attaches a source (R262). -/
  | attachSource (bytes : List Byte)
deriving DecidableEq, Repr

end Sys2Proof.Machine
end

