-- ==== Sys2Proof/Machine/Flags.lean ====
section
/-! DEFINITION. The flag-like state (10_state.md R37): the phase and status codes as numbers, and the `STATUS` view (R33).
The units have no arithmetic flags. -/

namespace Sys2Proof.Machine

/-- The number of a phase (R24). -/
def Phase.code : Phase → BitVec 2
  | .init => 0
  | .opened => 1
  | .finished => 2
  | .error => 3

/-- The number of a status (R89). -/
def Status.code : Status → BitVec 8
  | .ok => 0x00
  | .point => 0x01
  | .endBlock => 0x02
  | .eIO => 0x10
  | .eTruncated => 0x11
  | .eBadPrefix => 0x12
  | .eNoWindow => 0x13
  | .eBadWindow => 0x14
  | .eMisuse => 0x20
  | .eIllegal => 0x21

/-- The `STATUS` view (R33): bits 63:16 zero, 15:8 `err`, 7:4 zero, 3 `misuse`, 2 `winValid`, 1:0 `phase`. -/
def statusWord (r : Regs) : BitVec 64 :=
  (0 : BitVec 48) ++ r.err ++ (0 : BitVec 4) ++ BitVec.ofBool r.misuse ++ BitVec.ofBool r.winValid ++ r.phase.code

end Sys2Proof.Machine
end

