-- ==== Sys2Proof/Machine/Operands.lean ====
section
/-! DEFINITION. The operand and result forms: the register an `RDREG` index names (10_state.md R34) and the response word
(30_encoding.md R88). -/

namespace Sys2Proof.Machine

/-- The register map of R34, zero-extended to 64 bits; index 7 is reserved and never read (R84). -/
def readReg (r : Regs) (idx : BitVec 3) : BitVec 64 :=
  match idx.toNat with
  | 0 => statusWord r
  | 1 => r.hdrTS.setWidth 64
  | 2 => r.storedTS.setWidth 64
  | 3 => r.storedDelta.setWidth 64
  | 4 => r.storedLZ.setWidth 64
  | 5 => r.storedTZ.setWidth 64
  | 6 => r.storedVal
  | _ => 0

/-- The response word (R88): `ST`, 24 zero bits, `RTS`, `RVAL`. -/
def responseWord (st : BitVec 8) (rts : Time) (rval : Value) : Word := st ++ (0 : BitVec 24) ++ rts ++ rval

/-- The reuse width `64 − storedLZ − storedTZ` (R97, R195). -/
def Regs.reuseWidth (r : Regs) : Nat := 64 - r.storedLZ.toNat - r.storedTZ.toNat

/-- The reuse width while a window is valid (R28). -/
def Regs.window (r : Regs) : Option Nat := if r.winValid then some r.reuseWidth else none

end Sys2Proof.Machine
end

