-- ==== Sys2Proof/Machine/Ops.lean ====
section
/-! DEFINITION. The operations every command is made of: the register updates, the stream accesses, the end of a command
with its response, the entry of an error (60_exceptions.md) and the reset that leaves it (70_reset_and_hazards.md). -/

namespace Sys2Proof.Machine

/-! ### Register updates -/

/-- `U.phase <- p`. -/
def Regs.setPhase (r : Regs) (p : Phase) : Regs := { r with phase := p }

/-- `U.misuse <- 1` (R26, R237, R238). -/
def Regs.setMisuse (r : Regs) : Regs := { r with misuse := true }

/-- Entry of the data error X (R240): `U.phase <- ERR`, `U.err <- X`; nothing else is saved. -/
def Regs.enterError (r : Regs) (x : Status) : Regs := { r with phase := .error, err := x.code }

/-- A header command's register writes (R141, R181): `U.hdrTS <- t0`, `U.phase <- OPEN`. -/
def Regs.setHeader (r : Regs) (t0 : Time) : Regs := { r with hdrTS := t0, phase := .opened }

/-- A first-path point's register writes (R143, R183). -/
def Regs.setFirst (r : Regs) (d ts : Time) (v : Value) : Regs :=
  { r with storedDelta := d, storedTS := ts, storedVal := v }

/-- A subsequent point's timestamp writes (R146, R187). -/
def Regs.setTime (r : Regs) (delta ts : Time) : Regs := { r with storedDelta := delta, storedTS := ts }

/-- `U.storedVal <- v` (R151, R195). -/
def Regs.setVal (r : Regs) (v : Value) : Regs := { r with storedVal := v }

/-- A new window (R156, R194). -/
def Regs.setWindow (r : Regs) (lz : BitVec 5) (tz : BitVec 6) : Regs :=
  { r with storedLZ := lz, storedTZ := tz, winValid := true }

/-- The decoder's timestamp update (R187): the delta-of-delta is added to `storedDelta`, the new delta to `storedTS`, both
modulo 2^32. -/
def Regs.addDod (r : Regs) (dd : Int) : Regs :=
  let delta := r.storedDelta + BitVec.ofInt 32 dd
  r.setTime delta (r.storedTS + delta)

/-- The decoder's value update (R195): the significant bits, shifted left by `storedTZ`, XORed into `storedVal`. -/
def Regs.xorSig (r : Regs) (x : Value) : Regs := r.setVal (r.storedVal ^^^ (x <<< r.storedTZ.toNat))

/-! ### The sink -/

/-- `bytes(SINK)` (R53). -/
def Sink.bytes (k : Sink) : List Byte := packBytes k.bits

/-- `SINK <- SINK ++ s` (R51). -/
def Sink.append (k : Sink) (s : Bits) : Sink := { k with bits := k.bits ++ s }

/-- The bits a `SinkFlush` adds (R52). -/
def Sink.padding (k : Sink) : Bits := zeros (padCount k.bits.length)

/-- A completed `SinkFlush` (R52). -/
def Sink.flush (k : Sink) : Sink := { bits := k.bits ++ k.padding, flushed := true }

/-- One `SinkWrite(v, n)` of a command: value and width (R51). -/
structure Field where
  value : Value
  width : Nat
deriving DecidableEq, Repr

/-- The bits a field appends, `bin_n(v)` (R51). -/
def Field.bits (f : Field) : Bits := bin f.width f.value.toNat

/-- The bit string of a field list (R12, R51). -/
def fieldsBits (fs : List Field) : Bits := fs.flatMap Field.bits

/-- An encoder command in progress: the registers and the sink as they stand, and what happens at the accesses to come. -/
structure EncRun where
  regs : Regs
  sink : Sink
  answers : List SinkAnswer
deriving DecidableEq, Repr

/-- How an encoder command ends (R230, R261, R271). -/
inductive EncResult where
  /-- `respond S(rts, rval)` (R15). -/
  | respond (st : BitVec 8) (rts : Time) (rval : Value) (r : EncRun)
  /-- The device never answers: no response, ever (R271). -/
  | waits (r : EncRun)
  /-- Reset abandoned the command (R261). -/
  | abandoned (r : EncRun)
deriving DecidableEq, Repr

/-- `raise X` for a data error (R230, R240): the registers enter `ERR`, the response is X with no fields. -/
def EncRun.raise (r : EncRun) (x : Status) : EncResult :=
  .respond x.code 0 0 { r with regs := r.regs.enterError x }

/-- A use error (R237, R238): `misuse <- 1`, respond X, nothing else. -/
def EncRun.misuse (r : EncRun) (x : Status) : EncResult :=
  .respond x.code 0 0 { r with regs := r.regs.setMisuse }

/-- One access to the sink that appends `s` and, where it is the flush, sets `flushed` (R51, R52, R57): the command goes on
with `k` if the sink answers `ok`; it raises `E_IO` on `fail` (R232), waits on no answer (R271) and is abandoned on reset
(R261). -/
def sinkAccess (s : Bits) (isFlush : Bool) (r : EncRun) (k : EncRun → EncResult) : EncResult :=
  let done := ({ r.sink.append s with flushed := isFlush || r.sink.flushed } : Sink)
  match r.answers with
  | [] => k { r with sink := done }
  | .ok :: rest => k { r with sink := done, answers := rest }
  | .fail left flushed :: rest => EncRun.raise { r with sink := ⟨left, flushed⟩, answers := rest } .eIO
  | .never :: rest => .waits { r with answers := rest }
  | .reset kept :: rest => .abandoned { r with sink := r.sink.append (s.take kept), answers := rest }

/-- `SinkWrite(v, n)` (R51). -/
def sinkWrite (f : Field) (r : EncRun) (k : EncRun → EncResult) : EncResult := sinkAccess f.bits false r k

/-- `SinkPut(s)` (R51): one `SinkWrite` per field of `out`, none for a field of width 0 (log 9). -/
def sinkPut : List Field → EncRun → (EncRun → EncResult) → EncResult
  | [], r, k => k r
  | f :: fs, r, k => if f.width = 0 then sinkPut fs r k else sinkWrite f r fun r => sinkPut fs r k

/-- `SinkFlush()` (R52). -/
def sinkFlush (r : EncRun) (k : EncRun → EncResult) : EncResult := sinkAccess r.sink.padding true r k

/-! ### The source -/

/-- `SRC` (R54, R56). -/
def Source.bits (c : Source) : Bits := unpackBytes c.bytes

/-- The bits not yet consumed (R55). -/
def Source.left (c : Source) : Bits := c.bits.drop c.rpos

/-- `rpos <- rpos + n` (R55). -/
def Source.advance (c : Source) (n : Nat) : Source := { c with rpos := c.rpos + n }

/-- A decoder command in progress. -/
structure DecRun where
  regs : Regs
  source : Source
  answers : List SourceAnswer
  freeReads : Nat
deriving DecidableEq, Repr

/-- How a decoder command ends (R230, R261, R271). -/
inductive DecResult where
  /-- `respond S(rts, rval)` (R15). -/
  | respond (st : BitVec 8) (rts : Time) (rval : Value) (r : DecRun)
  /-- The device never answers: no response, ever (R271). -/
  | waits (r : DecRun)
  /-- Reset abandoned the command (R261). -/
  | abandoned (r : DecRun)
deriving DecidableEq, Repr

/-- `raise X` for a data error (R230, R240). -/
def DecRun.raise (r : DecRun) (x : Status) : DecResult :=
  .respond x.code 0 0 { r with regs := r.regs.enterError x }

/-- A use error (R237, R238). -/
def DecRun.misuse (r : DecRun) (x : Status) : DecResult :=
  .respond x.code 0 0 { r with regs := r.regs.setMisuse }

/-- A short read (R55, R233): `E_TRUNCATED`, with `rpos` a free value (log 5). -/
def DecRun.truncated (r : DecRun) : DecResult :=
  DecRun.raise
    { r with
      source := { r.source with rpos := Config.rposAfterShortRead r.freeReads }
      freeReads := r.freeReads + 1 } .eTruncated

/-- The source's part of a `SourceRead(n)` that is answered (R55): the value of the next `n` bits, or the end-of-input
signal. -/
def sourceTake (n : Nat) (r : DecRun) (k : Nat → DecRun → DecResult) : DecResult :=
  if r.source.rpos + n ≤ r.source.bits.length then
    k (natOf (r.source.left.take n)) { r with source := r.source.advance n }
  else r.truncated

/-- `SourceRead(n)` (R55): the command goes on with `k` on the value read; it raises `E_TRUNCATED` on a short read (R233),
waits on no answer (R271) and is abandoned on reset (R261). -/
def sourceRead (n : Nat) (r : DecRun) (k : Nat → DecRun → DecResult) : DecResult :=
  match r.answers with
  | [] => sourceTake n r k
  | .ok :: rest => sourceTake n { r with answers := rest } k
  | .never :: rest => .waits { r with answers := rest }
  | .reset :: rest => .abandoned { r with answers := rest }

/-! ### Reset, the only way out of `ERR` (R241, R260) -/

/-- `ENC.RST` (R260): every register of the unit takes its reset value; the sink is not touched (R262), a command in progress
is abandoned with no response (R261). -/
def EncUnit.reset (e : EncUnit) : EncUnit := { e with regs := .reset, waiting := false }

/-- `DEC.RST` (R260 to R262). -/
def DecUnit.reset (d : DecUnit) : DecUnit := { d with regs := .reset, waiting := false, stage := none }

/-- The host's action at the head of `inputs` is over. -/
def State.retire (s : State) : State := { s with inputs := s.inputs.tail }

/-- The encoder unit is `e` now. -/
def State.setEnc (s : State) (e : EncUnit) : State := { s with enc := e }

/-- The decoder unit is `d` now. -/
def State.setDec (s : State) (d : DecUnit) : State := { s with dec := d }

/-! ### The beginning and the end of a command -/

/-- What happens at the stream accesses of the encoder command at the head of `inputs` (P1). -/
def State.sinkAnswers (s : State) : List SinkAnswer :=
  match s.inputs with
  | .encCmd _ answers :: _ => answers
  | _ => []

/-- What happens at the stream accesses of the decoder command at the head of `inputs`. -/
def State.sourceAnswers (s : State) : List SourceAnswer :=
  match s.inputs with
  | .decCmd _ answers :: _ => answers
  | _ => []

/-- The encoder accepts the command at the head of `inputs` (R270). -/
def State.encRun (s : State) : EncRun := ⟨s.enc.regs, s.enc.sink, s.sinkAnswers⟩

/-- The decoder accepts the command at the head of `inputs` (R270). -/
def State.decRun (s : State) : DecRun := ⟨s.dec.regs, s.dec.source, s.sourceAnswers, s.dec.freeReads⟩

/-- A command of the encoder ends (R88, R270): one response word, unless the device never answers (R271) or a reset comes
first (R261). -/
def State.encFinish (s : State) (res : EncResult) : State :=
  match res with
  | .respond st rts rval r =>
    match r.answers with
    | .reset _ :: _ => s.retire.setEnc (EncUnit.reset { s.enc with sink := r.sink })
    | _ =>
      s.retire.setEnc
        { regs := r.regs, sink := r.sink, responses := s.enc.responses ++ [responseWord st rts rval], waiting := false }
  | .waits r => s.retire.setEnc { s.enc with regs := r.regs, sink := r.sink, waiting := true }
  | .abandoned r => s.retire.setEnc (EncUnit.reset { s.enc with sink := r.sink })

/-- A command of the decoder ends (R88, R270, R261, R271). -/
def State.decFinish (s : State) (res : DecResult) : State :=
  match res with
  | .respond st rts rval r =>
    match r.answers with
    | .reset :: _ => s.retire.setDec (DecUnit.reset { s.dec with source := r.source, freeReads := r.freeReads })
    | _ =>
      s.retire.setDec
        { regs := r.regs, source := r.source, responses := s.dec.responses ++ [responseWord st rts rval],
          waiting := false, stage := none, freeReads := r.freeReads }
  | .waits r =>
    s.retire.setDec { s.dec with regs := r.regs, source := r.source, waiting := true, stage := none,
                                 freeReads := r.freeReads }
  | .abandoned r => s.retire.setDec (DecUnit.reset { s.dec with source := r.source, freeReads := r.freeReads })

/-- Steps 3 and 4 of R140, in the order of R239: in `ERR` the stored error and no other effect; in a phase that is not the
one needed `E_MISUSE`; else the command's pseudocode. -/
def encAdmit (need : Phase) (r : EncRun) (body : EncRun → EncResult) : EncResult :=
  if r.regs.phase = .error then .respond r.regs.err 0 0 r
  else if r.regs.phase ≠ need then r.misuse .eMisuse
  else body r

/-- Steps 3 and 4 of R180, in the order of R239. -/
def decAdmit (need : Phase) (r : DecRun) (body : DecRun → DecResult) : DecResult :=
  if r.regs.phase = .error then .respond r.regs.err 0 0 r
  else if r.regs.phase ≠ need then r.misuse .eMisuse
  else body r

/-- An illegal word on `ENC`'s port (R84, R238, step 1 of R140). -/
def State.encIllegal (s : State) : State := s.encFinish (s.encRun.misuse .eIllegal)

/-- An illegal word on `DEC`'s port (R84, R238, step 1 of R180). -/
def State.decIllegal (s : State) : State := s.decFinish (s.decRun.misuse .eIllegal)

/-! ### The host's other actions -/

/-- `ENC.RST` between commands (R260). -/
def State.encReset (s : State) : State := s.retire.setEnc s.enc.reset

/-- `DEC.RST` between commands (R260). -/
def State.decReset (s : State) : State := s.retire.setDec s.dec.reset

/-- The host attaches a fresh empty sink (R262). -/
def State.attachSink (s : State) : State := s.retire.setEnc { s.enc with sink := .fresh }

/-- The host attaches a source, with `rpos = 0` (R54, R262). -/
def State.attachSource (s : State) (bytes : List Byte) : State := s.retire.setDec { s.dec with source := ⟨bytes, 0⟩ }

end Sys2Proof.Machine
end

