-- ==== Sys2Proof/Machine/Decoder.lean ====
section
/-! DEFINITION. The commands of the decoder unit (42_decoder.md), written as R181 and R182 list their reads and writes. -/

namespace Sys2Proof.Machine

/-- `respond POINT(RTS = D.storedTS, RVAL = D.storedVal)` (R196). -/
def DecRun.respondPoint (r : DecRun) : DecResult :=
  .respond Status.point.code r.regs.storedTS r.regs.storedVal r

/-- `D.phase <- END; respond END` (R184, R188). -/
def DecRun.respondEnd (r : DecRun) : DecResult :=
  .respond Status.endBlock.code 0 0 { r with regs := r.regs.setPhase .finished }

/-- `DEC_HEADER` (R181). -/
def decHeaderBody (r : DecRun) : DecResult :=
  sourceRead 32 r fun t r =>
    .respond Status.ok.code (BitVec.ofNat 32 t) 0 { r with regs := r.regs.setHeader (BitVec.ofNat 32 t) }

/-- The first path of `DEC_POINT` (R183, R184). -/
def decFirst (r : DecRun) : DecResult :=
  sourceRead Config.nFirstDelta r fun d r =>
    if d = Config.firstDeltaSentinel then r.respondEnd
    else sourceRead 64 r fun v r =>
      let delta := BitVec.ofNat 32 d
      DecRun.respondPoint { r with regs := r.regs.setFirst delta (r.regs.hdrTS + delta) (BitVec.ofNat 64 v) }

/-- The prefix parser (R185): at most `fuel` bits, one at a time, stopping at the first 0; `k` counts the ones. -/
def readPrefix : Nat → Nat → DecRun → (Nat → DecRun → DecResult) → DecResult
  | 0, k, r, cont => cont k r
  | fuel + 1, k, r, cont => sourceRead 1 r fun b r => if b = 0 then cont k r else readPrefix fuel (k + 1) r cont

/-- The timestamp half of a subsequent point (R185 to R188); `cont` is the rest of the command. -/
def decTime (r : DecRun) (cont : DecRun → DecResult) : DecResult :=
  readPrefix 4 0 r fun k r =>
    let n := payloadWidth k
    if n = 0 then cont { r with regs := r.regs.addDod 0 }
    else sourceRead n r fun u r =>
      if n = 32 ∧ u = Config.dodEndPayload then r.respondEnd
      else cont { r with regs := r.regs.addDod (sdec n u) }

/-- The significant bits of a changed value (R195). -/
def decSig (r : DecRun) : DecResult :=
  sourceRead r.regs.reuseWidth r fun x r => DecRun.respondPoint { r with regs := r.regs.xorSig (BitVec.ofNat 64 x) }

/-- A new window (R193, R194): `L + S > 64` raises `E_BAD_WINDOW` and changes no window register; else the window registers
are written before the significant bits are read. -/
def decNewWindow (r : DecRun) : DecResult :=
  sourceRead Config.lzFieldWidth r fun l r =>
    sourceRead Config.sigFieldWidth r fun m r =>
      let sig := sigCount (BitVec.ofNat 6 m)
      if l + sig > 64 then r.raise .eBadWindow
      else decSig { r with regs := r.regs.setWindow (BitVec.ofNat 5 l) (BitVec.ofNat 6 (64 - sig - l)) }

/-- The value half of a subsequent point (R189 to R195). -/
def decValue (r : DecRun) : DecResult :=
  sourceRead 1 r fun changed r =>
    if changed = 0 then r.respondPoint
    else sourceRead 1 r fun renew r =>
      if renew = 1 then decNewWindow r
      else if r.regs.winValid then decSig r
      else r.raise .eNoWindow

/-- `DEC_POINT` (R182). -/
def decPointBody (r : DecRun) : DecResult :=
  if r.regs.storedTS = 0 then decFirst r else decTime r decValue

/-- `DEC_RDREG` (R200); index 7 is illegal (R84). -/
def decRdregBody (idx : BitVec 3) (r : DecRun) : DecResult :=
  if idx = 7 then r.misuse .eIllegal else .respond Status.ok.code 0 (readReg r.regs idx) r

/-- The meaning of `DEC_HEADER` (R181, R180). -/
def execDecHeader (s : State) : Host.Outcome State Fault Refusal :=
  .next (s.decFinish (decAdmit .init s.decRun decHeaderBody))

/-- The meaning of `DEC_POINT` (R182, R180). -/
def execDecPoint (s : State) : Host.Outcome State Fault Refusal :=
  .next (s.decFinish (decAdmit .opened s.decRun decPointBody))

/-- The meaning of `DEC_RDREG` (R200): in any phase (step 2 of R180). -/
def execDecRdreg (idx : BitVec 3) (s : State) : Host.Outcome State Fault Refusal :=
  .next (s.decFinish (decRdregBody idx s.decRun))

end Sys2Proof.Machine
end

