-- ==== Sys2Proof/Machine/Encoder.lean ====
section
/-! DEFINITION. The commands of the encoder unit (41_encoder.md). -/

namespace Sys2Proof.Machine

/-- `ENC_HEADER t0` (R141): `hdrTS` and `phase` are written before the 32 bits are appended. -/
def encHeaderBody (t0 : Time) (r : EncRun) : EncResult :=
  sinkWrite ⟨t0.setWidth 64, 32⟩ { r with regs := r.regs.setHeader t0 } fun r => .respond Status.ok.code 0 0 r

/-- The first path of `ENC_POINT` (R143): the full 32-bit delta is stored, its low 14 bits are written (R144). -/
def encFirst (t : Time) (v : Value) (r : Regs) : Regs × List Field :=
  let d := t - r.hdrTS
  (r.setFirst d t v, [⟨d.setWidth 64, 14⟩, ⟨v, 64⟩])

/-- The delta-of-delta of a subsequent point (R146): `s32(u32(u32(t − storedTS) − storedDelta))`. -/
def encDod (t : Time) (r : Regs) : Int := (t - r.storedTS - r.storedDelta).toInt

/-- The timestamp half of a subsequent point (R146, R148, R150): the narrowest bucket's prefix and payload. -/
def encTime (t : Time) (r : Regs) : Regs × List Field :=
  let dd := encDod t r
  let b := bucket dd
  (r.setTime (t - r.storedTS) t,
    [⟨BitVec.ofNat 64 (natOf b.prefixBits), b.prefixBits.length⟩, ⟨BitVec.ofNat 64 (senc b.width dd), b.width⟩])

/-- The clamped leading-zero count of R153. -/
def clampedLZ (x : Value) : Nat := min (clz64 x) Config.lzMax

/-- The window test of R154. -/
def fitsWindow (r : Regs) (x : Value) : Bool :=
  r.winValid && decide (r.storedLZ.toNat ≤ clampedLZ x) && decide (r.storedTZ.toNat ≤ ctz64 x)

/-- The value half of a subsequent point (R151 to R157). -/
def encValue (v : Value) (r : Regs) : Regs × List Field :=
  let x := v ^^^ r.storedVal
  let r := r.setVal v
  if x = 0 then (r, [⟨0, 1⟩])
  else if fitsWindow r x then
    (r, [⟨0b10, 2⟩, ⟨x >>> r.storedTZ.toNat, r.reuseWidth⟩])
  else
    let lz := clampedLZ x
    let tz := ctz64 x
    let sig := 64 - lz - tz
    (r.setWindow (BitVec.ofNat 5 lz) (BitVec.ofNat 6 tz),
      [⟨0b11, 2⟩, ⟨BitVec.ofNat 64 lz, 5⟩, ⟨BitVec.ofNat 64 (sig % 64), 6⟩, ⟨x >>> tz, sig⟩])

/-- The register writes of an `ENC_POINT` and the fields it puts on the sink (R142). -/
def encPointEffect (t : Time) (v : Value) (r : Regs) : Regs × List Field :=
  if r.storedTS = 0 then encFirst t v r
  else
    let time := encTime t r
    let value := encValue v time.1
    (value.1, time.2 ++ value.2)

/-- `ENC_POINT ts, val` (R142): every register write comes before the first sink write (R147). -/
def encPointBody (t : Time) (v : Value) (r : EncRun) : EncResult :=
  let e := encPointEffect t v r.regs
  sinkPut e.2 { r with regs := e.1 } fun r => .respond Status.ok.code 0 0 r

/-- The sentinel of `ENC_FINISH` (R161, R162). -/
def sentinelFields (r : Regs) : List Field :=
  if r.storedTS = 0 then [⟨0x3FFF, 14⟩, ⟨0, 64⟩] else [⟨0xF, 4⟩, ⟨0xFFFFFFFF, 32⟩, ⟨0, 1⟩]

/-- `ENC_FINISH` (R160): `phase` is written first, then the sentinel, then the flush. -/
def encFinishBody (r : EncRun) : EncResult :=
  sinkPut (sentinelFields r.regs) { r with regs := r.regs.setPhase .finished } fun r =>
    sinkFlush r fun r => .respond Status.ok.code 0 0 r

/-- `ENC_RDREG` (R163); index 7 is illegal (R84). -/
def encRdregBody (idx : BitVec 3) (r : EncRun) : EncResult :=
  if idx = 7 then r.misuse .eIllegal else .respond Status.ok.code 0 (readReg r.regs idx) r

/-- The meaning of `ENC_HEADER` (R141, R140). -/
def execEncHeader (t0 : Time) (s : State) : Host.Outcome State Fault Refusal :=
  .next (s.encFinish (encAdmit .init s.encRun (encHeaderBody t0)))

/-- The meaning of `ENC_POINT` (R142, R140). -/
def execEncPoint (t : Time) (v : Value) (s : State) : Host.Outcome State Fault Refusal :=
  .next (s.encFinish (encAdmit .opened s.encRun (encPointBody t v)))

/-- The meaning of `ENC_FINISH` (R160, R140). -/
def execEncFinish (s : State) : Host.Outcome State Fault Refusal :=
  .next (s.encFinish (encAdmit .opened s.encRun encFinishBody))

/-- The meaning of `ENC_RDREG` (R163): in any phase, before the stored error and the phase check (step 2 of R140). -/
def execEncRdreg (idx : BitVec 3) (s : State) : Host.Outcome State Fault Refusal :=
  .next (s.encFinish (encRdregBody idx s.encRun))

end Sys2Proof.Machine
end

