-- ==== Sys2Proof/Machine/Wire.lean ====
section
/-! DEFINITION. The meanings of the wire codewords (30_encoding.md R92 to R100): what the decoder does when its parser has
read that codeword whole, inside a decoder command (log 1). `DEC_HEADER` and `DEC_POINT` themselves are written over single
reads in Machine/Decoder.lean, as R181 and R182 give them, because a short read leaves the writes made before it (R197). -/

namespace Sys2Proof.Machine

/-- The decoder command in progress, at a codeword all of whose bits the source has (log 13). -/
def State.codeRun (s : State) : DecRun := ⟨s.dec.regs, s.dec.source, [], s.dec.freeReads⟩

/-- The parser consumed `n` bits (R198). -/
def DecRun.consume (r : DecRun) (n : Nat) : DecRun := { r with source := r.source.advance n }

/-- A timestamp-control codeword is over: the command goes on with a value-control codeword (R182, R189). -/
def State.codeContinue (s : State) (r : DecRun) : State :=
  s.setDec { s.dec with regs := r.regs, source := r.source, stage := some .value }

/-- The end of a command at a codeword of the decoder: its response is produced (R88). -/
def State.codeEnd (s : State) (res : DecResult) : Host.Outcome State Fault Refusal := .next (s.decFinish res)

/-- A timestamp-control codeword of `n` bits whose delta-of-delta is `dd` (R186, R187). -/
def codeTime (n : Nat) (dd : Int) (s : State) : Host.Outcome State Fault Refusal :=
  let r := s.codeRun.consume n
  .next (s.codeContinue { r with regs := r.regs.addDod dd })

/-- A point is returned with registers `f` of the present ones, after `n` bits (R196). -/
def codePoint (n : Nat) (f : Regs → Regs) (s : State) : Host.Outcome State Fault Refusal :=
  let r := s.codeRun.consume n
  s.codeEnd (DecRun.respondPoint { r with regs := f r.regs })

/-- The end of the block is recognised after `n` bits (R184, R188). -/
def codeEndBlock (n : Nat) (s : State) : Host.Outcome State Fault Refusal :=
  s.codeEnd (s.codeRun.consume n).respondEnd

/-- A data error is raised after `n` bits (R192, R193). -/
def codeError (n : Nat) (x : Status) (s : State) : Host.Outcome State Fault Refusal :=
  s.codeEnd ((s.codeRun.consume n).raise x)

/-- The padding is never read (R100, R198): nothing but the model's parser stage changes (log 14). -/
def State.codePad (s : State) : State := s.setDec { s.dec with stage := none }

/-- The meaning of the header codeword (R92, R181). -/
def execWireHeader (t : Time) (s : State) : Host.Outcome State Fault Refusal :=
  let r := s.codeRun.consume 32
  s.codeEnd (.respond Status.ok.code t 0 { r with regs := r.regs.setHeader t })

/-- The meaning of a first-point codeword (R93, R183). The sentinel's pattern in the delta ends the block (R103, R184). -/
def execWireFirstPoint (d : BitVec 14) (v : Value) (s : State) : Host.Outcome State Fault Refusal :=
  if d = 0x3FFF then codeEndBlock 14 s
  else codePoint 78 (fun r => r.setFirst (d.setWidth 32) (r.hdrTS + d.setWidth 32) v) s

/-- The meaning of the empty sentinel (R94, R184): the decoder stops after its 14 one bits. -/
def execWireEmptySentinel (s : State) : Host.Outcome State Fault Refusal := codeEndBlock 14 s

/-- The meaning of TS-0 (R96): the delta-of-delta is 0, the timestamp moves on by `storedDelta`. -/
def execWireTs0 (s : State) : Host.Outcome State Fault Refusal := codeTime 1 0 s

/-- The meaning of TS-7 (R96, R186). -/
def execWireTs7 (p : BitVec 7) (s : State) : Host.Outcome State Fault Refusal := codeTime 9 (sdec 7 p.toNat) s

/-- The meaning of TS-9 (R96, R186). -/
def execWireTs9 (p : BitVec 9) (s : State) : Host.Outcome State Fault Refusal := codeTime 12 (sdec 9 p.toNat) s

/-- The meaning of TS-12 (R96, R186). -/
def execWireTs12 (p : BitVec 12) (s : State) : Host.Outcome State Fault Refusal := codeTime 16 (sdec 12 p.toNat) s

/-- The meaning of TS-32 (R96, R186); the payload 0xFFFFFFFF ends the block (R188). -/
def execWireTs32 (p : BitVec 32) (s : State) : Host.Outcome State Fault Refusal :=
  if p = 0xFFFFFFFF then codeEndBlock 36 s else codeTime 36 (sdec 32 p.toNat) s

/-- The meaning of the end sentinel (R99, R188): the decoder stops after its 36 one bits. -/
def execWireEndSentinel (s : State) : Host.Outcome State Fault Refusal := codeEndBlock 36 s

/-- The meaning of V-same (R97, R189). -/
def execWireVSame (s : State) : Host.Outcome State Fault Refusal := codePoint 1 id s

/-- The meaning of V-reuse (R97, R191, R195): without a valid window `E_NO_WINDOW` after the two control bits (R192). -/
def execWireVReuse (width : Nat) (sig : Value) (s : State) : Host.Outcome State Fault Refusal :=
  if s.dec.regs.winValid then codePoint (2 + width) (fun r => r.xorSig sig) s else codeError 2 .eNoWindow s

/-- The meaning of V-new (R98, R193 to R195): with L + S > 64 `E_BAD_WINDOW` after the 13 control and field bits. -/
def execWireVNew (l : BitVec 5) (m : BitVec 6) (sig : Value) (s : State) : Host.Outcome State Fault Refusal :=
  if l.toNat + sigCount m > 64 then codeError 13 .eBadWindow s
  else codePoint (13 + sigCount m)
    (fun r => (r.setWindow l (BitVec.ofNat 6 (64 - sigCount m - l.toNat))).xorSig sig) s

/-- The meaning of the padding (R100): "never read by the decoder and … not checked" (R103). -/
def execWirePad (_k : Nat) (s : State) : Host.Outcome State Fault Refusal := .next s.codePad

/-- A decoder command whose parser stands in context `c`, run on from there over single reads: what happens where the
codeword cannot be read whole (R55, R192, R193, R197). -/
def State.codeBroken (s : State) (c : CodeCtx) : State :=
  match c with
  | .header => s.decFinish (decHeaderBody s.codeRun)
  | .first => s.decFinish (decFirst s.codeRun)
  | .ts => s.decFinish (decTime s.codeRun decValue)
  | .value => s.decFinish (decValue s.codeRun)
  | .pad => s.codePad

end Sys2Proof.Machine
end

