-- ==== Sys2Proof/Machine/Dispatch.lean ====
section
/-! DEFINITION. One arm per instruction. -/

namespace Sys2Proof.Machine

def exec (i : Instr) (s : State) : Host.Outcome State Fault Refusal :=
  match i with
  | .encHeader t0 => Sys2Proof.Machine.execEncHeader t0 s
  | .encPoint ts val => Sys2Proof.Machine.execEncPoint ts val s
  | .encFinish => Sys2Proof.Machine.execEncFinish s
  | .encRdreg idx => Sys2Proof.Machine.execEncRdreg idx s
  | .decHeader => Sys2Proof.Machine.execDecHeader s
  | .decPoint => Sys2Proof.Machine.execDecPoint s
  | .decRdreg idx => Sys2Proof.Machine.execDecRdreg idx s
  | .wireHeader t => Sys2Proof.Machine.execWireHeader t s
  | .wireFirstPoint d v => Sys2Proof.Machine.execWireFirstPoint d v s
  | .wireEmptySentinel => Sys2Proof.Machine.execWireEmptySentinel s
  | .wireTs0 => Sys2Proof.Machine.execWireTs0 s
  | .wireTs7 p => Sys2Proof.Machine.execWireTs7 p s
  | .wireTs9 p => Sys2Proof.Machine.execWireTs9 p s
  | .wireTs12 p => Sys2Proof.Machine.execWireTs12 p s
  | .wireTs32 p => Sys2Proof.Machine.execWireTs32 p s
  | .wireEndSentinel => Sys2Proof.Machine.execWireEndSentinel s
  | .wireVSame => Sys2Proof.Machine.execWireVSame s
  | .wireVReuse width sig => Sys2Proof.Machine.execWireVReuse width sig s
  | .wireVNew l m sig => Sys2Proof.Machine.execWireVNew l m sig s
  | .wirePad k => Sys2Proof.Machine.execWirePad k s

end Sys2Proof.Machine
end

