-- ==== Sys2Proof/Machine/Port.lean ====
section
/-! DEFINITION. What the machine takes next, and how an instruction is put where it is taken. The units fetch nothing from a
memory (20_memory.md R67): words arrive on the command ports, and inside a decoder command codewords stand on the source. -/

namespace Sys2Proof.Machine

/-- A word on a port (R80, R84); the port of a unit that waits for ever accepts none (R267, R271). -/
def fetchWord (port : Agent) (waiting : Bool) (w : Word) : Fetched :=
  if waiting then .busy port
  else match decodeCmd port w with
    | .ok i => .run i
    | .error _ => .illegal port

/-- The codeword the decoder's parser stands at (R102). -/
def fetchCode (c : CodeCtx) (s : State) : Fetched :=
  match decodeWire c s.dec.regs.window s.dec.source.left with
  | .ok i => .run i
  | .error _ => .broken c

/-- What the machine takes next: inside a decoder command its codeword, else the host's next action. -/
def fetch (s : State) : Fetched :=
  match s.dec.stage with
  | some c => fetchCode c s
  | none =>
    match s.inputs with
    | [] => .idle
    | .encCmd w _ :: _ => fetchWord .enc s.enc.waiting w
    | .decCmd w _ :: _ => fetchWord .dec s.dec.waiting w
    | .encRst :: _ => .reset .enc
    | .decRst :: _ => .reset .dec
    | .attachSink :: _ => .attachSink
    | .attachSource bytes :: _ => .attachSource bytes

/-- The decoder command inside which a codeword of context `c` is read (R181, R182); none for the padding, which no command
reads. -/
def commandOf : CodeCtx → List Input
  | .header => [.decCmd (encodeCmd .decHeader) []]
  | .first | .ts | .value => [.decCmd (encodeCmd .decPoint) []]
  | .pad => []

/-- The window registers under which a codeword is read: for V-reuse a valid window of its width (R97); else unchanged. -/
def windowFor (i : Instr) (r : Regs) : Regs :=
  match i with
  | .wireVReuse width _ => r.setWindow 0 (BitVec.ofNat 6 (64 - width))
  | _ => r

/-- A source whose unread bits are exactly `b`: zero bits already read bring them to whole bytes. -/
def sourceWith (b : Bits) : Source := ⟨packBytes (zeros (padCount b.length) ++ b), padCount b.length⟩

/-- The state whose next step reads a codeword of context `c` from the bits `b`: they are all that the source has left, and the
parser of a decoder command stands at them. -/
def placeBits (c : CodeCtx) (b : Bits) (s : State) : State :=
  { s with inputs := commandOf c ++ s.inputs, dec := { s.dec with source := sourceWith b, stage := some c } }

/-- The state whose next step takes instruction `i`: a command stands on its port, and its unit is free; a codeword is all
that the source has left, and the parser of a decoder command at it (log 2, log 11). -/
def placeInstr (i : Instr) (s : State) : State :=
  match i.port, i.ctx with
  | some .enc, _ =>
    { s with inputs := .encCmd (encodeCmd i) [] :: s.inputs, enc := { s.enc with waiting := false }
             dec := { s.dec with stage := none } }
  | some .dec, _ =>
    { s with inputs := .decCmd (encodeCmd i) [] :: s.inputs, dec := { s.dec with waiting := false, stage := none } }
  | none, some c => placeBits c (encodeWire i) { s with dec := { s.dec with regs := windowFor i s.dec.regs } }
  | none, none => s

/-- The state whose next step takes the word `w` of `nbits` bits. DESIGN CHOICE (log 2): where the decoder refuses the word, it
is placed as it is, a 128-bit word on the port that opcode bit 7 names (R81), so that the step answers `E_ILLEGAL` (R84), and a
shorter one, which the opcode table reads as a wire word, as bits on the source in the context its number is read in, so that
the step is what the parser does with those bits (R103: `E_BAD_WINDOW` for a V-new with L + S > 64). -/
def placeWord (nbits w : Nat) (s : State) : State :=
  match decodeTableWord nbits w with
  | some i => placeInstr i s
  | none =>
    if nbits ≠ 128 then
      let form := tableForm nbits w
      placeBits form.1 (bin form.2 w) s
    else if (opcOf (BitVec.ofNat 128 w)).getLsbD 7 = false then
      { s with inputs := .encCmd (BitVec.ofNat 128 w) [] :: s.inputs, enc := { s.enc with waiting := false }
               dec := { s.dec with stage := none } }
    else
      { s with inputs := .decCmd (BitVec.ofNat 128 w) [] :: s.inputs
               dec := { s.dec with waiting := false, stage := none } }

end Sys2Proof.Machine
end

