-- ==== Sys2Proof/Machine/Step.lean ====
section
/-! DEFINITION. One step of the machine: the host's next action, whole (70_reset_and_hazards.md R270); or, where a decoder
command is in progress, its next codeword. -/

namespace Sys2Proof.Machine

/-- One step. A command is one step, from the word on the port to the response (R270). -/
def step (s : State) : Host.Outcome State Fault Refusal :=
  match fetch s with
  | .idle => .next s
  | .run i => exec i s
  | .illegal .enc => .next s.encIllegal
  | .illegal .dec => .next s.decIllegal
  | .broken c => .next (s.codeBroken c)
  | .busy .enc => .fault .encBusy
  | .busy .dec => .fault .decBusy
  | .reset .enc => .next s.encReset
  | .reset .dec => .next s.decReset
  | .attachSink => .next s.attachSink
  | .attachSource bytes => .next (s.attachSource bytes)

/-- The word where `step` takes its next instruction: a 128-bit word on the port its opcode names, a shorter one on the
decoder's source (log 2, log 11). -/
def State.withFetchWord (s : State) (nbits w : Nat) : State := placeWord nbits w s

end Sys2Proof.Machine
end

