-- ==== Sys2Proof/Machine/Assembler.lean ====
section
/-! DEFINITION. The command assembly syntax (30_encoding.md R86): one line of text to one command word. It is a tool of the
host's, not hardware; the conversion of `f(<decimal>)` to a pattern is the assembler's (R86, R129). Details that R86 leaves
open are in log 22. -/

namespace Sys2Proof.Machine

/-- The value of a digit in a base. -/
def digitVal (base : Nat) (c : Char) : Option Nat :=
  let n := c.toNat
  let d := if 48 ≤ n ∧ n ≤ 57 then n - 48 else if 97 ≤ n ∧ n ≤ 102 then n - 87 else if 65 ≤ n ∧ n ≤ 70 then n - 55 else 99
  if d < base then some d else none

/-- A non-empty digit string. -/
def parseDigits (base : Nat) : List Char → Option Nat
  | [] => none
  | c :: cs => (c :: cs).foldl (fun acc c => do pure (base * (← acc) + (← digitVal base c))) (some 0)

/-- A decimal or `0x` hexadecimal literal (R86). -/
def parseLiteral : List Char → Option Nat
  | '0' :: 'x' :: cs => parseDigits 16 cs
  | cs => parseDigits 10 cs

/-- `<ts>` (R86): literals joined by `+` and `−`; `cur` is the literal read so far, last character first. -/
def parseExpr (acc : Int) (negative : Bool) (cur : List Char) : List Char → Option Int
  | [] => (parseLiteral cur.reverse).map fun n => if negative then acc - n else acc + n
  | c :: cs =>
    if c = '+' ∨ c = '-' ∨ c = '−' then
      match parseLiteral cur.reverse with
      | none => none
      | some n => parseExpr (if negative then acc - n else acc + n) (c ≠ '+') [] cs
    else parseExpr acc negative (c :: cur) cs

/-- Division rounded to nearest, ties to even. -/
def roundEven (num den : Nat) : Nat :=
  let q := num / den
  let r := num % den
  if 2 * r > den ∨ (2 * r = den ∧ q % 2 = 1) then q + 1 else q

/-- The exponent of the leading bit of `num / den`, both positive. -/
def leadExponent (num den : Nat) : Int :=
  let e : Int := (Nat.log2 num : Int) - Nat.log2 den
  if den * 2 ^ e.toNat ≤ num * 2 ^ (-e).toNat then e else e - 1

/-- The IEEE-754 binary64 pattern of `num / den` without sign, rounded to nearest, ties to even (R86,
93_implementation_defined.md G1). -/
def binary64 (num den : Nat) : Nat :=
  if num = 0 then 0
  else
    let e := max (leadExponent num den) (-1022)
    let shift := 52 - e
    let m := roundEven (num * 2 ^ shift.toNat) (den * 2 ^ (-shift).toNat)
    min ((e + 1022).toNat * 2 ^ 52 + m) 0x7FF0000000000000

/-- An unsigned decimal with an optional fraction: numerator and denominator. -/
def parseDecimal (cs : List Char) : Option (Nat × Nat) :=
  let whole := cs.takeWhile (fun c => c ≠ '.')
  match cs.dropWhile (fun c => c ≠ '.') with
  | [] => (parseDigits 10 whole).map fun n => (n, 1)
  | _ :: frac => do
    let n ← parseDigits 10 whole
    let f ← parseDigits 10 frac
    pure (n * 10 ^ frac.length + f, 10 ^ frac.length)

/-- The pattern of a decimal with an optional sign. -/
def parseFloat (cs : List Char) : Option Value :=
  match cs with
  | '-' :: rest | '−' :: rest =>
    (parseDecimal rest).map fun (n, d) => BitVec.ofNat 64 (2 ^ 63 + binary64 n d)
  | _ => (parseDecimal cs).map fun (n, d) => BitVec.ofNat 64 (binary64 n d)

/-- `<val>` (R86): a 64-bit `0x` literal, or `f(<decimal>)`. -/
def parseValue : List Char → Option Value
  | '0' :: 'x' :: cs =>
    match parseDigits 16 cs with
    | none => none
    | some n => if n < 2 ^ 64 then some (BitVec.ofNat 64 n) else none
  | 'f' :: '(' :: cs => if cs.getLast? = some ')' then parseFloat cs.dropLast else none
  | _ => none

/-- `<reg>` (R86): an index 0..6, or a register name of R34. -/
def parseReg (cs : List Char) : Option (BitVec 3) :=
  if cs = "0".toList ∨ cs = "STATUS".toList then some 0
  else if cs = "1".toList ∨ cs = "hdrTS".toList then some 1
  else if cs = "2".toList ∨ cs = "storedTS".toList then some 2
  else if cs = "3".toList ∨ cs = "storedDelta".toList then some 3
  else if cs = "4".toList ∨ cs = "storedLZ".toList then some 4
  else if cs = "5".toList ∨ cs = "storedTZ".toList then some 5
  else if cs = "6".toList ∨ cs = "storedVal".toList then some 6
  else none

/-- White space of a line. -/
def isBlank (c : Char) : Bool := c = ' ' || c = '\t'

/-- The command a line without comment stands for (R86). -/
def parseCommand (cs : List Char) : Option Instr :=
  let name := cs.takeWhile (fun c => !isBlank c)
  let operand := (cs.dropWhile (fun c => !isBlank c)).filter (fun c => !isBlank c)
  if name = "ENC.HEADER".toList then (parseExpr 0 false [] operand).map fun t => .encHeader (BitVec.ofInt 32 t)
  else if name = "ENC.POINT".toList then
    match operand.dropWhile (fun c => c ≠ ',') with
    | [] => none
    | _ :: val => do
      let t ← parseExpr 0 false [] (operand.takeWhile (fun c => c ≠ ','))
      let v ← parseValue val
      pure (.encPoint (BitVec.ofInt 32 t) v)
  else if name = "ENC.FINISH".toList ∧ operand = [] then some .encFinish
  else if name = "ENC.RDREG".toList then (parseReg operand).map .encRdreg
  else if name = "DEC.HEADER".toList ∧ operand = [] then some .decHeader
  else if name = "DEC.POINT".toList ∧ operand = [] then some .decPoint
  else if name = "DEC.RDREG".toList then (parseReg operand).map .decRdreg
  else none

/-- One line of assembly (R86): `;` starts a comment; a line with nothing else stands for no command; `none` is a line that
is not of the syntax. "The assembler emits the word of rule R80 with every unused field zero." -/
def assembleLine (line : String) : Option (Option Word) :=
  let cs := (line.toList.takeWhile (fun c => c ≠ ';')).dropWhile isBlank
  if cs = [] then some none else (parseCommand cs).map fun i => some (encodeCmd i)

end Sys2Proof.Machine
end

