-- ==== Sys2Proof/Machine/Facade.lean ====
section
/-! DEFINITION. The host's pseudo-programs `MARSHAL` and `UNMARSHAL` (43_facade.md R220 to R222, 30_encoding.md R87): no
hardware, but the words in which round trips are stated. They run the machine by `step` alone. -/

namespace Sys2Proof.Machine

/-- `ST` of a response word (R88). -/
def stOf (w : Word) : BitVec 8 := w.extractLsb' 120 8

/-- `RTS` of a response word (R88). -/
def rtsOf (w : Word) : Time := w.extractLsb' 64 32

/-- `RVAL` of a response word (R88). -/
def rvalOf (w : Word) : Value := w.extractLsb' 0 64

/-- The state after one step, if the step is one. -/
def next? (s : State) : Option State :=
  match step s with
  | .next t => some t
  | .fault _ => none
  | .refused _ => none

/-- The host gives `ENC` a word and takes its response; `none` where none comes (R261, R271). -/
def encCall (w : Word) (answers : List SinkAnswer) (s : State) : Option (State × Word) := do
  let t ← next? { s with inputs := [.encCmd w answers] }
  let r ← (t.enc.responses.drop s.enc.responses.length).head?
  pure (t, r)

/-- The host gives `DEC` a word and takes its response; `none` where none comes. -/
def decCall (w : Word) (answers : List SourceAnswer) (s : State) : Option (State × Word) := do
  let t ← next? { s with inputs := [.decCmd w answers] }
  let r ← (t.dec.responses.drop s.dec.responses.length).head?
  pure (t, r)

/-- The words of `MARSHAL t0, points` (R220). -/
def marshalWords (t0 : Time) (points : List (Time × Value)) : List Word :=
  encodeCmd (.encHeader t0) :: points.map (fun p => encodeCmd (.encPoint p.1 p.2)) ++ [encodeCmd .encFinish]

/-- Give `ENC` these words, word number `n` with the sink's answers `oracle n` (P1), until one responds other than `OK`
(R220). -/
def encCalls (oracle : Nat → List SinkAnswer) : Nat → List Word → State → Option (Except (BitVec 8) State)
  | _, [], s => some (.ok s)
  | n, w :: ws, s =>
    match encCall w (oracle n) s with
    | none => none
    | some (t, r) => if stOf r = Status.ok.code then encCalls oracle (n + 1) ws t else some (.error (stOf r))

/-- `MARSHAL t0, points` (R220): "the sink's bytes after `ENC.FINISH`", or the status it fails with; `none` where a command
never responds. -/
def marshal (oracle : Nat → List SinkAnswer) (t0 : Time) (points : List (Time × Value)) :
    Option (Except (BitVec 8) (List Byte)) :=
  match encCalls oracle 0 (marshalWords t0 points) State.reset with
  | none => none
  | some (.error e) => some (.error e)
  | some (.ok s) => some (.ok s.enc.sink.bytes)

/-- `DEC.POINT` "repeated until a response other than `POINT`" (R221), at most `fuel` times: the points in order and the last
response's status. -/
def decPoints : Nat → State → Option (List (Time × Value) × BitVec 8)
  | 0, _ => none
  | fuel + 1, s =>
    match decCall (encodeCmd .decPoint) [] s with
    | none => none
    | some (t, r) =>
      if stOf r = Status.point.code then
        (decPoints fuel t).map fun rest => ((rtsOf r, rvalOf r) :: rest.1, rest.2)
      else some ([], stOf r)

/-- `UNMARSHAL bytes` (R221): `(t0, points)` if the last response is `END`, else the status it fails with. The loop "ends
after at most `8 × len(bytes)` `DEC.POINT` commands" (R222), and one for no bytes at all (log 23). -/
def unmarshal (bytes : List Byte) : Option (Except (BitVec 8) (Time × List (Time × Value))) :=
  match next? { State.reset with inputs := [.attachSource bytes] } with
  | none => none
  | some s =>
    match decCall (encodeCmd .decHeader) [] s with
    | none => none
    | some (t, h) =>
      match decPoints (8 * bytes.length + 1) t with
      | none => none
      | some (points, st) => if st = Status.endBlock.code then some (.ok (rtsOf h, points)) else some (.error st)

end Sys2Proof.Machine
end

