-- ==== Sys2Proof/Safety.lean ====
section
/-! DEFINITION. The terms in which claims are stated: the environments a claim supposes, the invariants of the registers, the
codeword the encoder has to choose, and what a host owes for a round trip. -/

namespace Sys2Proof.Machine

/-! ### Environments -/

/-- Every sink access of the command at the head of `inputs` is answered `ok`: the default of parameter P1. -/
def SinkOk (s : State) : Prop := ∀ a ∈ s.sinkAnswers, a = SinkAnswer.ok

/-- Every source read of the command at the head of `inputs` is answered. -/
def SourceOk (s : State) : Prop := ∀ a ∈ s.sourceAnswers, a = SourceAnswer.ok

/-- The next action of the host resets `ENC`, between commands or inside one (R260, R261). -/
def State.encResets (s : State) : Bool :=
  match s.inputs with
  | .encRst :: _ => true
  | .encCmd _ answers :: _ => answers.any fun a => match a with
    | .reset _ => true
    | _ => false
  | _ => false

/-- The next action of the host resets `DEC`, between commands or inside one (R260, R261). -/
def State.decResets (s : State) : Bool :=
  match s.inputs with
  | .decRst :: _ => true
  | .decCmd _ answers :: _ => answers.any fun a => a == .reset
  | _ => false

/-- The unit that an action of the host concerns (R65, R260, R262). -/
def Input.unit : Input → Agent
  | .encCmd _ _ | .encRst | .attachSink => .enc
  | .decCmd _ _ | .decRst | .attachSource _ => .dec

/-! ### How a command ends, as a state -/

/-- The state after an encoder command whose registers are `r`, whose sink is `k`, and whose response is `w`: nothing else
is changed (R270). -/
def State.encAfter (s : State) (r : Regs) (k : Sink) (w : Word) : State :=
  { s with enc := { regs := r, sink := k, responses := s.enc.responses ++ [w], waiting := false }, inputs := s.inputs.tail }

/-- The state after a decoder command whose registers are `r`, whose source is `c`, and whose response is `w`: nothing else
is changed but the model's parser stage, which is none between commands (R270). -/
def State.decAfter (s : State) (r : Regs) (c : Source) (w : Word) : State :=
  { s with dec := { regs := r, source := c, responses := s.dec.responses ++ [w], waiting := false, stage := none,
                    freeReads := s.dec.freeReads }
           inputs := s.inputs.tail }

/-- `t` is `s` after a decoder command that ended with `E_TRUNCATED` (R233, R240), its registers being `r` when the short read
came: `ERR` is entered, the response says so, and all else is as before but the read position, which is left open (R55, log
5). -/
def State.TruncatedInto (s : State) (r : Regs) (t : State) : Prop :=
  t.dec.regs = { r with phase := .error, err := 0x11 } ∧
    t.dec.responses = s.dec.responses ++ [responseWord 0x11 0 0] ∧ t.dec.source.bytes = s.dec.source.bytes ∧
    t.dec.waiting = false ∧ t.dec.stage = none ∧ t.enc = s.enc ∧ t.inputs = s.inputs.tail

/-! ### The stream accesses of a command -/

/-- The bits of each sink access of an encoder command, in order: none where the phase does not admit it (R237); else its
`SinkWrite`s (R141, R143, R160; one for each field of a subsequent point that is not empty, R51, log 9), and for `ENC_FINISH`
the flush after them (R52). -/
def State.encAccesses (s : State) : Instr → List Bits
  | .encHeader t0 => if s.enc.regs.phase = .init then [bin 32 t0.toNat] else []
  | .encPoint t v =>
    if s.enc.regs.phase = .opened then
      ((encPointEffect t v s.enc.regs).2.filter fun f => f.width != 0).map Field.bits
    else []
  | .encFinish =>
    if s.enc.regs.phase = .opened then
      let writes := (sentinelFields s.enc.regs).map Field.bits
      writes ++ [zeros (padCount (s.enc.sink.bits ++ writes.flatten).length)]
    else []
  | .encRdreg _ | .decHeader | .decPoint | .decRdreg _ | .wireHeader _ | .wireFirstPoint _ _ | .wireEmptySentinel
  | .wireTs0 | .wireTs7 _ | .wireTs9 _ | .wireTs12 _ | .wireTs32 _ | .wireEndSentinel | .wireVSame | .wireVReuse _ _
  | .wireVNew _ _ _ | .wirePad _ => []

/-! ### Invariants -/

/-- The window invariant of R42. -/
def Regs.WindowInv (r : Regs) : Prop :=
  (r.winValid = true → r.storedLZ.toNat + r.storedTZ.toNat ≤ 63) ∧
    (r.winValid = false → r.storedLZ = 0 ∧ r.storedTZ = 0)

/-- `U.err` is 0 outside `ERR`, and one of these data errors' codes in it (R25, R231, R240). -/
def Regs.ErrInv (codes : List Status) (r : Regs) : Prop :=
  (r.phase ≠ .error → r.err = 0) ∧ (r.phase = .error → ∃ x ∈ codes, r.err = x.code)

/-- In `INIT` every register but `misuse` still has its reset value (R40, R24). -/
def Regs.InitInv (r : Regs) : Prop := r.phase = .init → r = { Regs.reset with misuse := r.misuse }

/-- What every step keeps: the invariants of both units' registers, and that no decoder command is half done (R270). -/
structure State.Inv (s : State) : Prop where
  encWindow : s.enc.regs.WindowInv
  decWindow : s.dec.regs.WindowInv
  encErr : s.enc.regs.ErrInv [.eIO]
  decErr : s.dec.regs.ErrInv [.eTruncated, .eNoWindow, .eBadWindow]
  encInit : s.enc.regs.InitInv
  decInit : s.dec.regs.InitInv
  between : s.dec.stage = none

/-! ### The codewords the encoder has to choose (30_encoding.md R95) -/

/-- The timestamp-control codeword of a delta-of-delta (the table of R95, R96). -/
def tsCodeword (dd : Int) : Instr :=
  if dd = 0 then .wireTs0
  else if -63 ≤ dd ∧ dd ≤ 64 then .wireTs7 (BitVec.ofInt 7 dd)
  else if -255 ≤ dd ∧ dd ≤ 256 then .wireTs9 (BitVec.ofInt 9 dd)
  else if -2047 ≤ dd ∧ dd ≤ 2048 then .wireTs12 (BitVec.ofInt 12 dd)
  else .wireTs32 (BitVec.ofInt 32 dd)

/-- The value-control codeword of a value under the registers before it (the table of R95, R97, R98, R154). -/
def valueCodeword (r : Regs) (v : Value) : Instr :=
  let x := v ^^^ r.storedVal
  let lz := min (clz64 x) 31
  let tz := ctz64 x
  if x = 0 then .wireVSame
  else if r.winValid = true ∧ r.storedLZ.toNat ≤ lz ∧ r.storedTZ.toNat ≤ tz then
    .wireVReuse (64 - r.storedLZ.toNat - r.storedTZ.toNat) (x >>> r.storedTZ.toNat)
  else .wireVNew (BitVec.ofNat 5 lz) (BitVec.ofNat 6 (64 - lz - tz)) (x >>> tz)

/-- The registers after a subsequent point (R146, R151, R156). -/
def pointRegs (t : Time) (v : Value) (r : Regs) : Regs :=
  let r' := { r with storedTS := t, storedDelta := t - r.storedTS, storedVal := v }
  match valueCodeword r v with
  | .wireVNew l m _ => { r' with storedLZ := l, storedTZ := BitVec.ofNat 6 (64 - l.toNat - sigCount m), winValid := true }
  | _ => r'

/-- What two units' codec registers agree in, in the invariant of R199. -/
def CodecEq (e d : Regs) : Prop :=
  e.hdrTS = d.hdrTS ∧ e.storedTS = d.storedTS ∧ e.storedDelta = d.storedDelta ∧ e.winValid = d.winValid ∧
    e.storedLZ = d.storedLZ ∧ e.storedTZ = d.storedTZ ∧ e.storedVal = d.storedVal

/-! ### What the host owes (70_reset_and_hazards.md R269) -/

/-- "every point taken on the first path must have `u32(ts − t0) ≤ 16382`" (R269). `prev` is `storedTS` before the points. -/
def firstPathOk (t0 : Time) : Time → List (Time × Value) → Bool
  | _, [] => true
  | prev, p :: ps => (prev != 0 || decide ((p.1 - t0).toNat ≤ 16382)) && firstPathOk t0 p.1 ps

end Sys2Proof.Machine
end

