-- ==== Sys2Proof/Certificates/Slice0/Obligations.lean ====
section
/-! DEFINITION. The statements for the provers, each a `Prop` about the machine as spec/ gives it. -/

open Sys2Proof Sys2Proof.Machine

/-! ### Encodings -/

/-- Words of the programs PG1, PG2 and PG6 (95_test_vectors.md section 3) and codewords of vectors V1 and T6 decode to the
instructions they are written for; two illegal words of PG6 decode to none. -/
def Obligations.WrittenWordsDecode : Prop :=
  decodeCmd .enc 0x010000005510c5200000000000000000 = .ok (.encHeader 1427162400) ∧
  decodeCmd .enc 0x020000005510c55e4028000000000000 = .ok (.encPoint 1427162462 0x4028000000000000) ∧
  decodeCmd .enc 0x03000000000000000000000000000000 = .ok .encFinish ∧
  decodeCmd .dec 0x82000000000000000000000000000000 = .ok .decPoint ∧
  decodeCmd .dec 0x84000000000000060000000000000000 = .ok (.decRdreg 6) ∧
  decodeCmd .enc 0x01000000000003e80000000000000001 = .error .unusedNotZero ∧
  decodeCmd .enc 0x82000000000000000000000000000000 = .error .otherPort ∧
  decodeWire .ts none [true, false, true, true, true, true, true, true, false] = .ok (.wireTs7 126) ∧
  decodeWire .ts none [true, true, false, false, false, true, false, false, false, false, false, true]
    = .ok (.wireTs9 65) ∧
  decodeWire .value none [true, true, false, true, false, true, true, false, false, false, false, false, true, true]
    = .ok (.wireVNew 11 1 1)

/-- Every well-formed command is read back from its word on its own port, with every operand at every value (R80 to R83). -/
def Obligations.EncodedCommandDecodes : Prop :=
  ∀ (i : Instr) (port : Agent), i.port = some port → i.wf = true → decodeCmd port (encodeCmd i) = .ok i

/-- A word that is legal on a port is the one word of its command: no bit of it is ignored (R82, R85). -/
def Obligations.DecodedCommandEncodes : Prop :=
  ∀ (port : Agent) (w : Word) (i : Instr),
    decodeCmd port w = .ok i → i.port = some port ∧ i.wf = true ∧ encodeCmd i = w

/-- R84 and R238: which words are illegal on a port, and what an illegal word does, in every phase. -/
def Obligations.IllegalWordsOnlySetMisuse : Prop :=
  (∀ (port : Agent) (w : Word), (∃ i, decodeCmd port w = .ok i) ↔ legalCmd port w = true) ∧
  (∀ w : Word, (opcOf w = 0x00 ∨ (0x05 ≤ opcOf w ∧ opcOf w ≤ 0x80) ∨ opcOf w = 0x83 ∨ 0x85 ≤ opcOf w) →
    legalCmd .enc w = false ∧ legalCmd .dec w = false) ∧
  (∀ w : Word, (opcOf w = 0x81 ∨ opcOf w = 0x82 ∨ opcOf w = 0x84) → legalCmd .enc w = false) ∧
  (∀ w : Word, (opcOf w = 0x01 ∨ opcOf w = 0x02 ∨ opcOf w = 0x03 ∨ opcOf w = 0x04) → legalCmd .dec w = false) ∧
  (∀ (s : State) (w : Word) (answers : List SinkAnswer) (rest : List Input),
    s.inputs = .encCmd w answers :: rest → s.dec.stage = none → s.enc.waiting = false → SinkOk s →
    legalCmd .enc w = false →
    step s = .next (s.encAfter { s.enc.regs with misuse := true } s.enc.sink (responseWord 0x21 0 0))) ∧
  (∀ (s : State) (w : Word) (answers : List SourceAnswer) (rest : List Input),
    s.inputs = .decCmd w answers :: rest → s.dec.stage = none → s.dec.waiting = false → SourceOk s →
    legalCmd .dec w = false →
    step s = .next (s.decAfter { s.dec.regs with misuse := true } s.dec.source (responseWord 0x21 0 0)))

/-- Every well-formed codeword is read back from the head of a bit string, in its context of the grammar, with every operand
at every value (R92 to R102); V-reuse under a window of its width; the padding where nothing follows it. -/
def Obligations.EncodedCodewordDecodes : Prop :=
  ∀ (i : Instr) (c : CodeCtx) (window : Option Nat) (rest : Bits),
    i.ctx = some c → i.wf = true → (∀ n x, i = .wireVReuse n x → window = some n) → (c = .pad → rest = []) →
    decodeWire c window (encodeWire i ++ rest) = .ok i

/-- A codeword the decoder recognises is well-formed, belongs to the context, and the bits it was read from are its own. -/
def Obligations.DecodedCodewordEncodes : Prop :=
  ∀ (c : CodeCtx) (window : Option Nat) (b : Bits) (i : Instr),
    (∀ n, window = some n → 1 ≤ n ∧ n ≤ 64) → decodeWire c window b = .ok i →
    i.ctx = some c ∧ i.wf = true ∧ b.take i.readLen = (encodeWire i).take i.readLen ∧ (c = .pad → encodeWire i = b)

/-- The five timestamp prefixes are a complete prefix code: whatever the bits, 36 of them begin with a timestamp codeword
or the end sentinel, so that no prefix is malformed (90_conflicts.md C2, 42_decoder.md section 3). -/
def Obligations.EveryTimestampPrefixIsRead : Prop :=
  ∀ (window : Option Nat) (b : Bits), 36 ≤ b.length → ∃ i, decodeWire .ts window b = .ok i

/-! ### The pure functions -/

/-- R120 and R121: both zero counts, by the highest and the lowest set bit, with the corner cases and examples. -/
def Obligations.ZeroCountsFindTheSetBits : Prop :=
  clz64 0 = 64 ∧ clz64 1 = 63 ∧ clz64 0x8000000000000000 = 0 ∧ clz64 0x0010000000000000 = 11 ∧
  ctz64 0 = 64 ∧ ctz64 1 = 0 ∧ ctz64 0x8000000000000000 = 63 ∧ ctz64 0x0010000000000000 = 52 ∧
  (∀ v : Value, clz64 v ≤ 64 ∧ ctz64 v ≤ 64) ∧
  (∀ v : Value, v ≠ 0 → ∃ hi lo, hi < 64 ∧ lo ≤ hi ∧
    v.getLsbD hi = true ∧ (∀ j, hi < j → v.getLsbD j = false) ∧ clz64 v = 63 - hi ∧
    v.getLsbD lo = true ∧ (∀ j, j < lo → v.getLsbD j = false) ∧ ctz64 v = lo)

/-- R126: the signed fields round-trip, the bounds of each bucket among them, each in its own bucket. -/
def Obligations.SignedFieldsRoundTrip : Prop :=
  (∀ x : Int, -63 ≤ x → x ≤ 64 → sdec 7 (senc 7 x) = x) ∧
  (∀ x : Int, -255 ≤ x → x ≤ 256 → sdec 9 (senc 9 x) = x) ∧
  (∀ x : Int, -2047 ≤ x → x ≤ 2048 → sdec 12 (senc 12 x) = x) ∧
  (∀ x : Int, -2 ^ 31 ≤ x → x < 2 ^ 31 → BitVec.ofInt 32 (sdec 32 (senc 32 x)) = BitVec.ofInt 32 x) ∧
  (bucket (-63)).width = 7 ∧ (bucket 64).width = 7 ∧ (bucket (-255)).width = 9 ∧ (bucket 256).width = 9 ∧
  (bucket (-2047)).width = 12 ∧ (bucket 2048).width = 12

/-- R149: the bucket boundaries; and the TS-32 payload of an `s32` delta-of-delta is never the end marker. -/
def Obligations.BucketBoundaries : Prop :=
  (bucket 64).width = 7 ∧ (bucket (-63)).width = 7 ∧ (bucket 65).width = 9 ∧ (bucket (-64)).width = 9 ∧
  (bucket 256).width = 9 ∧ (bucket (-255)).width = 9 ∧ (bucket 257).width = 12 ∧ (bucket (-256)).width = 12 ∧
  (bucket 2048).width = 12 ∧ (bucket (-2047)).width = 12 ∧ (bucket 2049).width = 32 ∧ (bucket (-2048)).width = 32 ∧
  (∀ dd : Int, -2 ^ 31 ≤ dd → dd < 2 ^ 31 → (bucket dd).width = 32 → senc 32 dd ≠ 0xFFFFFFFF)

/-- The selector's prefix and payload (41_encoder.md section 3) are the bits of the codeword in the wire table
(30_encoding.md section 4). -/
def Obligations.SelectorEmitsTheTablesCodeword : Prop :=
  ∀ dd : Int, -2 ^ 31 ≤ dd → dd < 2 ^ 31 →
    (bucket dd).prefixBits ++ bin (bucket dd).width (senc (bucket dd).width dd) = encodeWire (tsCodeword dd)

/-- The encoder emits only well-formed codewords: no TS-32 end marker, 1 to 64 significant bits that fit their field, and
L + S at most 64 (41_encoder.md section 3). -/
def Obligations.EncoderCodewordsAreWellFormed : Prop :=
  ∀ (r : Regs) (t : Time) (v : Value),
    (tsCodeword (t - r.storedTS - r.storedDelta).toInt).wf = true ∧ (valueCodeword r v).wf = true

/-! ### The streams -/

/-- R56: bit 8k+j of the source is bit 7−j of byte k, and unpacking is the inverse of the packing of R53. -/
def Obligations.UnpackingInvertsPacking : Prop :=
  (∀ (bytes : List Byte) (k j : Nat), j ≤ 7 → k < bytes.length →
    (unpackBytes bytes)[8 * k + j]? = (bytes[k]?).map fun y => y.getLsbD (7 - j)) ∧
  (∀ b : Bits, b.length % 8 = 0 → unpackBytes (packBytes b) = b) ∧
  (∀ bytes : List Byte, packBytes (unpackBytes bytes) = bytes)

/-- R55: a `SourceRead(n)` that the source answers. With `n` bits left the command goes on with the number whose binary
digits they are, and the position moves by `n`; else it ends with `E_TRUNCATED` and no value, the position being whatever it
is. -/
def Obligations.SourceReadTakesOrTruncates : Prop :=
  ∀ (n : Nat) (r : DecRun) (k : Nat → DecRun → DecResult), 1 ≤ n → n ≤ 64 →
    (∀ a ∈ r.answers, a = SourceAnswer.ok) →
    (r.source.rpos + n ≤ r.source.bits.length →
      ∃ v, v < 2 ^ n ∧
        (∀ j, j < n → r.source.bits[r.source.rpos + j]? = some (v.testBit (n - 1 - j))) ∧
        sourceRead n r k
          = k v { r with source := { r.source with rpos := r.source.rpos + n }, answers := r.answers.tail }) ∧
    (r.source.bits.length < r.source.rpos + n →
      ∃ p, sourceRead n r k
        = .respond 0x11 0 0
            { regs := { r.regs with phase := .error, err := 0x11 }, source := { r.source with rpos := p },
              answers := r.answers.tail, freeReads := r.freeReads + 1 })

/-! ### The encoder's commands -/

/-- R141: `ENC_HEADER`, its word, its result, its errors and its example. -/
def Obligations.EncHeaderWritesT0 : Prop :=
  (∀ t0 : Time, decodeCmd .enc (cmdWord 0x01 t0 0) = .ok (.encHeader t0)) ∧
  (∀ (s : State) (t0 : Time), s.enc.regs.phase = .init → SinkOk s →
    exec (.encHeader t0) s
      = .next (s.encAfter { s.enc.regs with hdrTS := t0, phase := .opened }
          { s.enc.sink with bits := s.enc.sink.bits ++ bin 32 t0.toNat } (responseWord 0x00 0 0))) ∧
  (∀ (s : State) (t0 : Time) (left : Bits) (fl : Bool) (rest : List SinkAnswer),
    s.enc.regs.phase = .init → s.sinkAnswers = .fail left fl :: rest → (∀ a ∈ rest, a = SinkAnswer.ok) →
    exec (.encHeader t0) s
      = .next (s.encAfter { s.enc.regs with hdrTS := t0, phase := .error, err := 0x10 } ⟨left, fl⟩
          (responseWord 0x10 0 0))) ∧
  (∀ (s : State) (t0 : Time), s.enc.regs.phase = .opened ∨ s.enc.regs.phase = .finished → SinkOk s →
    exec (.encHeader t0) s
      = .next (s.encAfter { s.enc.regs with misuse := true } s.enc.sink (responseWord 0x20 0 0))) ∧
  (∀ (w : Word) (i : Instr), opcOf w = 0x01 → valOf w ≠ 0 ∨ rsvOf w ≠ 0 → decodeCmd .enc w ≠ .ok i) ∧
  packBytes (bin 32 1427162400) = [0x55, 0x10, 0xc5, 0x20]

/-- R143: `ENC_POINT` on the first path. -/
def Obligations.EncPointFirstPath : Prop :=
  ∀ (s : State) (t : Time) (v : Value), s.enc.regs.phase = .opened → s.enc.regs.storedTS = 0 → SinkOk s →
    exec (.encPoint t v) s
      = .next (s.encAfter
          { s.enc.regs with storedTS := t, storedDelta := t - s.enc.regs.hdrTS, storedVal := v }
          { s.enc.sink with bits := s.enc.sink.bits ++ (bin 14 (t - s.enc.regs.hdrTS).toNat ++ bin 64 v.toNat) }
          (responseWord 0x00 0 0))

/-- R146, R148, R151, R152, R154, R156: `ENC_POINT` on the subsequent path appends the bucket's prefix and payload, then the
value codeword of the window test, and updates the registers; `pointRegs` and `valueCodeword` spell the rules out. -/
def Obligations.EncPointSubsequentPath : Prop :=
  ∀ (s : State) (t : Time) (v : Value), s.enc.regs.phase = .opened → s.enc.regs.storedTS ≠ 0 → SinkOk s →
    let dd := (t - s.enc.regs.storedTS - s.enc.regs.storedDelta).toInt
    let n := (bucket dd).width
    exec (.encPoint t v) s
      = .next (s.encAfter (pointRegs t v s.enc.regs)
          { s.enc.sink with
            bits := s.enc.sink.bits ++
              ((bucket dd).prefixBits ++ bin n (senc n dd) ++ encodeWire (valueCodeword s.enc.regs v)) }
          (responseWord 0x00 0 0))

/-- Whichever sink access of an `ENC_POINT` fails, the registers hold what the whole command writes, and `E_IO` only adds `ERR`
and its code; the sink is what that answer says (41_encoder.md section 3, 60_exceptions.md section 2). The first path makes two
accesses; how many a subsequent point makes, never fewer than two, is the model's cut of `SinkPut` (log 9). -/
def Obligations.EncPointCommitsBeforeWriting : Prop :=
  ∀ (s : State) (t : Time) (v : Value), s.enc.regs.phase = .opened →
    let whole := if s.enc.regs.storedTS = 0 then
        { s.enc.regs with storedTS := t, storedDelta := t - s.enc.regs.hdrTS, storedVal := v }
      else pointRegs t v s.enc.regs
    let accesses := s.encAccesses (.encPoint t v)
    2 ≤ accesses.length ∧ (s.enc.regs.storedTS = 0 → accesses.length = 2) ∧
    (SinkOk s →
      exec (.encPoint t v) s
        = .next (s.encAfter whole { s.enc.sink with bits := s.enc.sink.bits ++ accesses.flatten }
            (responseWord 0x00 0 0))) ∧
    (∀ (n : Nat) (left : Bits) (fl : Bool) (rest : List SinkAnswer), n < accesses.length →
      s.sinkAnswers = List.replicate n .ok ++ .fail left fl :: rest → (∀ kept more, rest ≠ .reset kept :: more) →
      exec (.encPoint t v) s
        = .next (s.encAfter { whole with phase := .error, err := 0x10 } ⟨left, fl⟩ (responseWord 0x10 0 0)))

/-- R160, R161, R162: `ENC_FINISH`, its word, its sentinels and its flush, its errors, the refusals after it and its
example. -/
def Obligations.EncFinishWritesTheSentinel : Prop :=
  (∀ w : Word, decodeCmd .enc w = .ok .encFinish ↔ w = cmdWord 0x03 0 0) ∧
  (∀ s : State, s.enc.regs.phase = .opened → SinkOk s →
    let sentinel := if s.enc.regs.storedTS = 0 then bin 14 0x3FFF ++ zeros 64 else bin 4 0xF ++ bin 32 0xFFFFFFFF ++ [false]
    ∃ k, k < 8 ∧ (s.enc.sink.bits ++ sentinel ++ zeros k).length % 8 = 0 ∧
      exec .encFinish s
        = .next (s.encAfter { s.enc.regs with phase := .finished } ⟨s.enc.sink.bits ++ sentinel ++ zeros k, true⟩
            (responseWord 0x00 0 0))) ∧
  (∀ (s : State) (n : Nat) (left : Bits) (fl : Bool) (rest : List SinkAnswer), s.enc.regs.phase = .opened →
    n < (if s.enc.regs.storedTS = 0 then 3 else 4) →
    s.sinkAnswers = List.replicate n .ok ++ .fail left fl :: rest → (∀ a ∈ rest, a = SinkAnswer.ok) →
    exec .encFinish s
      = .next (s.encAfter { s.enc.regs with phase := .error, err := 0x10 } ⟨left, fl⟩ (responseWord 0x10 0 0))) ∧
  (∀ s : State, s.enc.regs.phase = .init ∨ s.enc.regs.phase = .finished → SinkOk s →
    exec .encFinish s
      = .next (s.encAfter { s.enc.regs with misuse := true } s.enc.sink (responseWord 0x20 0 0))) ∧
  (∀ (s : State) (i : Instr), s.enc.regs.phase = .finished → SinkOk s → i.port = some .enc →
    (∀ idx, i ≠ .encRdreg idx) →
    exec i s = .next (s.encAfter { s.enc.regs with misuse := true } s.enc.sink (responseWord 0x20 0 0))) ∧
  packBytes (bin 32 1427162400 ++ (bin 14 0x3FFF ++ zeros 64) ++ zeros 2)
    = [0x55, 0x10, 0xc5, 0x20, 0xff, 0xfc, 0, 0, 0, 0, 0, 0, 0, 0]

/-- R33: the `STATUS` view, bit by bit; with it the register map of 10_state.md section 4, and its words after reset. -/
def Obligations.RegisterMapAndStatusLayout : Prop :=
  (∀ r : Regs,
    (statusWord r).extractLsb' 0 2 = (match r.phase with | .init => 0 | .opened => 1 | .finished => 2 | .error => 3) ∧
    (statusWord r).getLsbD 2 = r.winValid ∧ (statusWord r).getLsbD 3 = r.misuse ∧
    (statusWord r).extractLsb' 4 4 = 0 ∧ (statusWord r).extractLsb' 8 8 = r.err ∧
    (statusWord r).extractLsb' 16 48 = 0) ∧
  (∀ r : Regs,
    readReg r 0 = statusWord r ∧ readReg r 1 = r.hdrTS.setWidth 64 ∧ readReg r 2 = r.storedTS.setWidth 64 ∧
    readReg r 3 = r.storedDelta.setWidth 64 ∧ readReg r 4 = r.storedLZ.setWidth 64 ∧
    readReg r 5 = r.storedTZ.setWidth 64 ∧ readReg r 6 = r.storedVal) ∧
  (∀ idx : BitVec 3, readReg Regs.reset idx = 0)

/-- `ENC_RDREG` (41_encoder.md section 5), its word; in any phase it responds `OK` with the register and changes nothing; index 7
and any unused bit that is not zero are illegal; `STATUS` after a data error; and its example. That exec of the ill-formed term
with index 7, which no legal word decodes to, also answers `E_ILLEGAL` is the model's choice (log 18). -/
def Obligations.EncRdregReturnsTheRegister : Prop :=
  (∀ idx : BitVec 3, idx ≠ 7 → decodeCmd .enc (cmdWord 0x04 (idx.setWidth 32) 0) = .ok (.encRdreg idx)) ∧
  (∀ (s : State) (idx : BitVec 3), idx ≠ 7 → SinkOk s →
    exec (.encRdreg idx) s
      = .next (s.encAfter s.enc.regs s.enc.sink (responseWord 0x00 0 (readReg s.enc.regs idx)))) ∧
  (∀ s : State, SinkOk s →
    exec (.encRdreg 7) s
      = .next (s.encAfter { s.enc.regs with misuse := true } s.enc.sink (responseWord 0x21 0 0))) ∧
  (∀ (w : Word) (i : Instr), opcOf w = 0x04 →
    (tsOf w).extractLsb' 0 3 = 7 ∨ (tsOf w).extractLsb' 3 29 ≠ 0 ∨ valOf w ≠ 0 ∨ rsvOf w ≠ 0 →
    decodeCmd .enc w ≠ .ok i) ∧
  (∀ r : Regs, readReg r 0 = statusWord r ∧ readReg r 1 = r.hdrTS.setWidth 64 ∧
    readReg r 2 = r.storedTS.setWidth 64 ∧ readReg r 3 = r.storedDelta.setWidth 64 ∧
    readReg r 4 = r.storedLZ.setWidth 64 ∧ readReg r 5 = r.storedTZ.setWidth 64 ∧ readReg r 6 = r.storedVal) ∧
  (∀ (r : Regs) (x : Status), (statusWord (r.enterError x)).extractLsb' 0 2 = 3 ∧
    (statusWord (r.enterError x)).extractLsb' 8 8 = x.code) ∧
  exec (.encRdreg 0) State.reset
    = .next (State.reset.encAfter State.reset.enc.regs State.reset.enc.sink (responseWord 0x00 0 0))

/-- `DEC_RDREG` (42_decoder.md section 4): the same for the decoder. That exec of the ill-formed term with index 7, which no
legal word decodes to, answers `E_ILLEGAL` is the model's choice (log 18). -/
def Obligations.DecRdregReturnsTheRegister : Prop :=
  (∀ (s : State) (idx : BitVec 3), idx ≠ 7 → SourceOk s →
    exec (.decRdreg idx) s
      = .next (s.decAfter s.dec.regs s.dec.source (responseWord 0x00 0 (readReg s.dec.regs idx)))) ∧
  (∀ s : State, SourceOk s →
    exec (.decRdreg 7) s
      = .next (s.decAfter { s.dec.regs with misuse := true } s.dec.source (responseWord 0x21 0 0))) ∧
  (∀ (w : Word) (i : Instr), opcOf w = 0x84 →
    (tsOf w).extractLsb' 0 3 = 7 ∨ (tsOf w).extractLsb' 3 29 ≠ 0 ∨ valOf w ≠ 0 ∨ rsvOf w ≠ 0 →
    decodeCmd .dec w ≠ .ok i)

/-- R237: every command and phase of the table of `E_MISUSE`; in `ERR` the stored data error instead; `RDREG` never. -/
def Obligations.WrongPhaseOnlySetsMisuse : Prop :=
  (∀ (s : State) (i : Instr), SinkOk s →
    ((∃ t0, i = .encHeader t0) ∧ (s.enc.regs.phase = .opened ∨ s.enc.regs.phase = .finished)) ∨
      ((i = .encFinish ∨ ∃ t v, i = .encPoint t v) ∧ (s.enc.regs.phase = .init ∨ s.enc.regs.phase = .finished)) →
    exec i s = .next (s.encAfter { s.enc.regs with misuse := true } s.enc.sink (responseWord 0x20 0 0))) ∧
  (∀ (s : State) (i : Instr), SourceOk s →
    (i = .decHeader ∧ (s.dec.regs.phase = .opened ∨ s.dec.regs.phase = .finished)) ∨
      (i = .decPoint ∧ (s.dec.regs.phase = .init ∨ s.dec.regs.phase = .finished)) →
    exec i s = .next (s.decAfter { s.dec.regs with misuse := true } s.dec.source (responseWord 0x20 0 0))) ∧
  (∀ (s : State) (i : Instr), SinkOk s → s.enc.regs.phase = .error →
    (i = .encFinish ∨ (∃ t0, i = .encHeader t0) ∨ ∃ t v, i = .encPoint t v) →
    exec i s = .next (s.encAfter s.enc.regs s.enc.sink (responseWord s.enc.regs.err 0 0))) ∧
  (∀ (s : State) (i : Instr), SourceOk s → s.dec.regs.phase = .error → (i = .decHeader ∨ i = .decPoint) →
    exec i s = .next (s.decAfter s.dec.regs s.dec.source (responseWord s.dec.regs.err 0 0))) ∧
  (∀ (s : State) (idx : BitVec 3), idx ≠ 7 →
    (SinkOk s → ∃ v, exec (.encRdreg idx) s = .next (s.encAfter s.enc.regs s.enc.sink (responseWord 0x00 0 v))) ∧
    (SourceOk s → ∃ v, exec (.decRdreg idx) s = .next (s.decAfter s.dec.regs s.dec.source (responseWord 0x00 0 v))))

/-! ### The decoder's commands -/

/-- R181: `DEC_HEADER`, its word, its result, its errors and its example. -/
def Obligations.DecHeaderReadsT0 : Prop :=
  (∀ w : Word, decodeCmd .dec w = .ok .decHeader ↔ w = cmdWord 0x81 0 0) ∧
  (∀ (s : State) (t0 : Time) (rest : Bits), s.dec.regs.phase = .init → SourceOk s →
    s.dec.source.left = bin 32 t0.toNat ++ rest →
    exec .decHeader s
      = .next (s.decAfter { s.dec.regs with hdrTS := t0, phase := .opened }
          { s.dec.source with rpos := s.dec.source.rpos + 32 } (responseWord 0x00 t0 0))) ∧
  (∀ s : State, s.dec.regs.phase = .init → SourceOk s → s.dec.source.bits.length < s.dec.source.rpos + 32 →
    ∃ t, exec .decHeader s = .next t ∧ t.dec.regs = { s.dec.regs with phase := .error, err := 0x11 } ∧
      t.dec.responses = s.dec.responses ++ [responseWord 0x11 0 0] ∧ t.dec.source.bytes = s.dec.source.bytes ∧
      t.enc = s.enc ∧ t.inputs = s.inputs.tail) ∧
  (∀ s : State, s.dec.regs.phase = .opened ∨ s.dec.regs.phase = .finished → SourceOk s →
    exec .decHeader s
      = .next (s.decAfter { s.dec.regs with misuse := true } s.dec.source (responseWord 0x20 0 0))) ∧
  (∀ (w : Word) (i : Instr), opcOf w = 0x81 → tsOf w ≠ 0 ∨ valOf w ≠ 0 ∨ rsvOf w ≠ 0 → decodeCmd .dec w ≠ .ok i) ∧
  (∀ bytes : List Byte, ∃ rest, (Source.mk (0x55 :: 0x10 :: 0xc5 :: 0x20 :: bytes) 0).left = bin 32 1427162400 ++ rest)

/-- R183 and R184: `DEC_POINT` on the first path: a point, or the end of the block from the 14 one bits alone, whatever
follows them. -/
def Obligations.DecPointFirstPath : Prop :=
  (∀ (s : State) (d : BitVec 14) (v : Value) (rest : Bits), s.dec.regs.phase = .opened → s.dec.regs.storedTS = 0 →
    SourceOk s → d ≠ 0x3FFF → s.dec.source.left = bin 14 d.toNat ++ bin 64 v.toNat ++ rest →
    exec .decPoint s
      = .next (s.decAfter
          { s.dec.regs with storedDelta := d.setWidth 32, storedTS := s.dec.regs.hdrTS + d.setWidth 32, storedVal := v }
          { s.dec.source with rpos := s.dec.source.rpos + 78 }
          (responseWord 0x01 (s.dec.regs.hdrTS + d.setWidth 32) v))) ∧
  (∀ (s : State) (rest : Bits), s.dec.regs.phase = .opened → s.dec.regs.storedTS = 0 → SourceOk s →
    s.dec.source.left = ones 14 ++ rest →
    exec .decPoint s
      = .next (s.decAfter { s.dec.regs with phase := .finished }
          { s.dec.source with rpos := s.dec.source.rpos + 14 } (responseWord 0x02 0 0)))

/-- `DEC_POINT`, written over single reads, does what the codewords on its source mean: the first-path codeword; the end
sentinel, of which 36 bits are enough; or a timestamp codeword and then a value codeword (42_decoder.md section 3). -/
def Obligations.DecPointRunsTheCodewords : Prop :=
  (∀ (s : State) (i : Instr) (rest : Bits), s.dec.regs.phase = .opened → s.dec.regs.storedTS = 0 → SourceOk s →
    i.ctx = some .first → i.wf = true → s.dec.source.left = (encodeWire i).take i.readLen ++ rest →
    ∃ t, exec i s = .next t ∧ exec .decPoint s = .next t) ∧
  (∀ (s : State) (rest : Bits), s.dec.regs.phase = .opened → s.dec.regs.storedTS ≠ 0 → SourceOk s →
    s.dec.source.left = ones 36 ++ rest →
    ∃ t, exec .wireEndSentinel s = .next t ∧ exec .decPoint s = .next t) ∧
  (∀ (s : State) (i j : Instr) (rest : Bits), s.dec.regs.phase = .opened → s.dec.regs.storedTS ≠ 0 → SourceOk s →
    i.ctx = some .ts → i ≠ .wireEndSentinel → i.wf = true → j.ctx = some .value → j.wf = true →
    (∀ n x, j = .wireVReuse n x → s.dec.regs.winValid = true ∧ n = s.dec.regs.reuseWidth) →
    s.dec.source.left = encodeWire i ++ encodeWire j ++ rest →
    ∃ t₁ t₂, exec i s = .next t₁ ∧ exec j t₁ = .next t₂ ∧ exec .decPoint s = .next t₂)

/-- R235 and R236: the two window errors of a `DEC_POINT`, after the timestamp codeword has had its effect; the window
registers and `storedVal` are as before, and nothing more is read. -/
def Obligations.DecPointWindowErrors : Prop :=
  ∀ (s t : State) (i : Instr) (rest : Bits), s.dec.regs.phase = .opened → s.dec.regs.storedTS ≠ 0 → SourceOk s →
    i.ctx = some .ts → i ≠ .wireEndSentinel → i.wf = true → exec i s = .next t →
    (s.dec.regs.winValid = false → s.dec.source.left = encodeWire i ++ [true, false] ++ rest →
      exec .decPoint s
        = .next (s.decAfter
            { s.dec.regs with
              storedTS := t.dec.regs.storedTS, storedDelta := t.dec.regs.storedDelta, phase := .error, err := 0x13 }
            { s.dec.source with rpos := s.dec.source.rpos + i.readLen + 2 } (responseWord 0x13 0 0))) ∧
    (∀ (l : BitVec 5) (m : BitVec 6), l.toNat + (if m = 0 then 64 else m.toNat) > 64 →
      s.dec.source.left = encodeWire i ++ [true, true] ++ bin 5 l.toNat ++ bin 6 m.toNat ++ rest →
      exec .decPoint s
        = .next (s.decAfter
            { s.dec.regs with
              storedTS := t.dec.regs.storedTS, storedDelta := t.dec.regs.storedDelta, phase := .error, err := 0x14 }
            { s.dec.source with rpos := s.dec.source.rpos + i.readLen + 13 } (responseWord 0x14 0 0)))

/-- A short read anywhere in a `DEC_POINT` leaves exactly the writes made before it (42_decoder.md section 3): inside a
timestamp codeword or the 14-bit first delta, none; inside the first value, none; inside a value codeword, the new `storedTS`
and `storedDelta`, and the new window where its 13 control and field bits were read, with the old `storedVal`. -/
def Obligations.ShortReadKeepsTheWritesBefore : Prop :=
  (∀ (s t : State) (i j : Instr) (part missing : Bits), s.dec.regs.phase = .opened → s.dec.regs.storedTS ≠ 0 →
    SourceOk s → i.ctx = some .ts → i ≠ .wireEndSentinel → i.wf = true → j.ctx = some .value → j.wf = true →
    (∀ n x, j = .wireVReuse n x → s.dec.regs.winValid = true ∧ n = s.dec.regs.reuseWidth) →
    exec i s = .next t → encodeWire j = part ++ missing → missing ≠ [] → s.dec.source.left = encodeWire i ++ part →
    let moved := { s.dec.regs with storedTS := t.dec.regs.storedTS, storedDelta := t.dec.regs.storedDelta }
    let written := match j with
      | .wireVNew l m _ =>
        if 13 ≤ part.length then
          { moved with storedLZ := l, storedTZ := BitVec.ofNat 6 (64 - l.toNat - sigCount m), winValid := true }
        else moved
      | _ => moved
    ∃ t', exec .decPoint s = .next t' ∧ s.TruncatedInto written t') ∧
  (∀ (s : State) (i : Instr) (n : Nat), s.dec.regs.phase = .opened → s.dec.regs.storedTS ≠ 0 → SourceOk s →
    i.ctx = some .ts → n < i.readLen → s.dec.source.left = (encodeWire i).take n →
    ∃ t', exec .decPoint s = .next t' ∧ s.TruncatedInto s.dec.regs t') ∧
  (∀ s : State, s.dec.regs.phase = .opened → s.dec.regs.storedTS = 0 → SourceOk s → s.dec.source.left.length < 14 →
    ∃ t', exec .decPoint s = .next t' ∧ s.TruncatedInto s.dec.regs t') ∧
  (∀ (s : State) (d : BitVec 14) (part : Bits), s.dec.regs.phase = .opened → s.dec.regs.storedTS = 0 → SourceOk s →
    d ≠ 0x3FFF → part.length < 64 → s.dec.source.left = bin 14 d.toNat ++ part →
    ∃ t', exec .decPoint s = .next t' ∧ s.TruncatedInto s.dec.regs t')

/-! ### The codewords -/

/-- The header, the first-point codeword and the two sentinels as the decoder takes them: result, response, and the bits
consumed (42_decoder.md sections 2 and 3). That a codeword is an instruction of the parser is the model's form (log 1). -/
def Obligations.BlockCodewordsTakeEffect : Prop :=
  (∀ (s : State) (t : Time),
    exec (.wireHeader t) s
      = .next (s.decAfter { s.dec.regs with hdrTS := t, phase := .opened }
          { s.dec.source with rpos := s.dec.source.rpos + 32 } (responseWord 0x00 t 0))) ∧
  (∀ (s : State) (d : BitVec 14) (v : Value), d ≠ 0x3FFF →
    exec (.wireFirstPoint d v) s
      = .next (s.decAfter
          { s.dec.regs with storedDelta := d.setWidth 32, storedTS := s.dec.regs.hdrTS + d.setWidth 32, storedVal := v }
          { s.dec.source with rpos := s.dec.source.rpos + 78 }
          (responseWord 0x01 (s.dec.regs.hdrTS + d.setWidth 32) v))) ∧
  (∀ s : State,
    exec .wireEmptySentinel s
      = .next (s.decAfter { s.dec.regs with phase := .finished }
          { s.dec.source with rpos := s.dec.source.rpos + 14 } (responseWord 0x02 0 0))) ∧
  (∀ s : State,
    exec .wireEndSentinel s
      = .next (s.decAfter { s.dec.regs with phase := .finished }
          { s.dec.source with rpos := s.dec.source.rpos + 36 } (responseWord 0x02 0 0)))

/-- Each timestamp codeword adds its delta-of-delta (the payload conversion written out) to `storedDelta` and the new delta
to `storedTS`, modulo 2^32, and consumes its bits (42_decoder.md section 3); the command goes on with a value codeword, which
the model says with its own field `stage` (log 1). -/
def Obligations.TimestampCodewordsMoveTheClock : Prop :=
  ∀ s : State,
    let moved (dd : Int) (n : Nat) : State :=
      { s with dec := { s.dec with
          regs := { s.dec.regs with
            storedDelta := s.dec.regs.storedDelta + BitVec.ofInt 32 dd
            storedTS := s.dec.regs.storedTS + (s.dec.regs.storedDelta + BitVec.ofInt 32 dd) }
          source := { s.dec.source with rpos := s.dec.source.rpos + n }
          stage := some .value } }
    exec .wireTs0 s = .next (moved 0 1) ∧
    (∀ p : BitVec 7, exec (.wireTs7 p) s = .next (moved (if p.toNat > 64 then (p.toNat : Int) - 128 else p.toNat) 9)) ∧
    (∀ p : BitVec 9, exec (.wireTs9 p) s = .next (moved (if p.toNat > 256 then (p.toNat : Int) - 512 else p.toNat) 12)) ∧
    (∀ p : BitVec 12,
      exec (.wireTs12 p) s = .next (moved (if p.toNat > 2048 then (p.toNat : Int) - 4096 else p.toNat) 16)) ∧
    (∀ p : BitVec 32, p ≠ 0xFFFFFFFF → exec (.wireTs32 p) s = .next (moved p.toNat 36))

/-- Each value codeword's effect on `storedVal` and the window, its response and the bits consumed, and the two forms that
raise an error (42_decoder.md section 3). That a codeword is an instruction of the parser is the model's form (log 1). -/
def Obligations.ValueCodewordsRebuildTheValue : Prop :=
  ∀ s : State,
    exec .wireVSame s
      = .next (s.decAfter s.dec.regs { s.dec.source with rpos := s.dec.source.rpos + 1 }
          (responseWord 0x01 s.dec.regs.storedTS s.dec.regs.storedVal)) ∧
    (∀ (n : Nat) (x : Value), s.dec.regs.winValid = true →
      exec (.wireVReuse n x) s
        = .next (s.decAfter
            { s.dec.regs with storedVal := s.dec.regs.storedVal ^^^ (x <<< s.dec.regs.storedTZ.toNat) }
            { s.dec.source with rpos := s.dec.source.rpos + (2 + n) }
            (responseWord 0x01 s.dec.regs.storedTS (s.dec.regs.storedVal ^^^ (x <<< s.dec.regs.storedTZ.toNat))))) ∧
    (∀ (n : Nat) (x : Value), s.dec.regs.winValid = false →
      exec (.wireVReuse n x) s
        = .next (s.decAfter { s.dec.regs with phase := .error, err := 0x13 }
            { s.dec.source with rpos := s.dec.source.rpos + 2 } (responseWord 0x13 0 0))) ∧
    (∀ (l : BitVec 5) (m : BitVec 6) (x : Value),
      let sig := if m = 0 then 64 else m.toNat
      let tz := 64 - sig - l.toNat
      (l.toNat + sig ≤ 64 →
        exec (.wireVNew l m x) s
          = .next (s.decAfter
              { s.dec.regs with
                storedLZ := l, storedTZ := BitVec.ofNat 6 tz, winValid := true
                storedVal := s.dec.regs.storedVal ^^^ (x <<< tz) }
              { s.dec.source with rpos := s.dec.source.rpos + (13 + sig) }
              (responseWord 0x01 s.dec.regs.storedTS (s.dec.regs.storedVal ^^^ (x <<< tz))))) ∧
      (64 < l.toNat + sig →
        exec (.wireVNew l m x) s
          = .next (s.decAfter { s.dec.regs with phase := .error, err := 0x14 }
              { s.dec.source with rpos := s.dec.source.rpos + 13 } (responseWord 0x14 0 0))))

/-- The padding is never read (42_decoder.md section 3): as an instruction of the parser it changes no register, no stream
and no port. Only the model's own parser stage ends (log 14). -/
def Obligations.PaddingChangesNothing : Prop :=
  ∀ (s : State) (k : Nat), exec (.wirePad k) s = .next { s with dec := { s.dec with stage := none } }

/-! ### Both units -/

/-- No instruction stops the machine: every error is a response (60_exceptions.md section 1). -/
def Obligations.EveryInstructionGivesANextState : Prop :=
  ∀ (i : Instr) (s : State), ∃ t, exec i s = .next t

/-- R22: an instruction, or a step on any action of the host, of one unit leaves the whole other unit as it is, and what it
does to its own depends on nothing of the other. -/
def Obligations.UnitsShareNothing : Prop :=
  (∀ (i : Instr) (s t : State), exec i s = .next t →
    (i.port = some .enc → t.dec = s.dec) ∧ (i.port ≠ some .enc → t.enc = s.enc)) ∧
  (∀ (i : Instr) (s s' t t' : State), s.inputs = s'.inputs → exec i s = .next t → exec i s' = .next t' →
    (i.port = some .enc → s.enc = s'.enc → t.enc = t'.enc) ∧
    (i.port ≠ some .enc → s.dec = s'.dec → t.dec = t'.dec)) ∧
  (∀ (s t : State) (x : Input) (rest : List Input), s.dec.stage = none → s.inputs = x :: rest → step s = .next t →
    (x.unit = .enc → t.dec = s.dec) ∧ (x.unit = .dec → t.enc = s.enc)) ∧
  (∀ (s s' t t' : State) (x : Input) (rest : List Input), s.dec.stage = none → s'.dec.stage = none →
    s.inputs = x :: rest → s'.inputs = x :: rest → step s = .next t → step s' = .next t' →
    (x.unit = .enc → s.enc = s'.enc → t.enc = t'.enc) ∧ (x.unit = .dec → s.dec = s'.dec → t.dec = t'.dec))

/-- R26: the sticky flag `misuse`: set by every command that ends with `E_MISUSE` or `E_ILLEGAL`, cleared by reset alone. -/
def Obligations.MisuseIsSticky : Prop :=
  ∀ s t : State, s.Inv → step s = .next t →
    (s.encResets = false → s.enc.regs.misuse = true → t.enc.regs.misuse = true) ∧
    (s.decResets = false → s.dec.regs.misuse = true → t.dec.regs.misuse = true) ∧
    (∀ rts rval, t.enc.responses = s.enc.responses ++ [responseWord 0x20 rts rval] ∨
      t.enc.responses = s.enc.responses ++ [responseWord 0x21 rts rval] → t.enc.regs.misuse = true) ∧
    (∀ rts rval, t.dec.responses = s.dec.responses ++ [responseWord 0x20 rts rval] ∨
      t.dec.responses = s.dec.responses ++ [responseWord 0x21 rts rval] → t.dec.regs.misuse = true)

/-- `err` (10_state.md section 2) is written once, on entry to `ERR`, with the code of the error responded, and cleared by
reset alone. -/
def Obligations.ErrIsWrittenOnce : Prop :=
  ∀ s t : State, s.Inv → step s = .next t →
    (s.encResets = false →
      (s.enc.regs.err ≠ 0 → t.enc.regs.err = s.enc.regs.err) ∧
      (s.enc.regs.err = 0 → t.enc.regs.err ≠ 0 → s.enc.regs.phase ≠ .error ∧ t.enc.regs.phase = .error ∧
        t.enc.responses = s.enc.responses ++ [responseWord t.enc.regs.err 0 0])) ∧
    (s.decResets = false →
      (s.dec.regs.err ≠ 0 → t.dec.regs.err = s.dec.regs.err) ∧
      (s.dec.regs.err = 0 → t.dec.regs.err ≠ 0 → s.dec.regs.phase ≠ .error ∧ t.dec.regs.phase = .error ∧
        t.dec.responses = s.dec.responses ++ [responseWord t.dec.regs.err 0 0]))

/-! ### Reset and the devices -/

/-- R40: every register of a unit after power-on and after its reset input. -/
def Obligations.RegistersAfterReset : Prop :=
  ∀ r, (r = State.reset.enc.regs ∨ r = State.reset.dec.regs ∨ (∃ s : State, r = s.encReset.enc.regs) ∨
      ∃ s : State, r = s.decReset.dec.regs) →
    r.phase = .init ∧ r.err = 0x00 ∧ r.misuse = false ∧ r.hdrTS = 0 ∧ r.storedTS = 0 ∧ r.storedDelta = 0 ∧
    r.winValid = false ∧ r.storedLZ = 0 ∧ r.storedTZ = 0 ∧ r.storedVal = 0

/-- R262, with the reset input between commands: it puts the unit's registers in the reset state and touches neither the
streams nor the other unit; attaching a stream touches no register and starts it afresh. -/
def Obligations.ResetAndAttachSteps : Prop :=
  (∀ (s : State) (rest : List Input), s.dec.stage = none → s.inputs = .encRst :: rest →
    step s = .next { s with enc := { s.enc with regs := State.reset.enc.regs, waiting := false }, inputs := rest }) ∧
  (∀ (s : State) (rest : List Input), s.dec.stage = none → s.inputs = .decRst :: rest →
    step s = .next { s with dec := { s.dec with regs := State.reset.dec.regs, waiting := false }, inputs := rest }) ∧
  (∀ (s : State) (rest : List Input), s.dec.stage = none → s.inputs = .attachSink :: rest →
    step s = .next { s with enc := { s.enc with sink := ⟨[], false⟩ }, inputs := rest }) ∧
  (∀ (s : State) (bytes : List Byte) (rest : List Input), s.dec.stage = none → s.inputs = .attachSource bytes :: rest →
    step s = .next { s with dec := { s.dec with source := ⟨bytes, 0⟩ }, inputs := rest })

/-- A reset during any encoder command abandons it: no response, reset registers, and what it had appended to the sink stays
(70_reset_and_hazards.md section 1). The reset comes at the `n+1`-th access, or, where the command makes only `n`, before the
response: the bits of the first `n` accesses are appended, and the first `kept` bits of the interrupted one, which are data of
the host's action (log 8; the accesses of a subsequent point are cut as log 9 says). -/
def Obligations.ResetAbandonsAnEncoderCommand : Prop :=
  ∀ (s : State) (i : Instr) (n kept : Nat) (rest : List SinkAnswer), i.port = some .enc →
    let accesses := s.encAccesses i
    n ≤ accesses.length → s.sinkAnswers = List.replicate n .ok ++ .reset kept :: rest →
    let flushed := decide (i = .encFinish ∧ s.enc.regs.phase = .opened ∧ n = accesses.length)
    exec i s
      = .next { s with
          enc := { s.enc with
            regs := State.reset.enc.regs, waiting := false
            sink := ⟨s.enc.sink.bits ++ (accesses.take n).flatten ++ (accesses.getD n []).take kept,
              flushed || s.enc.sink.flushed⟩ }
          inputs := s.inputs.tail }

/-- The same for the decoder (70_reset_and_hazards.md section 1, log 8): the reset comes at the first read of any command, or
at the `n+1`-th read, or before the response of one that makes only `n`: the registers it wrote are reset, and what it had
consumed stays consumed. `DEC_HEADER`, and `DEC_POINT` on the codewords of both paths. -/
def Obligations.ResetAbandonsADecoderCommand : Prop :=
  let abandoned (s : State) (reads : List Nat) : State :=
    { s with
      dec := { s.dec with
        regs := State.reset.dec.regs, waiting := false, stage := none
        source := { s.dec.source with rpos := s.dec.source.rpos + reads.sum } }
      inputs := s.inputs.tail }
  (∀ (s : State) (i : Instr) (rest : List SourceAnswer), i.port = some .dec → s.sourceAnswers = .reset :: rest →
    exec i s = .next (abandoned s [])) ∧
  (∀ (s : State) (rest : List SourceAnswer), s.dec.regs.phase = .init → s.sourceAnswers = .ok :: .reset :: rest →
    s.dec.source.rpos + 32 ≤ s.dec.source.bits.length → exec .decHeader s = .next (abandoned s [32])) ∧
  (∀ (s : State) (i : Instr) (n : Nat) (rest : List SourceAnswer) (more : Bits), s.dec.regs.phase = .opened →
    s.dec.regs.storedTS = 0 → i.ctx = some .first → i.wf = true →
    s.dec.source.left = (encodeWire i).take i.readLen ++ more →
    n ≤ i.reads.length → s.sourceAnswers = List.replicate n .ok ++ .reset :: rest →
    exec .decPoint s = .next (abandoned s (i.reads.take n))) ∧
  (∀ (s : State) (n : Nat) (rest : List SourceAnswer) (more : Bits), s.dec.regs.phase = .opened →
    s.dec.regs.storedTS ≠ 0 → s.dec.source.left = ones 36 ++ more →
    n ≤ Instr.wireEndSentinel.reads.length → s.sourceAnswers = List.replicate n .ok ++ .reset :: rest →
    exec .decPoint s = .next (abandoned s (Instr.wireEndSentinel.reads.take n))) ∧
  (∀ (s : State) (i j : Instr) (n : Nat) (rest : List SourceAnswer) (more : Bits), s.dec.regs.phase = .opened →
    s.dec.regs.storedTS ≠ 0 → i.ctx = some .ts → i ≠ .wireEndSentinel → i.wf = true → j.ctx = some .value →
    j.wf = true → (∀ n x, j = .wireVReuse n x → s.dec.regs.winValid = true ∧ n = s.dec.regs.reuseWidth) →
    s.dec.source.left = encodeWire i ++ encodeWire j ++ more →
    n ≤ (i.reads ++ j.reads).length → s.sourceAnswers = List.replicate n .ok ++ .reset :: rest →
    exec .decPoint s = .next (abandoned s ((i.reads ++ j.reads).take n)))

/-- A command whose device never answers does not finish: no response, and its unit takes no further word; the other unit is
untouched (70_reset_and_hazards.md section 4). That the waiting is a flag and a refused word a fault is the model's form
(log 7). -/
def Obligations.UnansweredCommandNeverFinishes : Prop :=
  (∀ (s : State) (i : Instr) (rest : List SinkAnswer), s.sinkAnswers = .never :: rest →
    ((∃ t0, i = .encHeader t0) ∧ s.enc.regs.phase = .init) ∨
      ((i = .encFinish ∨ ∃ t v, i = .encPoint t v) ∧ s.enc.regs.phase = .opened) →
    ∃ t, exec i s = .next t ∧ t.enc.responses = s.enc.responses ∧ t.enc.waiting = true ∧
      t.enc.sink = s.enc.sink ∧ t.dec = s.dec) ∧
  (∀ (s : State) (i : Instr) (rest : List SourceAnswer), s.sourceAnswers = .never :: rest →
    (i = .decHeader ∧ s.dec.regs.phase = .init) ∨ (i = .decPoint ∧ s.dec.regs.phase = .opened) →
    ∃ t, exec i s = .next t ∧ t.dec.responses = s.dec.responses ∧ t.dec.waiting = true ∧
      t.dec.source = s.dec.source ∧ t.enc = s.enc) ∧
  (∀ (s : State) (w : Word) (a : List SinkAnswer) (rest : List Input), s.dec.stage = none → s.enc.waiting = true →
    s.inputs = .encCmd w a :: rest → step s = .fault .encBusy) ∧
  (∀ (s : State) (w : Word) (a : List SourceAnswer) (rest : List Input), s.dec.stage = none → s.dec.waiting = true →
    s.inputs = .decCmd w a :: rest → step s = .fault .decBusy)

/-! ### Steps -/

/-- A step runs the decoded instruction, and adds nothing around it: the legal word at the head of `inputs`, on the port of a
unit that does not wait; or, inside a decoder command, the codeword at the source's read position. That a codeword inside a
command is a step of its own, which the field `stage` tells, is the model's choice (log 1). With no action of the host and no
command in progress nothing changes (log 17). -/
def Obligations.StepRunsTheInstruction : Prop :=
  (∀ (s : State) (w : Word) (a : List SinkAnswer) (rest : List Input) (i : Instr),
    s.dec.stage = none → s.enc.waiting = false → s.inputs = .encCmd w a :: rest → decodeCmd .enc w = .ok i →
    step s = exec i s) ∧
  (∀ (s : State) (w : Word) (a : List SourceAnswer) (rest : List Input) (i : Instr),
    s.dec.stage = none → s.dec.waiting = false → s.inputs = .decCmd w a :: rest → decodeCmd .dec w = .ok i →
    step s = exec i s) ∧
  (∀ (s : State) (c : CodeCtx) (i : Instr),
    s.dec.stage = some c → decodeWire c s.dec.regs.window s.dec.source.left = .ok i → step s = exec i s) ∧
  (∀ s : State, s.dec.stage = none → s.inputs = [] → step s = .next s)

/-- The invariant of `State.Inv` holds at reset. -/
def Obligations.ResetHasTheInvariant : Prop := State.reset.Inv

/-- Every step keeps the invariant: the window registers of both units, `err` and `phase` together (10_state.md sections 1 to
6), a register set untouched in `INIT`, and no decoder command half done between steps, which the model says with its own
field `stage` (log 1). -/
def Obligations.EveryStepKeepsTheInvariant : Prop :=
  ∀ s t : State, s.Inv → step s = .next t → t.Inv

/-! ### The two units together -/

/-- The bits an `ENC_HEADER` or an `ENC_POINT` appends depend only on its operands and the unit's registers
(41_encoder.md section 3). The padding of `ENC_FINISH` also depends on the sink's length, so it is not covered. -/
def Obligations.AppendedBitsDependOnRegistersOnly : Prop :=
  ∀ (i : Instr) (s s' t t' : State), ((∃ t0, i = .encHeader t0) ∨ ∃ ts v, i = .encPoint ts v) →
    s.enc.regs = s'.enc.regs → SinkOk s → SinkOk s' → exec i s = .next t → exec i s' = .next t' →
    t.enc.regs = t'.enc.regs ∧
      ∃ out, t.enc.sink.bits = s.enc.sink.bits ++ out ∧ t'.enc.sink.bits = s'.enc.sink.bits ++ out

/-- How many bits a point appends (41_encoder.md section 3): 78 on the first path; on the subsequent path the prefix and the
payload of its delta-of-delta's bucket, 1, 9, 12, 16 or 36 bits, and 1, 2 + S or 13 + S bits of the value, with the S of the
stored window or of the new one, which is 1 to 64. -/
def Obligations.BitsPerPoint : Prop :=
  ∀ (s : State) (ts : Time) (v : Value), s.enc.regs.phase = .opened → SinkOk s →
    let r := s.enc.regs
    let b := bucket (ts - r.storedTS - r.storedDelta).toInt
    let a := b.prefixBits.length + b.width
    let x := v ^^^ r.storedVal
    let lz := min (clz64 x) 31
    let tz := ctz64 x
    let reuse := r.winValid = true ∧ r.storedLZ.toNat ≤ lz ∧ r.storedTZ.toNat ≤ tz
    let sig := if reuse then 64 - r.storedLZ.toNat - r.storedTZ.toNat else 64 - lz - tz
    let value := if x = 0 then 1 else if reuse then 2 + sig else 13 + sig
    ∃ t, exec (.encPoint ts v) s = .next t ∧
      (r.storedTS = 0 → t.enc.sink.bits.length = s.enc.sink.bits.length + 78) ∧
      (r.storedTS ≠ 0 → a ∈ [1, 9, 12, 16, 36] ∧ (x ≠ 0 → 1 ≤ sig ∧ sig ≤ 64) ∧
        t.enc.sink.bits.length = s.enc.sink.bits.length + a + value)

/-- A first-path point whose delta has the sentinel's low 14 bits is encoded without error, and the decoder reads the end of
the block there (41_encoder.md section 3, 90_conflicts.md C5). -/
def Obligations.SentinelDeltaEndsTheBlock : Prop :=
  ∀ (s : State) (t : Time) (v : Value), s.enc.regs.phase = .opened → s.enc.regs.storedTS = 0 → SinkOk s →
    (t - s.enc.regs.hdrTS).toNat % 2 ^ 14 = 16383 →
    ∃ u out, exec (.encPoint t v) s = .next u ∧ u.enc.responses = s.enc.responses ++ [responseWord 0x00 0 0] ∧
      u.enc.sink.bits = s.enc.sink.bits ++ out ∧
      ∀ (d : State) (rest : Bits), d.dec.regs.phase = .opened → d.dec.regs.storedTS = 0 → SourceOk d →
        d.dec.source.left = out ++ rest →
        exec .decPoint d
          = .next (d.decAfter { d.dec.regs with phase := .finished }
              { d.dec.source with rpos := d.dec.source.rpos + 14 } (responseWord 0x02 0 0))

/-- The decoder inverts the encoder point by point (42_decoder.md section 3, the invariant of the round trip): from equal
codec registers, with what `ENC_POINT` appended next on the source, `DEC_POINT` returns the point, consumes exactly those
bits, and leaves equal codec registers. -/
def Obligations.DecoderInvertsTheEncoder : Prop :=
  ∀ (e d : State) (t : Time) (v : Value) (rest : Bits),
    e.enc.regs.phase = .opened → d.dec.regs.phase = .opened → CodecEq e.enc.regs d.dec.regs → d.dec.regs.WindowInv →
    SinkOk e → SourceOk d → (e.enc.regs.storedTS = 0 → (t - e.enc.regs.hdrTS).toNat ≤ 16382) →
    ∃ e' out, exec (.encPoint t v) e = .next e' ∧ e'.enc.sink.bits = e.enc.sink.bits ++ out ∧
      (d.dec.source.left = out ++ rest →
        ∃ d', exec .decPoint d = .next d' ∧ d'.dec.responses = d.dec.responses ++ [responseWord 0x01 t v] ∧
          CodecEq e'.enc.regs d'.dec.regs ∧ d'.dec.source = { d.dec.source with rpos := d.dec.source.rpos + out.length } ∧
          d'.dec.regs.phase = .opened)

/-- The round trip (42_decoder.md section 3): a block marshalled by the encoder unmarshals to the same header and points,
the empty block among them, if every first-path point's delta is at most 16382. Timestamps need not increase. -/
def Obligations.MarshalUnmarshalRoundTrip : Prop :=
  ∀ (oracle : Nat → List SinkAnswer) (t0 : Time) (points : List (Time × Value)),
    (∀ n, ∀ a ∈ oracle n, a = SinkAnswer.ok) → firstPathOk t0 0 points = true →
    ∃ bytes, marshal oracle t0 points = some (.ok bytes) ∧ unmarshal bytes = some (.ok (t0, points))

/-- `UNMARSHAL` ends on every byte sequence (43_facade.md): every `POINT` response consumes at least two bits, so the
bounded loop never runs out. The bound is the model's, 8 times the number of bytes and one more, for the one command that the
loop makes on no bytes at all (log 23). -/
def Obligations.UnmarshalEndsOnAnyBytes : Prop :=
  ∀ bytes : List Byte, ∃ result, unmarshal bytes = some result

/-! ### The assembler -/

/-- Lines of PG1, PG2 and PG6 (95_test_vectors.md section 3) assemble to the words given there. -/
def Obligations.AssemblerGivesTheProgramsWords : Prop :=
  assembleLine "ENC.HEADER 1427162400 ; header" = some (some 0x010000005510c5200000000000000000) ∧
  assembleLine "ENC.POINT  1427162400+122, f(12.0)" = some (some 0x020000005510c59a4028000000000000) ∧
  assembleLine "ENC.POINT  10, 0x0" = some (some 0x020000000000000a0000000000000000) ∧
  assembleLine "ENC.FINISH" = some (some 0x03000000000000000000000000000000) ∧
  assembleLine "DEC.RDREG storedVal" = some (some 0x84000000000000060000000000000000)
end

