-- ==== Sys2Proof/Laws/Bits.lean ====
section
/-! SUPPORT. Bit strings and numbers: lengths, and `bin` and `natOf` as inverses. -/

namespace Sys2Proof.Machine

@[simp] theorem bin_zero (v : Nat) : bin 0 v = [] := rfl

@[simp] theorem bin_length (n v : Nat) : (bin n v).length = n := by
  induction n with
  | zero => rfl
  | succ n ih => simp [bin, ih]

theorem natOf_foldl (b : Bits) (a : Nat) :
    b.foldl (fun acc x => 2 * acc + x.toNat) a = a * 2 ^ b.length + natOf b := by
  induction b generalizing a with
  | nil => simp [natOf]
  | cons x b ih =>
    simp only [natOf, List.foldl_cons, List.length_cons]
    rw [ih, ih (2 * 0 + x.toNat)]
    ring

@[simp] theorem natOf_nil : natOf [] = 0 := rfl

theorem natOf_cons (x : Bool) (b : Bits) : natOf (x :: b) = x.toNat * 2 ^ b.length + natOf b := by
  rw [natOf, List.foldl_cons, natOf_foldl]
  simp

theorem natOf_append (a b : Bits) : natOf (a ++ b) = natOf a * 2 ^ b.length + natOf b := by
  rw [natOf, List.foldl_append, natOf_foldl]
  rfl

theorem natOf_lt (b : Bits) : natOf b < 2 ^ b.length := by
  induction b with
  | nil => simp
  | cons x b ih =>
    rw [natOf_cons, List.length_cons, pow_succ]
    cases x <;> simp <;> omega

/-- Reading back what `bin` wrote gives the number modulo 2^n (R12, R51, R55). -/
theorem natOf_bin (n v : Nat) : natOf (bin n v) = v % 2 ^ n := by
  induction n with
  | zero => simp [Nat.mod_one]
  | succ n ih =>
    rw [bin, natOf_cons, bin_length, ih, Nat.testBit_eq_decide_div_mod_eq, Nat.mod_pow_succ]
    rcases Nat.mod_two_eq_zero_or_one (v / 2 ^ n) with h | h <;> simp [h, Nat.add_comm]

theorem natOf_bin_of_lt {n v : Nat} (h : v < 2 ^ n) : natOf (bin n v) = v := by
  rw [natOf_bin, Nat.mod_eq_of_lt h]

theorem bin_mod (n v : Nat) : bin n (v % 2 ^ n) = bin n v := by
  have key : ∀ m, m ≤ n → bin m (v % 2 ^ n) = bin m v := by
    intro m
    induction m with
    | zero => simp
    | succ m ih =>
      intro hm
      have hlt : m < n := hm
      simp [bin, ih (Nat.le_of_lt hlt), Nat.testBit_mod_two_pow, hlt]
  exact key n le_rfl

/-- Every bit string is the `bin` of the number it reads as. -/
theorem bin_natOf (b : Bits) : bin b.length (natOf b) = b := by
  induction b with
  | nil => rfl
  | cons x b ih =>
    have hlt := natOf_lt b
    rw [List.length_cons, bin, natOf_cons, Nat.testBit_eq_decide_div_mod_eq]
    congr 1
    · rw [Nat.mul_comm, Nat.mul_add_div (by positivity), Nat.div_eq_of_lt hlt]
      cases x <;> simp
    · conv_rhs => rw [← ih]
      rw [← bin_mod, Nat.mul_comm, Nat.mul_add_mod, bin_mod]

@[simp] theorem take_bin_append (n v : Nat) (b : Bits) : (bin n v ++ b).take n = bin n v := by
  simp

@[simp] theorem drop_bin_append (n v : Nat) (b : Bits) : (bin n v ++ b).drop n = b := by
  have h := List.drop_left (l₁ := bin n v) (l₂ := b)
  rwa [bin_length] at h

@[simp] theorem unpackBytes_length (bytes : List Byte) : (unpackBytes bytes).length = 8 * bytes.length := by
  induction bytes with
  | nil => rfl
  | cons y ys ih => simp [unpackBytes, List.flatMap_cons] at ih ⊢; omega

@[simp] theorem packBytes_length (b : Bits) : (packBytes b).length = (b.length + 7) / 8 := by simp [packBytes]

theorem padCount_aligns (len : Nat) : (len + padCount len) % 8 = 0 := by unfold padCount; omega

theorem padCount_lt (len : Nat) : padCount len < 8 := by unfold padCount; omega

end Sys2Proof.Machine
end

