-- ==== Sys2Proof/Laws/State.lean ====
section
/-! SUPPORT. Every field of the state under every named update: one lemma each, so that no later proof unfolds one. -/

namespace Sys2Proof.Machine

section Registers

variable (r : Regs)

@[simp] theorem Regs.setPhase_phase (p : Phase) : (r.setPhase p).phase = p := rfl
@[simp] theorem Regs.setPhase_err (p : Phase) : (r.setPhase p).err = r.err := rfl
@[simp] theorem Regs.setPhase_misuse (p : Phase) : (r.setPhase p).misuse = r.misuse := rfl
@[simp] theorem Regs.setPhase_hdrTS (p : Phase) : (r.setPhase p).hdrTS = r.hdrTS := rfl
@[simp] theorem Regs.setPhase_storedTS (p : Phase) : (r.setPhase p).storedTS = r.storedTS := rfl
@[simp] theorem Regs.setPhase_storedDelta (p : Phase) : (r.setPhase p).storedDelta = r.storedDelta := rfl
@[simp] theorem Regs.setPhase_winValid (p : Phase) : (r.setPhase p).winValid = r.winValid := rfl
@[simp] theorem Regs.setPhase_storedLZ (p : Phase) : (r.setPhase p).storedLZ = r.storedLZ := rfl
@[simp] theorem Regs.setPhase_storedTZ (p : Phase) : (r.setPhase p).storedTZ = r.storedTZ := rfl
@[simp] theorem Regs.setPhase_storedVal (p : Phase) : (r.setPhase p).storedVal = r.storedVal := rfl

@[simp] theorem Regs.setMisuse_phase : (r.setMisuse).phase = r.phase := rfl
@[simp] theorem Regs.setMisuse_err : (r.setMisuse).err = r.err := rfl
@[simp] theorem Regs.setMisuse_misuse : (r.setMisuse).misuse = true := rfl
@[simp] theorem Regs.setMisuse_hdrTS : (r.setMisuse).hdrTS = r.hdrTS := rfl
@[simp] theorem Regs.setMisuse_storedTS : (r.setMisuse).storedTS = r.storedTS := rfl
@[simp] theorem Regs.setMisuse_storedDelta : (r.setMisuse).storedDelta = r.storedDelta := rfl
@[simp] theorem Regs.setMisuse_winValid : (r.setMisuse).winValid = r.winValid := rfl
@[simp] theorem Regs.setMisuse_storedLZ : (r.setMisuse).storedLZ = r.storedLZ := rfl
@[simp] theorem Regs.setMisuse_storedTZ : (r.setMisuse).storedTZ = r.storedTZ := rfl
@[simp] theorem Regs.setMisuse_storedVal : (r.setMisuse).storedVal = r.storedVal := rfl

@[simp] theorem Regs.enterError_phase (x : Status) : (r.enterError x).phase = .error := rfl
@[simp] theorem Regs.enterError_err (x : Status) : (r.enterError x).err = x.code := rfl
@[simp] theorem Regs.enterError_misuse (x : Status) : (r.enterError x).misuse = r.misuse := rfl
@[simp] theorem Regs.enterError_hdrTS (x : Status) : (r.enterError x).hdrTS = r.hdrTS := rfl
@[simp] theorem Regs.enterError_storedTS (x : Status) : (r.enterError x).storedTS = r.storedTS := rfl
@[simp] theorem Regs.enterError_storedDelta (x : Status) : (r.enterError x).storedDelta = r.storedDelta := rfl
@[simp] theorem Regs.enterError_winValid (x : Status) : (r.enterError x).winValid = r.winValid := rfl
@[simp] theorem Regs.enterError_storedLZ (x : Status) : (r.enterError x).storedLZ = r.storedLZ := rfl
@[simp] theorem Regs.enterError_storedTZ (x : Status) : (r.enterError x).storedTZ = r.storedTZ := rfl
@[simp] theorem Regs.enterError_storedVal (x : Status) : (r.enterError x).storedVal = r.storedVal := rfl

@[simp] theorem Regs.setHeader_phase (t0 : Time) : (r.setHeader t0).phase = .opened := rfl
@[simp] theorem Regs.setHeader_err (t0 : Time) : (r.setHeader t0).err = r.err := rfl
@[simp] theorem Regs.setHeader_misuse (t0 : Time) : (r.setHeader t0).misuse = r.misuse := rfl
@[simp] theorem Regs.setHeader_hdrTS (t0 : Time) : (r.setHeader t0).hdrTS = t0 := rfl
@[simp] theorem Regs.setHeader_storedTS (t0 : Time) : (r.setHeader t0).storedTS = r.storedTS := rfl
@[simp] theorem Regs.setHeader_storedDelta (t0 : Time) : (r.setHeader t0).storedDelta = r.storedDelta := rfl
@[simp] theorem Regs.setHeader_winValid (t0 : Time) : (r.setHeader t0).winValid = r.winValid := rfl
@[simp] theorem Regs.setHeader_storedLZ (t0 : Time) : (r.setHeader t0).storedLZ = r.storedLZ := rfl
@[simp] theorem Regs.setHeader_storedTZ (t0 : Time) : (r.setHeader t0).storedTZ = r.storedTZ := rfl
@[simp] theorem Regs.setHeader_storedVal (t0 : Time) : (r.setHeader t0).storedVal = r.storedVal := rfl

@[simp] theorem Regs.setFirst_phase (d ts : Time) (v : Value) : (r.setFirst d ts v).phase = r.phase := rfl
@[simp] theorem Regs.setFirst_err (d ts : Time) (v : Value) : (r.setFirst d ts v).err = r.err := rfl
@[simp] theorem Regs.setFirst_misuse (d ts : Time) (v : Value) : (r.setFirst d ts v).misuse = r.misuse := rfl
@[simp] theorem Regs.setFirst_hdrTS (d ts : Time) (v : Value) : (r.setFirst d ts v).hdrTS = r.hdrTS := rfl
@[simp] theorem Regs.setFirst_storedTS (d ts : Time) (v : Value) : (r.setFirst d ts v).storedTS = ts := rfl
@[simp] theorem Regs.setFirst_storedDelta (d ts : Time) (v : Value) : (r.setFirst d ts v).storedDelta = d := rfl
@[simp] theorem Regs.setFirst_winValid (d ts : Time) (v : Value) : (r.setFirst d ts v).winValid = r.winValid := rfl
@[simp] theorem Regs.setFirst_storedLZ (d ts : Time) (v : Value) : (r.setFirst d ts v).storedLZ = r.storedLZ := rfl
@[simp] theorem Regs.setFirst_storedTZ (d ts : Time) (v : Value) : (r.setFirst d ts v).storedTZ = r.storedTZ := rfl
@[simp] theorem Regs.setFirst_storedVal (d ts : Time) (v : Value) : (r.setFirst d ts v).storedVal = v := rfl

@[simp] theorem Regs.setTime_phase (d ts : Time) : (r.setTime d ts).phase = r.phase := rfl
@[simp] theorem Regs.setTime_err (d ts : Time) : (r.setTime d ts).err = r.err := rfl
@[simp] theorem Regs.setTime_misuse (d ts : Time) : (r.setTime d ts).misuse = r.misuse := rfl
@[simp] theorem Regs.setTime_hdrTS (d ts : Time) : (r.setTime d ts).hdrTS = r.hdrTS := rfl
@[simp] theorem Regs.setTime_storedTS (d ts : Time) : (r.setTime d ts).storedTS = ts := rfl
@[simp] theorem Regs.setTime_storedDelta (d ts : Time) : (r.setTime d ts).storedDelta = d := rfl
@[simp] theorem Regs.setTime_winValid (d ts : Time) : (r.setTime d ts).winValid = r.winValid := rfl
@[simp] theorem Regs.setTime_storedLZ (d ts : Time) : (r.setTime d ts).storedLZ = r.storedLZ := rfl
@[simp] theorem Regs.setTime_storedTZ (d ts : Time) : (r.setTime d ts).storedTZ = r.storedTZ := rfl
@[simp] theorem Regs.setTime_storedVal (d ts : Time) : (r.setTime d ts).storedVal = r.storedVal := rfl

@[simp] theorem Regs.setVal_phase (v : Value) : (r.setVal v).phase = r.phase := rfl
@[simp] theorem Regs.setVal_err (v : Value) : (r.setVal v).err = r.err := rfl
@[simp] theorem Regs.setVal_misuse (v : Value) : (r.setVal v).misuse = r.misuse := rfl
@[simp] theorem Regs.setVal_hdrTS (v : Value) : (r.setVal v).hdrTS = r.hdrTS := rfl
@[simp] theorem Regs.setVal_storedTS (v : Value) : (r.setVal v).storedTS = r.storedTS := rfl
@[simp] theorem Regs.setVal_storedDelta (v : Value) : (r.setVal v).storedDelta = r.storedDelta := rfl
@[simp] theorem Regs.setVal_winValid (v : Value) : (r.setVal v).winValid = r.winValid := rfl
@[simp] theorem Regs.setVal_storedLZ (v : Value) : (r.setVal v).storedLZ = r.storedLZ := rfl
@[simp] theorem Regs.setVal_storedTZ (v : Value) : (r.setVal v).storedTZ = r.storedTZ := rfl
@[simp] theorem Regs.setVal_storedVal (v : Value) : (r.setVal v).storedVal = v := rfl

@[simp] theorem Regs.setWindow_phase (lz : BitVec 5) (tz : BitVec 6) : (r.setWindow lz tz).phase = r.phase := rfl
@[simp] theorem Regs.setWindow_err (lz : BitVec 5) (tz : BitVec 6) : (r.setWindow lz tz).err = r.err := rfl
@[simp] theorem Regs.setWindow_misuse (lz : BitVec 5) (tz : BitVec 6) : (r.setWindow lz tz).misuse = r.misuse := rfl
@[simp] theorem Regs.setWindow_hdrTS (lz : BitVec 5) (tz : BitVec 6) : (r.setWindow lz tz).hdrTS = r.hdrTS := rfl
@[simp] theorem Regs.setWindow_storedTS (lz : BitVec 5) (tz : BitVec 6) : (r.setWindow lz tz).storedTS = r.storedTS := rfl
@[simp] theorem Regs.setWindow_storedDelta (lz : BitVec 5) (tz : BitVec 6) : (r.setWindow lz tz).storedDelta = r.storedDelta := rfl
@[simp] theorem Regs.setWindow_winValid (lz : BitVec 5) (tz : BitVec 6) : (r.setWindow lz tz).winValid = true := rfl
@[simp] theorem Regs.setWindow_storedLZ (lz : BitVec 5) (tz : BitVec 6) : (r.setWindow lz tz).storedLZ = lz := rfl
@[simp] theorem Regs.setWindow_storedTZ (lz : BitVec 5) (tz : BitVec 6) : (r.setWindow lz tz).storedTZ = tz := rfl
@[simp] theorem Regs.setWindow_storedVal (lz : BitVec 5) (tz : BitVec 6) : (r.setWindow lz tz).storedVal = r.storedVal := rfl

@[simp] theorem Regs.addDod_phase (dd : Int) : (r.addDod dd).phase = r.phase := rfl
@[simp] theorem Regs.addDod_err (dd : Int) : (r.addDod dd).err = r.err := rfl
@[simp] theorem Regs.addDod_misuse (dd : Int) : (r.addDod dd).misuse = r.misuse := rfl
@[simp] theorem Regs.addDod_hdrTS (dd : Int) : (r.addDod dd).hdrTS = r.hdrTS := rfl
@[simp] theorem Regs.addDod_storedTS (dd : Int) : (r.addDod dd).storedTS = r.storedTS + (r.storedDelta + BitVec.ofInt 32 dd) := rfl
@[simp] theorem Regs.addDod_storedDelta (dd : Int) : (r.addDod dd).storedDelta = r.storedDelta + BitVec.ofInt 32 dd := rfl
@[simp] theorem Regs.addDod_winValid (dd : Int) : (r.addDod dd).winValid = r.winValid := rfl
@[simp] theorem Regs.addDod_storedLZ (dd : Int) : (r.addDod dd).storedLZ = r.storedLZ := rfl
@[simp] theorem Regs.addDod_storedTZ (dd : Int) : (r.addDod dd).storedTZ = r.storedTZ := rfl
@[simp] theorem Regs.addDod_storedVal (dd : Int) : (r.addDod dd).storedVal = r.storedVal := rfl

@[simp] theorem Regs.xorSig_phase (x : Value) : (r.xorSig x).phase = r.phase := rfl
@[simp] theorem Regs.xorSig_err (x : Value) : (r.xorSig x).err = r.err := rfl
@[simp] theorem Regs.xorSig_misuse (x : Value) : (r.xorSig x).misuse = r.misuse := rfl
@[simp] theorem Regs.xorSig_hdrTS (x : Value) : (r.xorSig x).hdrTS = r.hdrTS := rfl
@[simp] theorem Regs.xorSig_storedTS (x : Value) : (r.xorSig x).storedTS = r.storedTS := rfl
@[simp] theorem Regs.xorSig_storedDelta (x : Value) : (r.xorSig x).storedDelta = r.storedDelta := rfl
@[simp] theorem Regs.xorSig_winValid (x : Value) : (r.xorSig x).winValid = r.winValid := rfl
@[simp] theorem Regs.xorSig_storedLZ (x : Value) : (r.xorSig x).storedLZ = r.storedLZ := rfl
@[simp] theorem Regs.xorSig_storedTZ (x : Value) : (r.xorSig x).storedTZ = r.storedTZ := rfl
@[simp] theorem Regs.xorSig_storedVal (x : Value) : (r.xorSig x).storedVal = r.storedVal ^^^ (x <<< r.storedTZ.toNat) := rfl

end Registers

section Units

variable (s : State) (e : EncUnit) (d : DecUnit)

@[simp] theorem State.retire_enc : (s.retire).enc = s.enc := rfl
@[simp] theorem State.retire_dec : (s.retire).dec = s.dec := rfl
@[simp] theorem State.retire_inputs : (s.retire).inputs = s.inputs.tail := rfl

@[simp] theorem State.setEnc_enc : (s.setEnc e).enc = e := rfl
@[simp] theorem State.setEnc_dec : (s.setEnc e).dec = s.dec := rfl
@[simp] theorem State.setEnc_inputs : (s.setEnc e).inputs = s.inputs := rfl

@[simp] theorem State.setDec_enc : (s.setDec d).enc = s.enc := rfl
@[simp] theorem State.setDec_dec : (s.setDec d).dec = d := rfl
@[simp] theorem State.setDec_inputs : (s.setDec d).inputs = s.inputs := rfl

@[simp] theorem EncUnit.reset_regs : e.reset.regs = .reset := rfl
@[simp] theorem EncUnit.reset_sink : e.reset.sink = e.sink := rfl
@[simp] theorem EncUnit.reset_responses : e.reset.responses = e.responses := rfl
@[simp] theorem EncUnit.reset_waiting : e.reset.waiting = false := rfl

@[simp] theorem DecUnit.reset_regs : d.reset.regs = .reset := rfl
@[simp] theorem DecUnit.reset_source : d.reset.source = d.source := rfl
@[simp] theorem DecUnit.reset_responses : d.reset.responses = d.responses := rfl
@[simp] theorem DecUnit.reset_waiting : d.reset.waiting = false := rfl
@[simp] theorem DecUnit.reset_stage : d.reset.stage = none := rfl
@[simp] theorem DecUnit.reset_freeReads : d.reset.freeReads = d.freeReads := rfl

@[simp] theorem State.encRun_regs : s.encRun.regs = s.enc.regs := rfl
@[simp] theorem State.encRun_sink : s.encRun.sink = s.enc.sink := rfl
@[simp] theorem State.encRun_answers : s.encRun.answers = s.sinkAnswers := rfl
@[simp] theorem State.decRun_regs : s.decRun.regs = s.dec.regs := rfl
@[simp] theorem State.decRun_source : s.decRun.source = s.dec.source := rfl
@[simp] theorem State.decRun_answers : s.decRun.answers = s.sourceAnswers := rfl
@[simp] theorem State.decRun_freeReads : s.decRun.freeReads = s.dec.freeReads := rfl
@[simp] theorem State.codeRun_regs : s.codeRun.regs = s.dec.regs := rfl
@[simp] theorem State.codeRun_source : s.codeRun.source = s.dec.source := rfl
@[simp] theorem State.codeRun_answers : s.codeRun.answers = [] := rfl
@[simp] theorem State.codeRun_freeReads : s.codeRun.freeReads = s.dec.freeReads := rfl

end Units

section Streams

variable (k : Sink) (c : Source) (b : Bits) (n : Nat) (q : DecRun)

@[simp] theorem Sink.append_bits : (k.append b).bits = k.bits ++ b := rfl
@[simp] theorem Sink.append_flushed : (k.append b).flushed = k.flushed := rfl
@[simp] theorem Sink.flush_bits : k.flush.bits = k.bits ++ k.padding := rfl
@[simp] theorem Sink.flush_flushed : k.flush.flushed = true := rfl
@[simp] theorem Source.advance_bytes : (c.advance n).bytes = c.bytes := rfl
@[simp] theorem Source.advance_rpos : (c.advance n).rpos = c.rpos + n := rfl
@[simp] theorem Source.advance_bits : (c.advance n).bits = c.bits := rfl
@[simp] theorem DecRun.consume_regs : (q.consume n).regs = q.regs := rfl
@[simp] theorem DecRun.consume_source : (q.consume n).source = q.source.advance n := rfl
@[simp] theorem DecRun.consume_answers : (q.consume n).answers = q.answers := rfl
@[simp] theorem DecRun.consume_freeReads : (q.consume n).freeReads = q.freeReads := rfl

@[simp] theorem Source.left_advance : (c.advance n).left = c.left.drop n := by
  simp [Source.left, List.drop_drop]

@[simp] theorem Source.advance_advance (m : Nat) : (c.advance n).advance m = c.advance (n + m) := by
  simp [Source.advance, Nat.add_assoc]

@[simp] theorem Source.advance_zero : c.advance 0 = c := rfl

end Streams

end Sys2Proof.Machine
end

