-- ==== Sys2Proof/Laws/Ops.lean ====
section
/-! SUPPORT. One lemma per shared operation: all it can do, so that a proof cites it and does not unfold it. -/

namespace Sys2Proof.Machine

/-! ### The sink -/

/-- All that one sink access can do (R51, R52, R57, R261, R271). -/
theorem sinkAccess_cases (b : Bits) (fl : Bool) (r : EncRun) (k : EncRun → EncResult) :
    ((r.answers = [] ∨ ∃ rest, r.answers = .ok :: rest) ∧
        sinkAccess b fl r k
          = k { r with sink := ⟨r.sink.bits ++ b, fl || r.sink.flushed⟩, answers := r.answers.tail }) ∨
      (∃ left fl' rest, r.answers = .fail left fl' :: rest ∧
        sinkAccess b fl r k = EncRun.raise { r with sink := ⟨left, fl'⟩, answers := rest } .eIO) ∨
      (∃ rest, r.answers = .never :: rest ∧ sinkAccess b fl r k = .waits { r with answers := rest }) ∨
      (∃ kept rest, r.answers = .reset kept :: rest ∧
        sinkAccess b fl r k = .abandoned { r with sink := r.sink.append (b.take kept), answers := rest }) := by
  obtain ⟨regs, sink, answers⟩ := r
  match answers with
  | [] => exact .inl ⟨.inl rfl, rfl⟩
  | .ok :: rest => exact .inl ⟨.inr ⟨rest, rfl⟩, rfl⟩
  | .fail left fl' :: rest => exact .inr (.inl ⟨left, fl', rest, rfl, rfl⟩)
  | .never :: rest => exact .inr (.inr (.inl ⟨rest, rfl, rfl⟩))
  | .reset kept :: rest => exact .inr (.inr (.inr ⟨kept, rest, rfl, rfl⟩))

/-- An access of a sink that does not fail appends its bits, and the command goes on. -/
theorem sinkAccess_ok (b : Bits) (fl : Bool) (r : EncRun) (k : EncRun → EncResult)
    (h : ∀ a ∈ r.answers, a = SinkAnswer.ok) :
    sinkAccess b fl r k
      = k { r with sink := ⟨r.sink.bits ++ b, fl || r.sink.flushed⟩, answers := r.answers.tail } := by
  obtain ⟨regs, sink, answers⟩ := r
  match answers with
  | [] => rfl
  | a :: rest =>
    obtain rfl : a = .ok := h a (by simp)
    rfl

theorem tail_all {α : Type} {p : α → Prop} {l : List α} (h : ∀ a ∈ l, p a) : ∀ a ∈ l.tail, p a :=
  fun a ha => h a (List.mem_of_mem_tail ha)

@[simp] theorem fieldsBits_nil : fieldsBits [] = [] := rfl

@[simp] theorem fieldsBits_cons (f : Field) (fs : List Field) : fieldsBits (f :: fs) = f.bits ++ fieldsBits fs := rfl

@[simp] theorem fieldsBits_append (fs gs : List Field) : fieldsBits (fs ++ gs) = fieldsBits fs ++ fieldsBits gs := by
  simp [fieldsBits]

/-- `SinkPut` on a sink that does not fail appends the bits of its fields in order, however the answers are listed (R51). -/
theorem sinkPut_ok (fs : List Field) (r : EncRun) (k : EncRun → EncResult)
    (h : ∀ a ∈ r.answers, a = SinkAnswer.ok) :
    ∃ rest, (∀ a ∈ rest, a = SinkAnswer.ok) ∧
      sinkPut fs r k = k { r with sink := r.sink.append (fieldsBits fs), answers := rest } := by
  induction fs generalizing r with
  | nil => exact ⟨r.answers, h, by simp [sinkPut, Sink.append]⟩
  | cons f fs ih =>
    by_cases hw : f.width = 0
    · obtain ⟨rest, hr, e⟩ := ih r h
      refine ⟨rest, hr, ?_⟩
      have hb : f.bits = [] := by simp [Field.bits, hw]
      simp [sinkPut, hw, e, hb]
    · obtain ⟨rest, hr, e⟩ := ih { r with sink := ⟨r.sink.bits ++ f.bits, false || r.sink.flushed⟩,
                                          answers := r.answers.tail } (tail_all h)
      refine ⟨rest, hr, ?_⟩
      rw [sinkPut, if_neg hw, sinkWrite, sinkAccess_ok _ _ _ _ h, e]
      simp [Sink.append, List.append_assoc]

/-! ### The source -/

/-- All that one source read can do (R55, R261, R271). -/
theorem sourceRead_cases (n : Nat) (r : DecRun) (k : Nat → DecRun → DecResult) :
    ((r.answers = [] ∨ ∃ rest, r.answers = .ok :: rest) ∧
        ((r.source.rpos + n ≤ r.source.bits.length ∧
            sourceRead n r k
              = k (natOf (r.source.left.take n))
                  { r with source := r.source.advance n, answers := r.answers.tail }) ∨
          (r.source.bits.length < r.source.rpos + n ∧
            sourceRead n r k = DecRun.truncated { r with answers := r.answers.tail }))) ∨
      (∃ rest, r.answers = .never :: rest ∧ sourceRead n r k = .waits { r with answers := rest }) ∨
      (∃ rest, r.answers = .reset :: rest ∧ sourceRead n r k = .abandoned { r with answers := rest }) := by
  obtain ⟨regs, source, answers, free⟩ := r
  match answers with
  | [] =>
    refine .inl ⟨.inl rfl, ?_⟩
    by_cases h : source.rpos + n ≤ source.bits.length
    · exact .inl ⟨h, by simp [sourceRead, sourceTake, h]⟩
    · exact .inr ⟨by simpa using h, by simp [sourceRead, sourceTake, h]⟩
  | .ok :: rest =>
    refine .inl ⟨.inr ⟨rest, rfl⟩, ?_⟩
    by_cases h : source.rpos + n ≤ source.bits.length
    · exact .inl ⟨h, by simp [sourceRead, sourceTake, h]⟩
    · exact .inr ⟨by simpa using h, by simp [sourceRead, sourceTake, h]⟩
  | .never :: rest => exact .inr (.inl ⟨rest, rfl, rfl⟩)
  | .reset :: rest => exact .inr (.inr ⟨rest, rfl, rfl⟩)

theorem Source.left_length (c : Source) : c.left.length = c.bits.length - c.rpos := by simp [Source.left]

/-- A read that the source answers and has the bits for. -/
theorem sourceRead_take {n : Nat} {r : DecRun} {b rest : Bits} (k : Nat → DecRun → DecResult)
    (h : ∀ a ∈ r.answers, a = SourceAnswer.ok) (hl : r.source.left = b ++ rest) (hb : b.length = n) (hn : 0 < n) :
    sourceRead n r k = k (natOf b) { r with source := r.source.advance n, answers := r.answers.tail } := by
  have hlen := Source.left_length r.source
  rw [hl, List.length_append, hb] at hlen
  have hle : r.source.rpos + n ≤ r.source.bits.length := by omega
  have htake : r.source.left.take n = b := by rw [hl, ← hb]; simp
  rcases sourceRead_cases n r k with ⟨_, ⟨_, e⟩ | ⟨hlt, _⟩⟩ | ⟨_, ha, _⟩ | ⟨_, ha, _⟩
  · rw [e, htake]
  · omega
  · rw [ha] at h; simpa using h .never
  · rw [ha] at h; simpa using h .reset

/-- A read of a field that was written with `bin` gives back its number (R51, R55). -/
theorem sourceRead_bin {n v : Nat} {r : DecRun} {rest : Bits} (k : Nat → DecRun → DecResult)
    (h : ∀ a ∈ r.answers, a = SourceAnswer.ok) (hl : r.source.left = bin n v ++ rest) (hv : v < 2 ^ n) (hn : 0 < n) :
    sourceRead n r k = k v { r with source := r.source.advance n, answers := r.answers.tail } := by
  rw [sourceRead_take k h hl (bin_length n v) hn, natOf_bin_of_lt hv]

/-- A short read raises `E_TRUNCATED` (R55, R233). -/
theorem sourceRead_short {n : Nat} {r : DecRun} (k : Nat → DecRun → DecResult)
    (h : ∀ a ∈ r.answers, a = SourceAnswer.ok) (hs : r.source.bits.length < r.source.rpos + n) :
    sourceRead n r k = DecRun.truncated { r with answers := r.answers.tail } := by
  rcases sourceRead_cases n r k with ⟨_, ⟨hle, _⟩ | ⟨_, e⟩⟩ | ⟨_, ha, _⟩ | ⟨_, ha, _⟩
  · omega
  · exact e
  · rw [ha] at h; simpa using h .never
  · rw [ha] at h; simpa using h .reset

/-! ### The end of a command -/

/-- An encoder command that responds, and is not reset before it does, changes only its unit and its place in `inputs`. -/
theorem encFinish_respond (s : State) (st : BitVec 8) (rts : Time) (rval : Value) (r : EncRun)
    (h : ∀ a ∈ r.answers, a = SinkAnswer.ok) :
    s.encFinish (.respond st rts rval r) = s.encAfter r.regs r.sink (responseWord st rts rval) := by
  obtain ⟨regs, sink, answers⟩ := r
  match answers with
  | [] => rfl
  | a :: rest =>
    obtain rfl : a = .ok := h a (by simp)
    rfl

/-- A decoder command that responds, and is not reset before it does. -/
theorem decFinish_respond (s : State) (st : BitVec 8) (rts : Time) (rval : Value) (r : DecRun)
    (h : ∀ a ∈ r.answers, a = SourceAnswer.ok) (hf : r.freeReads = s.dec.freeReads) :
    s.decFinish (.respond st rts rval r) = s.decAfter r.regs r.source (responseWord st rts rval) := by
  obtain ⟨regs, source, answers, free⟩ := r
  subst hf
  match answers with
  | [] => rfl
  | a :: rest =>
    obtain rfl : a = .ok := h a (by simp)
    rfl

/-- The end of an encoder command leaves the decoder as it is (R22). -/
@[simp] theorem encFinish_dec (s : State) (res : EncResult) : (s.encFinish res).dec = s.dec := by
  unfold State.encFinish; split <;> [split; skip; skip] <;> rfl

/-- The end of a decoder command leaves the encoder as it is (R22). -/
@[simp] theorem decFinish_enc (s : State) (res : DecResult) : (s.decFinish res).enc = s.enc := by
  unfold State.decFinish; split <;> [split; skip; skip] <;> rfl

/-- The end of a command takes its word off `inputs`. -/
@[simp] theorem encFinish_inputs (s : State) (res : EncResult) : (s.encFinish res).inputs = s.inputs.tail := by
  unfold State.encFinish; split <;> [split; skip; skip] <;> rfl

@[simp] theorem decFinish_inputs (s : State) (res : DecResult) : (s.decFinish res).inputs = s.inputs.tail := by
  unfold State.decFinish; split <;> [split; skip; skip] <;> rfl

/-- Between commands the parser has no stage (R270). -/
@[simp] theorem decFinish_stage (s : State) (res : DecResult) : (s.decFinish res).dec.stage = none := by
  unfold State.decFinish; split <;> [split; skip; skip] <;> rfl

/-! ### What a command may do before its pseudocode -/

theorem encAdmit_run {need : Phase} {r : EncRun} {body : EncRun → EncResult} (h : r.regs.phase = need)
    (hn : need ≠ .error) : encAdmit need r body = body r := by
  simp [encAdmit, h, hn]

theorem encAdmit_error {need : Phase} {r : EncRun} {body : EncRun → EncResult} (h : r.regs.phase = .error) :
    encAdmit need r body = .respond r.regs.err 0 0 r := by
  simp [encAdmit, h]

theorem encAdmit_misuse {need : Phase} {r : EncRun} {body : EncRun → EncResult} (h : r.regs.phase ≠ .error)
    (hn : r.regs.phase ≠ need) : encAdmit need r body = r.misuse .eMisuse := by
  simp [encAdmit, h, hn]

theorem decAdmit_run {need : Phase} {r : DecRun} {body : DecRun → DecResult} (h : r.regs.phase = need)
    (hn : need ≠ .error) : decAdmit need r body = body r := by
  simp [decAdmit, h, hn]

theorem decAdmit_error {need : Phase} {r : DecRun} {body : DecRun → DecResult} (h : r.regs.phase = .error) :
    decAdmit need r body = .respond r.regs.err 0 0 r := by
  simp [decAdmit, h]

theorem decAdmit_misuse {need : Phase} {r : DecRun} {body : DecRun → DecResult} (h : r.regs.phase ≠ .error)
    (hn : r.regs.phase ≠ need) : decAdmit need r body = r.misuse .eMisuse := by
  simp [decAdmit, h, hn]

/-! ### All the ways -/

/-- All that the check before a command's pseudocode can do (R140, R239). -/
theorem encAdmit_cases (need : Phase) (r : EncRun) (body : EncRun → EncResult) :
    (r.regs.phase = .error ∧ encAdmit need r body = .respond r.regs.err 0 0 r) ∨
      (r.regs.phase ≠ .error ∧ r.regs.phase ≠ need ∧ encAdmit need r body = r.misuse .eMisuse) ∨
      (r.regs.phase ≠ .error ∧ r.regs.phase = need ∧ encAdmit need r body = body r) := by
  by_cases he : r.regs.phase = .error
  · exact .inl ⟨he, encAdmit_error he⟩
  · by_cases hn : r.regs.phase = need
    · exact .inr (.inr ⟨he, hn, encAdmit_run hn (hn ▸ he)⟩)
    · exact .inr (.inl ⟨he, hn, encAdmit_misuse he hn⟩)

/-- The same for the decoder (R180, R239). -/
theorem decAdmit_cases (need : Phase) (r : DecRun) (body : DecRun → DecResult) :
    (r.regs.phase = .error ∧ decAdmit need r body = .respond r.regs.err 0 0 r) ∨
      (r.regs.phase ≠ .error ∧ r.regs.phase ≠ need ∧ decAdmit need r body = r.misuse .eMisuse) ∨
      (r.regs.phase ≠ .error ∧ r.regs.phase = need ∧ decAdmit need r body = body r) := by
  by_cases he : r.regs.phase = .error
  · exact .inl ⟨he, decAdmit_error he⟩
  · by_cases hn : r.regs.phase = need
    · exact .inr (.inr ⟨he, hn, decAdmit_run hn (hn ▸ he)⟩)
    · exact .inr (.inl ⟨he, hn, decAdmit_misuse he hn⟩)

/-- All that a `SinkPut` can do (R51, R57, R261, R271): the command goes on with every bit appended; or it fails, waits or is
abandoned at one of its accesses, the last two with the bits before it appended. The registers are as they were. -/
theorem sinkPut_cases (fs : List Field) (r : EncRun) (k : EncRun → EncResult) :
    (∃ rest, rest <:+ r.answers ∧
        sinkPut fs r k = k { r with sink := r.sink.append (fieldsBits fs), answers := rest }) ∨
      (∃ left fl rest, .fail left fl :: rest <:+ r.answers ∧
        sinkPut fs r k = EncRun.raise { r with sink := ⟨left, fl⟩, answers := rest } .eIO) ∨
      (∃ b rest, b <+: fieldsBits fs ∧ .never :: rest <:+ r.answers ∧
        sinkPut fs r k = .waits { r with sink := r.sink.append b, answers := rest }) ∨
      (∃ b kept rest, b <+: fieldsBits fs ∧ .reset kept :: rest <:+ r.answers ∧
        sinkPut fs r k = .abandoned { r with sink := r.sink.append b, answers := rest }) := by
  induction fs generalizing r with
  | nil => exact .inl ⟨r.answers, List.suffix_refl _, by simp [sinkPut, Sink.append]⟩
  | cons f fs ih =>
    by_cases hw : f.width = 0
    · have hb : f.bits = [] := by simp [Field.bits, hw]
      simpa [sinkPut, hw, hb] using ih r
    · rw [sinkPut, if_neg hw, sinkWrite]
      rcases sinkAccess_cases f.bits false r fun r => sinkPut fs r k with
        ⟨_, e⟩ | ⟨left, fl, rest, ha, e⟩ | ⟨rest, ha, e⟩ | ⟨kept, rest, ha, e⟩
      · rw [e]
        have ht : ∀ {l : List SinkAnswer}, l <:+ r.answers.tail → l <:+ r.answers :=
          fun h => h.trans (List.tail_suffix _)
        rcases ih { r with sink := ⟨r.sink.bits ++ f.bits, false || r.sink.flushed⟩, answers := r.answers.tail } with
          ⟨rest, hr, e'⟩ | ⟨left, fl, rest, hr, e'⟩ | ⟨b, rest, hp, hr, e'⟩ | ⟨b, kept, rest, hp, hr, e'⟩
        · exact .inl ⟨rest, ht hr, by rw [e']; simp [Sink.append, List.append_assoc]⟩
        · exact .inr (.inl ⟨left, fl, rest, ht hr, e'⟩)
        · refine .inr (.inr (.inl ⟨f.bits ++ b, rest, ?_, ht hr, by rw [e']; simp [Sink.append, List.append_assoc]⟩))
          simpa using hp
        · refine .inr (.inr (.inr ⟨f.bits ++ b, kept, rest, ?_, ht hr, by rw [e']; simp [Sink.append, List.append_assoc]⟩))
          simpa using hp
      · exact .inr (.inl ⟨left, fl, rest, ha ▸ List.suffix_refl _, e⟩)
      · exact .inr (.inr (.inl ⟨[], rest, List.nil_prefix, ha ▸ List.suffix_refl _, by rw [e]; simp [Sink.append]⟩))
      · refine .inr (.inr (.inr ⟨f.bits.take kept, kept, rest, ?_, ha ▸ List.suffix_refl _, e⟩))
        exact (List.take_prefix _ _).trans (List.prefix_append _ _)

/-- All that the end of an encoder command can do (R88, R261, R271): a response, a wait, or a reset without a response. -/
theorem encFinish_cases (s : State) (res : EncResult) :
    (∃ st rts rval r, res = .respond st rts rval r ∧
        s.encFinish res = s.encAfter r.regs r.sink (responseWord st rts rval)) ∨
      (∃ r, res = .waits r ∧
        s.encFinish res = s.retire.setEnc { s.enc with regs := r.regs, sink := r.sink, waiting := true }) ∨
      (∃ r, ((∃ st rts rval kept rest, res = .respond st rts rval r ∧ r.answers = .reset kept :: rest) ∨
          res = .abandoned r) ∧
        s.encFinish res = s.retire.setEnc { s.enc with regs := .reset, sink := r.sink, waiting := false }) := by
  match res with
  | .waits r => exact .inr (.inl ⟨r, rfl, rfl⟩)
  | .abandoned r => exact .inr (.inr ⟨r, .inr rfl, rfl⟩)
  | .respond st rts rval ⟨regs, sink, []⟩ => exact .inl ⟨_, _, _, _, rfl, rfl⟩
  | .respond st rts rval ⟨regs, sink, .ok :: _⟩ => exact .inl ⟨_, _, _, _, rfl, rfl⟩
  | .respond st rts rval ⟨regs, sink, .fail _ _ :: _⟩ => exact .inl ⟨_, _, _, _, rfl, rfl⟩
  | .respond st rts rval ⟨regs, sink, .never :: _⟩ => exact .inl ⟨_, _, _, _, rfl, rfl⟩
  | .respond st rts rval ⟨regs, sink, .reset kept :: rest⟩ =>
    exact .inr (.inr ⟨_, .inl ⟨_, _, _, kept, rest, rfl, rfl⟩, rfl⟩)

/-- All that the end of a decoder command can do. -/
theorem decFinish_cases (s : State) (res : DecResult) :
    (∃ st rts rval r, res = .respond st rts rval r ∧
        s.decFinish res = s.retire.setDec
          { regs := r.regs, source := r.source, responses := s.dec.responses ++ [responseWord st rts rval],
            waiting := false, stage := none, freeReads := r.freeReads }) ∨
      (∃ r, res = .waits r ∧
        s.decFinish res = s.retire.setDec
          { s.dec with regs := r.regs, source := r.source, waiting := true, stage := none, freeReads := r.freeReads }) ∨
      (∃ r, ((∃ st rts rval rest, res = .respond st rts rval r ∧ r.answers = .reset :: rest) ∨ res = .abandoned r) ∧
        s.decFinish res = s.retire.setDec
          { s.dec with regs := .reset, source := r.source, waiting := false, stage := none, freeReads := r.freeReads }) := by
  match res with
  | .waits r => exact .inr (.inl ⟨r, rfl, rfl⟩)
  | .abandoned r => exact .inr (.inr ⟨r, .inr rfl, rfl⟩)
  | .respond st rts rval ⟨regs, source, [], _⟩ => exact .inl ⟨_, _, _, _, rfl, rfl⟩
  | .respond st rts rval ⟨regs, source, .ok :: _, _⟩ => exact .inl ⟨_, _, _, _, rfl, rfl⟩
  | .respond st rts rval ⟨regs, source, .never :: _, _⟩ => exact .inl ⟨_, _, _, _, rfl, rfl⟩
  | .respond st rts rval ⟨regs, source, .reset :: rest, _⟩ =>
    exact .inr (.inr ⟨_, .inl ⟨_, _, _, rest, rfl, rfl⟩, rfl⟩)

/-- A `SinkPut` makes an access for each field that is not empty, and for no other (R51). -/
theorem sinkPut_filter (fs : List Field) (r : EncRun) (k : EncRun → EncResult) :
    sinkPut fs r k = sinkPut (fs.filter fun f => f.width != 0) r k := by
  induction fs generalizing r with
  | nil => rfl
  | cons f fs ih =>
    by_cases hw : f.width = 0
    · simpa [sinkPut, hw] using ih r
    · simp only [sinkPut, hw, if_false, List.filter_cons, bne_iff_ne, ne_eq, not_false_eq_true, if_true]
      exact congrArg _ (funext fun r => ih r)

/-- A `SinkPut` whose first `n` accesses are answered `ok` appends their bits and goes on with the others. -/
theorem sinkPut_skip (n : Nat) (fs : List Field) (r : EncRun) (k : EncRun → EncResult) (rest : List SinkAnswer)
    (hf : ∀ f ∈ fs, f.width ≠ 0) (hn : n ≤ fs.length) (ha : r.answers = List.replicate n .ok ++ rest) :
    sinkPut fs r k
      = sinkPut (fs.drop n) { r with sink := r.sink.append (fieldsBits (fs.take n)), answers := rest } k := by
  induction n generalizing fs r with
  | zero =>
    obtain ⟨regs, sink, answers⟩ := r
    simp only [List.replicate_zero, List.nil_append] at ha
    simp [Sink.append, ha]
  | succ n ih =>
    cases fs with
    | nil => simp at hn
    | cons f fs =>
      obtain ⟨regs, sink, answers⟩ := r
      obtain rfl : answers = .ok :: (List.replicate n .ok ++ rest) := by simpa [List.replicate_succ] using ha
      rw [sinkPut, if_neg (hf f (by simp)), sinkWrite]
      simp only [sinkAccess]
      rw [ih fs _ (fun g hg => hf g (by simp [hg])) (by simpa using hn) rfl]
      simp [Sink.append, List.append_assoc]

/-- A read that the source answers, with others to come, and has the bits for. -/
theorem sourceRead_ok {n : Nat} {r : DecRun} {b more : Bits} {rest : List SourceAnswer} (k : Nat → DecRun → DecResult)
    (ha : r.answers = .ok :: rest) (hl : r.source.left = b ++ more) (hb : b.length = n) (hn : 0 < n) :
    sourceRead n r k = k (natOf b) { r with source := r.source.advance n, answers := rest } := by
  have hlen := Source.left_length r.source
  rw [hl, List.length_append, hb] at hlen
  rcases sourceRead_cases n r k with ⟨_, ⟨_, e⟩ | ⟨hlt, _⟩⟩ | ⟨_, h, _⟩ | ⟨_, h, _⟩
  · rw [e, hl, ← hb, List.take_left, ha, List.tail_cons]
  · omega
  · rw [ha] at h; cases h
  · rw [ha] at h; cases h

end Sys2Proof.Machine
end

