-- ==== Sys2Proof/Laws/PerInstr.lean ====
section
/-! SUPPORT. Statements about every instruction as syntax, one lemma per constructor. -/

namespace Sys2Proof.Laws.ReadLength

open Machine

/-- The decoder consumes no more bits than the codeword has (42_decoder.md R198), and every codeword but the padding and the
two sentinels whole; a command has none on the stream. -/
def Statement (i : Instr) : Prop :=
  i.readLen ≤ (encodeWire i).length ∧
    (i.wf = true → i ≠ .wireEmptySentinel → i ≠ .wireEndSentinel → i.ctx ≠ some .pad →
      i.readLen = (encodeWire i).length)

theorem encHeader (t0 : Time) : Statement (.encHeader t0) := ⟨le_rfl, fun _ _ _ _ => rfl⟩

theorem encPoint (ts : Time) (val : Value) : Statement (.encPoint ts val) := ⟨le_rfl, fun _ _ _ _ => rfl⟩

theorem encFinish : Statement .encFinish := ⟨le_rfl, fun _ _ _ _ => rfl⟩

theorem encRdreg (idx : BitVec 3) : Statement (.encRdreg idx) := ⟨le_rfl, fun _ _ _ _ => rfl⟩

theorem decHeader : Statement .decHeader := ⟨le_rfl, fun _ _ _ _ => rfl⟩

theorem decPoint : Statement .decPoint := ⟨le_rfl, fun _ _ _ _ => rfl⟩

theorem decRdreg (idx : BitVec 3) : Statement (.decRdreg idx) := ⟨le_rfl, fun _ _ _ _ => rfl⟩

theorem wireHeader (t : Time) : Statement (.wireHeader t) := by simp [Statement, Instr.readLen, encodeWire]

theorem wireFirstPoint (d : BitVec 14) (v : Value) : Statement (.wireFirstPoint d v) := by
  simp only [Statement, Instr.readLen, encodeWire, Instr.wf, bne_iff_ne, List.length_append, bin_length]
  by_cases h : d = 0x3FFF
  · rw [if_pos h]
    exact ⟨by decide, fun hw => absurd h hw⟩
  · rw [if_neg h]
    exact ⟨le_rfl, fun _ _ _ _ => rfl⟩

theorem wireEmptySentinel : Statement .wireEmptySentinel := ⟨by decide, fun _ h => absurd rfl h⟩

theorem wireTs0 : Statement .wireTs0 := ⟨le_rfl, fun _ _ _ _ => rfl⟩

theorem wireTs7 (p : BitVec 7) : Statement (.wireTs7 p) := by simp [Statement, Instr.readLen, encodeWire]

theorem wireTs9 (p : BitVec 9) : Statement (.wireTs9 p) := by simp [Statement, Instr.readLen, encodeWire]

theorem wireTs12 (p : BitVec 12) : Statement (.wireTs12 p) := by simp [Statement, Instr.readLen, encodeWire]

theorem wireTs32 (p : BitVec 32) : Statement (.wireTs32 p) := by simp [Statement, Instr.readLen, encodeWire]

theorem wireEndSentinel : Statement .wireEndSentinel := ⟨by decide, fun _ _ h => absurd rfl h⟩

theorem wireVSame : Statement .wireVSame := ⟨le_rfl, fun _ _ _ _ => rfl⟩

theorem wireVReuse (width : Nat) (sig : Value) : Statement (.wireVReuse width sig) := by
  simp [Statement, Instr.readLen, encodeWire]
  omega

theorem wireVNew (l : BitVec 5) (m : BitVec 6) (sig : Value) : Statement (.wireVNew l m sig) := by
  simp [Statement, Instr.readLen, encodeWire]
  omega

theorem wirePad (k : Nat) : Statement (.wirePad k) := ⟨Nat.zero_le _, fun _ _ _ h => absurd rfl h⟩

end Sys2Proof.Laws.ReadLength

namespace Sys2Proof

/-- The reads by which the decoder takes a well-formed codeword consume what R198 says. -/
theorem Instr.reads_sum (i : Instr) (h : i.wf = true) : i.reads.sum = i.readLen := by
  cases i <;> try rfl
  case wireFirstPoint d v =>
    have hd : d ≠ 0x3FFF := by simpa [Instr.wf] using h
    exact (if_neg hd).symm
  all_goals
    simp [Instr.reads, Instr.readLen]
    omega

end Sys2Proof
end

