-- ==== Sys2Proof/Tests/Slice0.lean ====
section
/-! SUPPORT. Own tests: well-formedness, words written out from the spec's encodings, single steps whose expected results are
those of 95_test_vectors.md, and for each statement of Obligations.lean that has hypotheses a state that meets them. -/

namespace Sys2Proof.Tests

set_option Elab.async false

open Sys2Proof.Machine

/-! ### Helpers -/

/-- A bit string written out, first bit on the stream first; other characters only group. -/
def stream (s : String) : Bits := s.toList.filterMap fun c => if c = '0' then some false else if c = '1' then some true else none

/-- An encoder with these registers and an empty sink, at a command whose sink accesses go as listed. -/
def encAt (r : Regs) (answers : List SinkAnswer) : State :=
  { State.reset with
    enc := { regs := r, sink := .fresh, responses := [], waiting := false }
    inputs := [.encCmd 0 answers] }

/-- A decoder with these registers and these unread bits, at a command whose reads go as listed. -/
def decAt (r : Regs) (b : Bits) (answers : List SourceAnswer) : State :=
  { State.reset with
    dec := { regs := r, source := sourceWith b, responses := [], waiting := false, stage := none, freeReads := 0 }
    inputs := [.decCmd 0 answers] }

/-- The same inside the command, its parser at a codeword. -/
def codeAt (r : Regs) (b : Bits) (c : CodeCtx) : State :=
  let s := decAt r b []
  { s with dec := { s.dec with stage := some c } }

/-- The state after an outcome; reset where there is none. -/
def out (o : Host.Outcome State Fault Refusal) : State :=
  match o with
  | .next t => t
  | _ => State.reset

/-- After `HEADER 1000` (vectors of section 2.3). -/
def opened : Regs := { Regs.reset with phase := .opened, hdrTS := 1000 }

/-- After the first point (1010, one) of those vectors. -/
def afterFirst : Regs := { opened with storedTS := 1010, storedDelta := 10, storedVal := 0x3FF0000000000000 }

/-- Before point 3 of X1: window (11, 52), value f(24.0). -/
def windowed : Regs :=
  { opened with storedTS := 1020, storedDelta := 10, winValid := true, storedLZ := 11, storedTZ := 52
                storedVal := 0x4038000000000000 }

/-- A unit in `ERR`. -/
def failed : Regs := { opened with phase := .error, err := 0x10 }

/-- A unit in `DONE` or `END`. -/
def done : Regs := { opened with phase := .finished }

/-! ### Well-formedness: an ill-formed term for each check, which the check refuses -/

theorem test_wf_rdreg : (Instr.encRdreg 7).wf = false ∧ (Instr.decRdreg 7).wf = false ∧ (Instr.encRdreg 6).wf = true := by
  decide

theorem test_wf_first_delta : (Instr.wireFirstPoint 0x3FFF 0).wf = false ∧ (Instr.wireFirstPoint 0x3FFE 0).wf = true := by
  decide

theorem test_wf_ts32 : (Instr.wireTs32 0xFFFFFFFF).wf = false ∧ (Instr.wireTs32 0xFFFFFFFE).wf = true := by decide

theorem test_wf_reuse :
    (Instr.wireVReuse 0 0).wf = false ∧ (Instr.wireVReuse 65 0).wf = false ∧ (Instr.wireVReuse 3 8).wf = false ∧
      (Instr.wireVReuse 3 7).wf = true := by decide +kernel

theorem test_wf_new :
    (Instr.wireVNew 31 34 0).wf = false ∧ (Instr.wireVNew 1 0 0).wf = false ∧ (Instr.wireVNew 11 1 2).wf = false ∧
      (Instr.wireVNew 31 33 1).wf = true := by decide +kernel

theorem test_wf_pad : (Instr.wirePad 8).wf = false ∧ (Instr.wirePad 7).wf = true := by decide

/-! ### Words written out from the encodings -/

/-- Command words of PG1, PG2, PG6. -/
theorem test_decode_enc :
    decodeCmd .enc 0x010000005510c5200000000000000000 = .ok (.encHeader 0x5510c520) ∧
    decodeCmd .enc 0x020000005510c5d64038000000000000 = .ok (.encPoint 0x5510c5d6 0x4038000000000000) ∧
    decodeCmd .enc 0x03000000000000000000000000000000 = .ok .encFinish ∧
    decodeCmd .enc 0x04000000000000020000000000000000 = .ok (.encRdreg 2) := by decide +kernel

theorem test_decode_dec :
    decodeCmd .dec 0x81000000000000000000000000000000 = .ok .decHeader ∧
    decodeCmd .dec 0x82000000000000000000000000000000 = .ok .decPoint ∧
    decodeCmd .dec 0x84000000000000060000000000000000 = .ok (.decRdreg 6) := by decide +kernel

/-- Illegal words of E3 to E7 and E10, and the reserved opcodes at the ends of R84's ranges. -/
theorem test_decode_illegal :
    decodeCmd .enc 0x01000000000003e80000000000000001 = .error .unusedNotZero ∧
    decodeCmd .enc 0x82000000000000000000000000000000 = .error .otherPort ∧
    decodeCmd .enc 0x04000000000000070000000000000000 = .error .reservedIndex ∧
    decodeCmd .enc 0x02000001000000050000000000000005 = .error .unusedNotZero ∧
    decodeCmd .enc 0 = .error .reservedOpcode ∧
    decodeCmd .dec 0x02000000000000050000000000000005 = .error .otherPort ∧
    decodeCmd .dec 0x81000000000000010000000000000000 = .error .unusedNotZero ∧
    decodeCmd .dec 0x84000000000000000000000000000001 = .error .unusedNotZero ∧
    decodeCmd .dec 0x83000000000000000000000000000000 = .error .reservedOpcode ∧
    decodeCmd .enc 0x05000000000000000000000000000000 = .error .reservedOpcode ∧
    decodeCmd .enc 0x80000000000000000000000000000000 = .error .reservedOpcode ∧
    decodeCmd .dec 0x85000000000000000000000000000000 = .error .reservedOpcode ∧
    decodeCmd .dec 0xff000000000000000000000000000000 = .error .reservedOpcode := by decide +kernel

/-- The header 0x5510C520 and a first point of V1, field by field. -/
theorem test_decode_header :
    decodeWire .header none (stream "01010101 00010000 11000101 00100000") = .ok (.wireHeader 0x5510c520) ∧
    decodeWire .first none
      (stream "00000000111110 0100000000101000 0000000000000000 0000000000000000 0000000000000000")
      = .ok (.wireFirstPoint 62 0x4028000000000000) ∧
    decodeWire .first none (stream "11111111111111") = .ok .wireEmptySentinel := by decide +kernel

/-- Timestamp codewords of T1, T5, T6, T13, T14 and the end sentinel's 36 one bits. -/
theorem test_decode_ts :
    decodeWire .ts none (stream "0 111") = .ok .wireTs0 ∧
    decodeWire .ts none (stream "10 1000001") = .ok (.wireTs7 65) ∧
    decodeWire .ts none (stream "110 001000001") = .ok (.wireTs9 65) ∧
    decodeWire .ts none (stream "1110 100000000001") = .ok (.wireTs12 2049) ∧
    decodeWire .ts none (stream "1111 00000000000000000000100000000001") = .ok (.wireTs32 2049) ∧
    decodeWire .ts none (stream "1111 11111111111111111111111111111111") = .ok .wireEndSentinel ∧
    decodeWire .ts none (stream "1111 1111111111111111111111111111111") = .error .truncated := by decide +kernel

/-- Value codewords of X1, X3, DE4, DE5 and DE9. -/
theorem test_decode_value :
    decodeWire .value none (stream "0") = .ok .wireVSame ∧
    decodeWire .value none (stream "11 01011 000001 1") = .ok (.wireVNew 11 1 1) ∧
    decodeWire .value (some 8) (stream "10 00100000") = .ok (.wireVReuse 8 32) ∧
    decodeWire .value none (stream "10") = .error .noWindow ∧
    decodeWire .value none (stream "11 11111 101000") = .error .badWindow ∧
    decodeWire .value none (stream "11 11111 100001 000000000000000000000000000000001")
      = .ok (.wireVNew 31 33 1) := by decide +kernel

theorem test_decode_pad :
    decodeWire .pad none (stream "0000") = .ok (.wirePad 4) ∧ decodeWire .pad none (stream "0100") = .error .badPad ∧
    decodeWire .pad none (stream "00000000") = .error .badPad := by decide

/-- The encoder writes the words of PG1 and the codewords of V1 and X2. -/
theorem test_encode :
    encodeCmd (.encPoint 0x5510c55e 0x4028000000000000) = 0x020000005510c55e4028000000000000 ∧
    encodeCmd (.decRdreg 6) = 0x84000000000000060000000000000000 ∧
    encodeWire (.wireTs7 126) = stream "10 1111110" ∧
    encodeWire (.wireVNew 11 1 1) = stream "11 01011 000001 1" ∧
    encodeWire .wireEndSentinel = stream "1111 11111111111111111111111111111111 0" ∧
    encodeWire (.wirePad 4) = stream "0000" := by decide +kernel

/-- Words as the opcode table numbers them: a command, and wire patterns with operand bits of ones. -/
theorem test_table_words :
    decodeTableWord 128 0x84000000000000060000000000000000 = some (.decRdreg 6) ∧
    decodeTableWord 32 1000 = some (.wireHeader 1000) ∧
    decodeTableWord 80 (0x3FFF <<< 64) = some .wireEmptySentinel ∧
    decodeTableWord 8 0 = some .wireTs0 ∧
    decodeTableWord 16 0b101111111 = some (.wireTs7 127) ∧
    decodeTableWord 16 0b110111111111 = some (.wireTs9 511) ∧
    decodeTableWord 16 0b1110111111111111 = some (.wireTs12 4095) ∧
    decodeTableWord 40 0xF00000005 = some (.wireTs32 5) ∧
    decodeTableWord 40 0x1FFFFFFFFE = some .wireEndSentinel := by decide +kernel

/-- From reset the next step runs the word placed: TS-12 with payload 2049 moves the clock by −2047 (S14, R187). -/
theorem test_placed_codeword :
    (out (step (State.reset.withFetchWord 16 0xE801))).dec.regs.storedTS = 0xFFFFF801 ∧
    (out (step (State.reset.withFetchWord 16 0xE801))).dec.source.left = [] := by decide +kernel

/-- From reset the next step runs the command placed (E1: a point before the header). -/
theorem test_placed_command :
    (out (step (State.reset.withFetchWord 128 0x020000000000000a0000000000000000))).enc.responses
      = [0x20000000000000000000000000000000] := by decide +kernel

/-- A V-new with L 31 and S 40 is read by no row; placed, its bits raise `E_BAD_WINDOW` (DE5, R103, log 2). -/
theorem test_placed_bad_window :
    decodeTableWord 16 0b1111111101000 = none ∧
    (out (step (State.reset.withFetchWord 16 0b1111111101000))).dec.responses
      = [0x14000000000000000000000000000000] := by decide +kernel

/-! ### One step of each command -/

/-- R141's example. -/
theorem test_enc_header :
    (out (exec (.encHeader 1427162400) (encAt .reset []))).enc.sink.bytes = [0x55, 0x10, 0xc5, 0x20] := by
  decide +kernel

/-- E11: the header is stored although the sink fails. -/
theorem test_enc_header_fails :
    (out (exec (.encHeader 5) (encAt .reset [.fail [] false]))).enc.regs
      = { Regs.reset with phase := .error, err := 0x10, hdrTS := 5 } := by decide +kernel

/-- T6, second point: dd = 65 takes TS-9, the value is unchanged. -/
theorem test_enc_point_ts9 :
    (out (exec (.encPoint 0x43D 0x3FF0000000000000) (encAt afterFirst []))).enc.sink.bits
      = stream "110 001000001 0" := by decide +kernel

/-- X2, third point: the XOR does not fit window (11, 52) and the new window is (11, 0). -/
theorem test_enc_point_window :
    (out (exec (.encPoint 1030 0x4028000000000001) (encAt windowed []))).enc.sink.bits
      = stream "0 11 01011 110101 10000000000000000000000000000000000000000000000000001" ∧
    (out (exec (.encPoint 1030 0x4028000000000001) (encAt windowed []))).enc.regs.storedTZ = 0 := by decide +kernel

/-- R160's example: the empty sentinel and the padding after a header. -/
theorem test_enc_finish_empty :
    (out (exec .encFinish { encAt opened [] with enc := { (encAt opened []).enc with sink := ⟨stream "01", false⟩ } })).enc.sink
      = ⟨stream "01" ++ List.replicate 14 true ++ List.replicate 64 false, true⟩ := by decide +kernel

/-- V3's end: the end sentinel, 37 bits, and 3 bits of padding. -/
theorem test_enc_finish_end :
    (out (exec .encFinish (encAt afterFirst []))).enc.sink.bytes = [0xFF, 0xFF, 0xFF, 0xFF, 0xF0] := by decide +kernel

/-- PG6: `STATUS` is read in `ERR` as it is. -/
theorem test_enc_rdreg :
    (out (exec (.encRdreg 0) (encAt { failed with misuse := true, winValid := true } []))).enc.responses
      = [0x0000000000000000000000000000100f] := by decide +kernel

/-- DE1: a header that the source cannot give. -/
theorem test_dec_header_short :
    (out (exec .decHeader (decAt .reset (stream "0101") []))).dec.responses = [0x11000000000000000000000000000000] := by
  decide +kernel

/-- DEC.HEADER on V1. -/
theorem test_dec_header :
    (out (exec .decHeader (decAt .reset (stream "01010101 00010000 11000101 00100000 1") []))).dec.responses
      = [0x000000005510c5200000000000000000] := by decide +kernel

/-- X3, third point: the significant bits are shifted by the stored count. -/
theorem test_dec_point_reuse :
    (out (exec .decPoint
      (decAt { windowed with storedLZ := 4, storedVal := 0x0FF0000000000000 } (stream "0 10 00100000") []))).dec.responses
      = [0x01000000000004060DF0000000000000] := by decide +kernel

/-- DE4: reuse before any window; the clock has moved. -/
theorem test_dec_point_no_window :
    (out (exec .decPoint (decAt afterFirst (stream "0 1 0") []))).dec.regs
      = { afterFirst with phase := .error, err := 0x13, storedTS := 0x3FC } := by decide +kernel

/-- PG2: `storedVal` read by index 6, in any phase. -/
theorem test_dec_rdreg :
    (out (exec (.decRdreg 6) (decAt { done with storedVal := 0xc038333333333333 } [] []))).dec.responses
      = [0x0000000000000000c038333333333333] := by decide +kernel

/-! ### One step of each codeword -/

theorem test_wire_header : (out (exec (.wireHeader 1000) (codeAt .reset [] .header))).dec.regs = opened := by decide +kernel

/-- F1: the largest first delta. -/
theorem test_wire_first_point :
    (out (exec (.wireFirstPoint 16382 0x3FF0000000000000) (codeAt opened [] .first))).dec.responses
      = [0x01000000000043E63FF0000000000000] := by decide +kernel

theorem test_wire_sentinels :
    (out (exec .wireEmptySentinel (codeAt opened [] .first))).dec.source.rpos = 14 ∧
    (out (exec .wireEndSentinel (codeAt afterFirst [] .ts))).dec.source.rpos = 36 ∧
    (out (exec .wireEndSentinel (codeAt afterFirst [] .ts))).dec.regs = { afterFirst with phase := .finished } := by
  decide +kernel

/-- T1, T4, T5, T8, T12, T17: the corner cases of 90_conflicts.md C1 among them. -/
theorem test_wire_ts :
    (out (exec .wireTs0 (codeAt afterFirst [] .ts))).dec.regs.storedTS = 0x3FC ∧
    (out (exec (.wireTs7 64) (codeAt afterFirst [] .ts))).dec.regs.storedTS = 0x43C ∧
    (out (exec (.wireTs7 65) (codeAt afterFirst [] .ts))).dec.regs.storedTS = 0x3BD ∧
    (out (exec (.wireTs9 256) (codeAt afterFirst [] .ts))).dec.regs.storedTS = 0x4FC ∧
    (out (exec (.wireTs12 2048) (codeAt afterFirst [] .ts))).dec.regs.storedTS = 0xBFC ∧
    (out (exec (.wireTs32 0x80000000) (codeAt afterFirst [] .ts))).dec.regs.storedTS = 0x800003FC := by decide +kernel

/-- V1, points 2 and 3; X3. -/
theorem test_wire_value :
    (out (exec .wireVSame (codeAt afterFirst [] .value))).dec.responses = [0x01000000000003F23FF0000000000000] ∧
    (out (exec (.wireVReuse 1 1) (codeAt windowed [] .value))).dec.regs.storedVal = 0x4028000000000000 ∧
    (out (exec (.wireVNew 11 1 1) (codeAt { afterFirst with storedVal := 0x4028000000000000 } [] .value))).dec.regs.storedVal
      = 0x4038000000000000 := by decide +kernel

/-- DE5 and DE10: L + S of 71 and of 65; L + S of 64 is a window (DE9). -/
theorem test_wire_bad_window :
    (out (exec (.wireVNew 31 40 0) (codeAt afterFirst [] .value))).dec.regs = { afterFirst with phase := .error, err := 0x14 } ∧
    (out (exec (.wireVNew 31 34 0) (codeAt afterFirst [] .value))).dec.regs.err = 0x14 ∧
    (out (exec (.wireVNew 31 33 1) (codeAt afterFirst [] .value))).dec.regs.storedVal = 0x3FF0000000000001 := by
  decide +kernel

theorem test_wire_pad : (out (exec (.wirePad 7) (codeAt done [] .pad))) = decAt done [] [] := by decide +kernel

/-- G1: patterns of `f(0.1)`, of `f(-24.2)` and of the values of V4. -/
theorem test_assembler_float :
    parseValue "f(-24.2)".toList = some 0xC038333333333333 ∧ parseValue "f(12.5)".toList = some 0x4029000000000000 := by
  decide +kernel

/-! ### Witnesses: for each statement with hypotheses, states and operands that meet them -/

theorem test_witness_EncodedCommandDecodes :
    (Instr.encRdreg 6).port = some .enc ∧ (Instr.encRdreg 6).wf = true ∧
      (Instr.encPoint 0xFFFFFFFF 0xFFFFFFFFFFFFFFFF).port = some .enc ∧ Instr.decPoint.port = some .dec := by decide

theorem test_witness_DecodedCommandEncodes :
    decodeCmd .dec 0x84000000000000060000000000000000 = .ok (.decRdreg 6) := by decide +kernel

theorem test_witness_IllegalWordsOnlySetMisuse :
    (opcOf 0x05000000000000000000000000000000 = 0x05 ∧ opcOf 0x80000000000000000000000000000000 = 0x80 ∧
      opcOf 0x83000000000000000000000000000000 = 0x83 ∧ opcOf 0x85000000000000000000000000000000 = 0x85 ∧
      opcOf 0xFF000000000000000000000000000000 = 0xFF ∧ opcOf 0 = 0x00) ∧
    opcOf 0x82000000000000000000000000000000 = 0x82 ∧ opcOf 0x04000000000000000000000000000000 = 0x04 ∧
    (let s := encAt failed []
     s.inputs = .encCmd 0 [] :: [] ∧ s.dec.stage = none ∧ s.enc.waiting = false ∧ (∀ a ∈ s.sinkAnswers, a = SinkAnswer.ok) ∧
       legalCmd .enc 0 = false) ∧
    (let s := decAt failed [] []
     s.inputs = .decCmd 0 [] :: [] ∧ s.dec.stage = none ∧ s.dec.waiting = false ∧
       (∀ a ∈ s.sourceAnswers, a = SourceAnswer.ok) ∧ legalCmd .dec 0 = false) := by
  decide +kernel

theorem test_witness_EncodedCodewordDecodes :
    ((Instr.wireVReuse 64 0xFFFFFFFFFFFFFFFF).ctx = some .value ∧ (Instr.wireVReuse 64 0xFFFFFFFFFFFFFFFF).wf = true ∧
      (∀ n x, Instr.wireVReuse 64 0xFFFFFFFFFFFFFFFF = .wireVReuse n x → some 64 = some n)) ∧
    ((Instr.wirePad 7).ctx = some .pad ∧ (Instr.wirePad 7).wf = true ∧ (CodeCtx.pad = .pad → ([] : Bits) = [])) := by
  refine ⟨⟨rfl, by decide +kernel, ?_⟩, rfl, rfl, fun _ => rfl⟩
  rintro n x ⟨⟩
  rfl

theorem test_witness_DecodedCodewordEncodes :
    (∀ n, some 64 = some n → 1 ≤ n ∧ n ≤ 64) ∧
      decodeWire .value (some 64) (stream "10" ++ List.replicate 64 true) = .ok (.wireVReuse 64 0xFFFFFFFFFFFFFFFF) ∧
      decodeWire .pad (some 64) (stream "0000000") = .ok (.wirePad 7) := by
  refine ⟨?_, by decide +kernel, by decide⟩
  rintro n ⟨⟩
  omega

theorem test_witness_EveryTimestampPrefixIsRead : 36 ≤ (List.replicate 36 true).length := by decide

theorem test_witness_ZeroCountsFindTheSetBits : (0x0010000000000000 : Value) ≠ 0 := by decide

theorem test_witness_SignedFieldsRoundTrip :
    (-63 : Int) ≤ 64 ∧ (-255 : Int) ≤ 256 ∧ (-2047 : Int) ≤ 2048 ∧ (-2 : Int) ^ 31 ≤ 2 ^ 31 - 1 := by decide

theorem test_witness_BucketBoundaries :
    (bucket (-2 ^ 31)).width = 32 ∧ (bucket (2 ^ 31 - 1)).width = 32 ∧ (bucket 2049).width = 32 := by decide

theorem test_witness_SelectorEmitsTheTablesCodeword :
    (-(2 : Int) ^ 31) ≤ -2 ^ 31 ∧ (-(2 : Int) ^ 31) < 2 ^ 31 := by decide

theorem test_witness_UnpackingInvertsPacking :
    7 ≤ 7 ∧ 0 < ([0x80] : List Byte).length ∧ (stream "10000000").length % 8 = 0 := by decide

/-- Exactly enough bits for a read of 64 and of 1, and one bit too few. -/
theorem test_witness_SourceReadTakesOrTruncates :
    let r : DecRun := ⟨opened, ⟨List.replicate 8 0xA5, 0⟩, [.ok], 0⟩
    (∀ a ∈ r.answers, a = SourceAnswer.ok) ∧ r.source.rpos + 64 ≤ r.source.bits.length ∧
      r.source.rpos + 1 ≤ r.source.bits.length ∧
      ({ r.source with rpos := 1 } : Source).bits.length < ({ r.source with rpos := 1 } : Source).rpos + 64 := by
  decide +kernel

/-- The state of a command on which every access is answered `ok`. -/
theorem sinkOk_encAt (r : Regs) : SinkOk (encAt r [.ok, .ok, .ok, .ok, .ok, .ok]) := by
  unfold SinkOk encAt State.sinkAnswers
  simp

theorem sourceOk_decAt (r : Regs) (b : Bits) : SourceOk (decAt r b [.ok, .ok]) := by
  unfold SourceOk decAt State.sourceAnswers
  simp

theorem test_witness_EncHeaderWritesT0 :
    (∃ s : State, s.enc.regs.phase = .init ∧ SinkOk s) ∧
    (∃ (s : State) (left : Bits) (fl : Bool) (rest : List SinkAnswer), s.enc.regs.phase = .init ∧
      s.sinkAnswers = .fail left fl :: rest ∧ ∀ a ∈ rest, a = SinkAnswer.ok) ∧
    (∃ s : State, s.enc.regs.phase = .opened ∧ SinkOk s) ∧ (∃ s : State, s.enc.regs.phase = .finished ∧ SinkOk s) ∧
    (opcOf 0x01000000000003e80000000000000001 = 0x01 ∧ valOf 0x01000000000003e80000000000000001 ≠ 0) ∧
    (opcOf 0x01000001000003e80000000000000000 = 0x01 ∧ rsvOf 0x01000001000003e80000000000000000 ≠ 0) :=
  ⟨⟨_, rfl, sinkOk_encAt .reset⟩, ⟨encAt .reset [.fail [true] true, .ok], _, _, _, rfl, rfl, by simp⟩,
    ⟨_, rfl, sinkOk_encAt opened⟩, ⟨_, rfl, sinkOk_encAt done⟩, by decide +kernel, by decide +kernel⟩

theorem test_witness_EncPointFirstPath :
    ∃ s : State, s.enc.regs.phase = .opened ∧ s.enc.regs.storedTS = 0 ∧ SinkOk s :=
  ⟨_, rfl, rfl, sinkOk_encAt opened⟩

/-- Without a window and with one; also of BitsPerPoint and AppendedBitsDependOnRegistersOnly. -/
theorem test_witness_EncPointSubsequentPath :
    (∃ s : State, s.enc.regs.phase = .opened ∧ s.enc.regs.storedTS ≠ 0 ∧ s.enc.regs.winValid = false ∧ SinkOk s) ∧
    (∃ s : State, s.enc.regs.phase = .opened ∧ s.enc.regs.storedTS ≠ 0 ∧ s.enc.regs.winValid = true ∧ SinkOk s) :=
  ⟨⟨_, rfl, by decide, rfl, sinkOk_encAt afterFirst⟩, ⟨_, rfl, by decide, rfl, sinkOk_encAt windowed⟩⟩

/-- The sink fails at the last access: the second of the first path, the fourth of a subsequent point with TS-9 and V-reuse. -/
theorem test_witness_EncPointCommitsBeforeWriting :
    (∃ s : State, s.enc.regs.phase = .opened ∧ SinkOk s) ∧
    (let s := encAt opened [.ok, .fail [true] true, .never]
     s.enc.regs.phase = .opened ∧ s.enc.regs.storedTS = 0 ∧ 1 < (s.encAccesses (.encPoint 5 6)).length ∧
       s.sinkAnswers = List.replicate 1 .ok ++ .fail [true] true :: [.never] ∧
       (∀ kept more, [SinkAnswer.never] ≠ .reset kept :: more)) ∧
    (let s := encAt windowed [.ok, .ok, .ok, .fail [] false]
     s.enc.regs.phase = .opened ∧ s.enc.regs.storedTS ≠ 0 ∧
       3 < (s.encAccesses (.encPoint 1095 0x4028000000000000)).length ∧
       s.sinkAnswers = List.replicate 3 .ok ++ .fail [] false :: [] ∧
       (∀ kept more, ([] : List SinkAnswer) ≠ .reset kept :: more)) :=
  ⟨⟨_, rfl, sinkOk_encAt opened⟩, ⟨rfl, rfl, by decide +kernel, rfl, by simp⟩,
    ⟨rfl, by decide, by decide +kernel, rfl, by simp⟩⟩

/-- A failure at the flush, the last access, of either sentinel. -/
theorem test_witness_EncFinishWritesTheSentinel :
    (∃ s : State, s.enc.regs.phase = .opened ∧ s.enc.regs.storedTS = 0 ∧ SinkOk s) ∧
    (∃ s : State, s.enc.regs.phase = .opened ∧ s.enc.regs.storedTS ≠ 0 ∧ SinkOk s) ∧
    (∃ (s : State) (left : Bits) (fl : Bool) (rest : List SinkAnswer), s.enc.regs.phase = .opened ∧
      2 < (if s.enc.regs.storedTS = 0 then 3 else 4) ∧
      s.sinkAnswers = List.replicate 2 .ok ++ .fail left fl :: rest ∧ ∀ a ∈ rest, a = SinkAnswer.ok) ∧
    (∃ (s : State) (left : Bits) (fl : Bool) (rest : List SinkAnswer), s.enc.regs.phase = .opened ∧
      3 < (if s.enc.regs.storedTS = 0 then 3 else 4) ∧
      s.sinkAnswers = List.replicate 3 .ok ++ .fail left fl :: rest ∧ ∀ a ∈ rest, a = SinkAnswer.ok) ∧
    (∃ s : State, s.enc.regs.phase = .init ∧ SinkOk s) ∧
    (∃ s : State, s.enc.regs.phase = .finished ∧ SinkOk s ∧ Instr.encFinish.port = some .enc ∧
      ∀ idx, Instr.encFinish ≠ .encRdreg idx) :=
  ⟨⟨_, rfl, rfl, sinkOk_encAt opened⟩, ⟨_, rfl, by decide, sinkOk_encAt afterFirst⟩,
    ⟨encAt opened [.ok, .ok, .fail [] false], _, _, _, rfl, by decide, rfl, by simp⟩,
    ⟨encAt afterFirst [.ok, .ok, .ok, .fail [] false], _, _, _, rfl, by decide, rfl, by simp⟩,
    ⟨_, rfl, sinkOk_encAt .reset⟩, ⟨_, rfl, sinkOk_encAt done, rfl, fun _ h => by cases h⟩⟩

theorem test_witness_EncRdregReturnsTheRegister :
    (6 : BitVec 3) ≠ 7 ∧ (∃ s : State, s.enc.regs.phase = .error ∧ SinkOk s) ∧
    (opcOf 0x04000000000000070000000000000000 = 0x04 ∧ (tsOf 0x04000000000000070000000000000000).extractLsb' 0 3 = 7) ∧
    (tsOf 0x04000000000000080000000000000000).extractLsb' 3 29 ≠ 0 ∧ valOf 0x04000000000000000000000000000001 ≠ 0 ∧
    rsvOf 0x04000001000000000000000000000000 ≠ 0 :=
  ⟨by decide, ⟨_, rfl, sinkOk_encAt failed⟩, by decide +kernel⟩

theorem test_witness_DecRdregReturnsTheRegister :
    (6 : BitVec 3) ≠ 7 ∧ (∃ s : State, s.dec.regs.phase = .error ∧ SourceOk s) ∧
    (opcOf 0x84000000000000070000000000000000 = 0x84 ∧ (tsOf 0x84000000000000070000000000000000).extractLsb' 0 3 = 7) ∧
    valOf 0x84000000000000000000000000000001 ≠ 0 :=
  ⟨by decide, ⟨_, rfl, sourceOk_decAt failed []⟩, by decide +kernel⟩

theorem test_witness_WrongPhaseOnlySetsMisuse :
    (∀ p : Phase, ∃ s : State, s.enc.regs.phase = p ∧ SinkOk s) ∧ (∀ p : Phase, ∃ s : State, s.dec.regs.phase = p ∧ SourceOk s) :=
  ⟨fun p => ⟨_, rfl, sinkOk_encAt { opened with phase := p }⟩, fun p => ⟨_, rfl, sourceOk_decAt { opened with phase := p } []⟩⟩

theorem test_witness_DecHeaderReadsT0 :
    (∃ (s : State) (rest : Bits), s.dec.regs.phase = .init ∧ SourceOk s ∧ s.dec.source.left = bin 32 1000 ++ rest) ∧
    (∃ s : State, s.dec.regs.phase = .init ∧ SourceOk s ∧ s.dec.source.bits.length < s.dec.source.rpos + 32) ∧
    (∃ s : State, s.dec.regs.phase = .finished ∧ SourceOk s) ∧
    (opcOf 0x81000000000000010000000000000000 = 0x81 ∧ tsOf 0x81000000000000010000000000000000 ≠ 0) :=
  ⟨⟨_, [true], rfl, sourceOk_decAt .reset (bin 32 1000 ++ [true]), by decide +kernel⟩,
    ⟨_, rfl, sourceOk_decAt .reset (zeros 31), by decide +kernel⟩, ⟨_, rfl, sourceOk_decAt done []⟩, by decide +kernel⟩

/-- With the largest delta that is a point, and the sentinel with nothing after it. -/
theorem test_witness_DecPointFirstPath :
    (∃ (s : State) (rest : Bits), s.dec.regs.phase = .opened ∧ s.dec.regs.storedTS = 0 ∧ SourceOk s ∧
      (0x3FFE : BitVec 14) ≠ 0x3FFF ∧ s.dec.source.left = bin 14 0x3FFE ++ bin 64 5 ++ rest) ∧
    (∃ (s : State) (rest : Bits), s.dec.regs.phase = .opened ∧ s.dec.regs.storedTS = 0 ∧ SourceOk s ∧
      s.dec.source.left = ones 14 ++ rest) :=
  ⟨⟨_, [], rfl, rfl, sourceOk_decAt opened (bin 14 0x3FFE ++ bin 64 5 ++ []), by decide, by decide +kernel⟩,
    ⟨_, [], rfl, rfl, sourceOk_decAt opened (ones 14 ++ []), by decide +kernel⟩⟩

theorem test_witness_DecPointRunsTheCodewords :
    (∃ (s : State) (rest : Bits), s.dec.regs.phase = .opened ∧ s.dec.regs.storedTS = 0 ∧ SourceOk s ∧
      Instr.wireEmptySentinel.ctx = some .first ∧ Instr.wireEmptySentinel.wf = true ∧
      s.dec.source.left = (encodeWire .wireEmptySentinel).take Instr.wireEmptySentinel.readLen ++ rest) ∧
    (∃ (s : State) (rest : Bits), s.dec.regs.phase = .opened ∧ s.dec.regs.storedTS ≠ 0 ∧ SourceOk s ∧
      s.dec.source.left = ones 36 ++ rest) ∧
    (∃ (s : State) (rest : Bits), s.dec.regs.phase = .opened ∧ s.dec.regs.storedTS ≠ 0 ∧ SourceOk s ∧
      (Instr.wireTs7 64).ctx = some .ts ∧ Instr.wireTs7 64 ≠ .wireEndSentinel ∧ (Instr.wireTs7 64).wf = true ∧
      (Instr.wireVReuse 1 1).ctx = some .value ∧ (Instr.wireVReuse 1 1).wf = true ∧
      (∀ n x, Instr.wireVReuse 1 1 = .wireVReuse n x → s.dec.regs.winValid = true ∧ n = s.dec.regs.reuseWidth) ∧
      s.dec.source.left = encodeWire (.wireTs7 64) ++ encodeWire (.wireVReuse 1 1) ++ rest) := by
  refine ⟨⟨_, [], rfl, rfl, sourceOk_decAt opened (ones 14), rfl, rfl, by decide +kernel⟩,
    ⟨_, [], rfl, by decide, sourceOk_decAt afterFirst (ones 36), by decide +kernel⟩,
    ⟨_, [true], rfl, by decide, sourceOk_decAt windowed (stream "10 1000000 10 1 1"), rfl, by decide, rfl, rfl,
      by decide +kernel, ?_, by decide +kernel⟩⟩
  rintro n x ⟨⟩
  exact ⟨rfl, by decide +kernel⟩

theorem test_witness_DecPointWindowErrors :
    (∃ (s : State) (rest : Bits), s.dec.regs.phase = .opened ∧ s.dec.regs.storedTS ≠ 0 ∧ SourceOk s ∧
      Instr.wireTs0.ctx = some .ts ∧ Instr.wireTs0 ≠ .wireEndSentinel ∧ Instr.wireTs0.wf = true ∧
      (∃ t, exec .wireTs0 s = .next t) ∧ s.dec.regs.winValid = false ∧
      s.dec.source.left = encodeWire .wireTs0 ++ [true, false] ++ rest) ∧
    (∃ (s : State) (rest : Bits), s.dec.regs.phase = .opened ∧ s.dec.regs.storedTS ≠ 0 ∧ SourceOk s ∧
      (∃ t, exec .wireTs0 s = .next t) ∧
      (31 : BitVec 5).toNat + (if (34 : BitVec 6) = 0 then 64 else (34 : BitVec 6).toNat) > 64 ∧
      s.dec.source.left = encodeWire .wireTs0 ++ [true, true] ++ bin 5 31 ++ bin 6 34 ++ rest) :=
  ⟨⟨_, [], rfl, by decide, sourceOk_decAt afterFirst (stream "0 1 0"), rfl, by decide, rfl, ⟨_, rfl⟩, rfl,
      by decide +kernel⟩,
    ⟨_, [], rfl, by decide, sourceOk_decAt afterFirst (stream "0 11 11111 100010"), ⟨_, rfl⟩, by decide,
      by decide +kernel⟩⟩

/-- The value codeword's 13 control and field bits are all there; one bit too few of each other codeword. -/
theorem test_witness_ShortReadKeepsTheWritesBefore :
    (∃ (s : State) (part missing : Bits), s.dec.regs.phase = .opened ∧ s.dec.regs.storedTS ≠ 0 ∧ SourceOk s ∧
      Instr.wireTs0.ctx = some .ts ∧ Instr.wireTs0 ≠ .wireEndSentinel ∧ Instr.wireTs0.wf = true ∧
      (Instr.wireVNew 11 1 1).ctx = some .value ∧ (Instr.wireVNew 11 1 1).wf = true ∧
      (∀ n x, Instr.wireVNew 11 1 1 = .wireVReuse n x → s.dec.regs.winValid = true ∧ n = s.dec.regs.reuseWidth) ∧
      (∃ t, exec .wireTs0 s = .next t) ∧ encodeWire (.wireVNew 11 1 1) = part ++ missing ∧ missing ≠ [] ∧
      s.dec.source.left = encodeWire .wireTs0 ++ part) ∧
    (∃ s : State, s.dec.regs.phase = .opened ∧ s.dec.regs.storedTS ≠ 0 ∧ SourceOk s ∧
      Instr.wireEndSentinel.ctx = some .ts ∧ 35 < Instr.wireEndSentinel.readLen ∧
      s.dec.source.left = (encodeWire .wireEndSentinel).take 35) ∧
    (∃ s : State, s.dec.regs.phase = .opened ∧ s.dec.regs.storedTS = 0 ∧ SourceOk s ∧ s.dec.source.left.length < 14) ∧
    (∃ (s : State) (part : Bits), s.dec.regs.phase = .opened ∧ s.dec.regs.storedTS = 0 ∧ SourceOk s ∧
      (62 : BitVec 14) ≠ 0x3FFF ∧ part.length < 64 ∧ s.dec.source.left = bin 14 62 ++ part) :=
  ⟨⟨_, stream "11 01011 000001", [true], rfl, by decide, sourceOk_decAt afterFirst (stream "0 11 01011 000001"), rfl,
      by decide, rfl, rfl, by decide +kernel, (by rintro n x ⟨⟩), ⟨_, rfl⟩, by decide +kernel, by decide,
      by decide +kernel⟩,
    ⟨_, rfl, by decide, sourceOk_decAt afterFirst (ones 35), rfl, by decide, by decide +kernel⟩,
    ⟨_, rfl, rfl, sourceOk_decAt opened (ones 13), by decide +kernel⟩,
    ⟨_, zeros 63, rfl, rfl, sourceOk_decAt opened (bin 14 62 ++ zeros 63), by decide, by decide, by decide +kernel⟩⟩

/-- L + S of exactly 64, and of 65. -/
theorem test_witness_ValueCodewordsRebuildTheValue :
    windowed.winValid = true ∧ afterFirst.winValid = false ∧
    (31 : BitVec 5).toNat + (if (33 : BitVec 6) = 0 then 64 else (33 : BitVec 6).toNat) ≤ 64 ∧
    64 < (1 : BitVec 5).toNat + (if (0 : BitVec 6) = 0 then 64 else (0 : BitVec 6).toNat) := by decide

theorem test_witness_BlockAndTimestampCodewords :
    (0x3FFE : BitVec 14) ≠ 0x3FFF ∧ (0xFFFFFFFE : BitVec 32) ≠ 0xFFFFFFFF := by decide

theorem test_witness_UnitsShareNothing :
    (∃ t, exec (.encHeader 5) (encAt .reset []) = .next t) ∧ (Instr.encHeader 5).port = some .enc ∧
    Instr.decHeader.port ≠ some .enc ∧ (∃ t, exec .decHeader (encAt .reset []) = .next t) ∧
    (encAt .reset []).inputs = (encAt opened []).inputs ∧ (encAt .reset []).dec = (encAt opened []).dec ∧
    (∃ t, step (encAt .reset []) = .next t) ∧ (encAt .reset []).dec.stage = none ∧ (Input.encCmd 0 []).unit = .enc ∧
    (∃ t, step (decAt .reset [] []) = .next t) ∧ (decAt .reset [] []).inputs = [.decCmd 0 []] ∧
    (Input.decCmd 0 []).unit = .dec :=
  ⟨⟨_, rfl⟩, rfl, by decide, ⟨_, rfl⟩, rfl, rfl, ⟨_, rfl⟩, rfl, rfl, ⟨_, rfl⟩, rfl, rfl⟩

/-- A state of the invariant in which both units hold an error and a recorded misuse, and a step of it. -/
def errState : State :=
  { encAt { failed with misuse := true } [] with dec := { (encAt .reset []).dec with regs := { failed with err := 0x14, misuse := true } } }

theorem errState_inv : errState.Inv where
  encWindow := ⟨by decide, by decide⟩
  decWindow := ⟨by decide, by decide⟩
  encErr := ⟨by decide, by decide⟩
  decErr := ⟨by decide, by decide⟩
  encInit := by intro h; exact absurd h (by decide)
  decInit := by intro h; exact absurd h (by decide)
  between := rfl

/-- Before the first error, with a window; the next command is a point on a sink that fails (ErrIsWrittenOnce). -/
theorem freshState_inv : (encAt windowed [.fail [] false]).Inv where
  encWindow := ⟨by decide, by decide⟩
  decWindow := ⟨by decide, by decide⟩
  encErr := ⟨by decide, by decide⟩
  decErr := ⟨by decide, by decide⟩
  encInit := by intro h; exact absurd h (by decide)
  decInit := by intro _; rfl
  between := rfl

/-- Of MisuseIsSticky, ErrIsWrittenOnce and EveryStepKeepsTheInvariant: `misuse` and `err` are kept, and both are set. -/
theorem test_witness_StepInvariants :
    (errState.Inv ∧ (∃ t, step errState = .next t) ∧ errState.encResets = false ∧ errState.decResets = false ∧
      errState.enc.regs.misuse = true ∧ errState.dec.regs.misuse = true ∧ errState.enc.regs.err ≠ 0 ∧
      errState.dec.regs.err ≠ 0) ∧
    ((encAt windowed [.fail [] false]).Inv ∧ (∃ t, step (encAt windowed [.fail [] false]) = .next t)) ∧
    ((out (step (encAt .reset []))).enc.responses = (encAt .reset []).enc.responses ++ [responseWord 0x21 0 0] ∧
      (out (step (decAt .reset [] []))).dec.responses = (decAt .reset [] []).dec.responses ++ [responseWord 0x21 0 0]) ∧
    (let s := { encAt windowed [] with inputs := [.encCmd (encodeCmd (.encPoint 0 0)) [.fail [] false]] }
     s.enc.regs.err = 0 ∧ (out (step s)).enc.regs.err ≠ 0 ∧ s.encResets = false) :=
  ⟨⟨errState_inv, ⟨_, rfl⟩, by decide +kernel, by decide +kernel, by decide, by decide, by decide, by decide⟩,
    ⟨freshState_inv, ⟨_, rfl⟩⟩, by decide +kernel, by decide +kernel⟩

theorem test_witness_ResetAndAttachSteps :
    State.reset.dec.stage = none ∧ ({ State.reset with inputs := [.encRst] } : State).inputs = .encRst :: [] ∧
    ({ State.reset with inputs := [.attachSource [1]] } : State).inputs = .attachSource [1] :: [] := ⟨rfl, rfl, rfl⟩

/-- The reset at once, at the flush, and before the response of a finish, of a point and of a header. -/
theorem test_witness_ResetAbandonsAnEncoderCommand :
    (Instr.encFinish.port = some .enc ∧ (Instr.encPoint 5 6).port = some .enc ∧ (Instr.encHeader 5).port = some .enc) ∧
    (encAt failed [.reset 3]).sinkAnswers = List.replicate 0 .ok ++ .reset 3 :: [] ∧
    (let s := encAt opened [.ok, .ok, .reset 1]
     2 ≤ (s.encAccesses .encFinish).length ∧ s.sinkAnswers = List.replicate 2 .ok ++ .reset 1 :: []) ∧
    (let s := encAt opened [.ok, .ok, .ok, .reset 0]
     3 = (s.encAccesses .encFinish).length ∧ s.sinkAnswers = List.replicate 3 .ok ++ .reset 0 :: []) ∧
    (let s := encAt opened [.ok, .ok, .reset 0]
     2 = (s.encAccesses (.encPoint 5 6)).length ∧ s.sinkAnswers = List.replicate 2 .ok ++ .reset 0 :: []) ∧
    (let s := encAt .reset [.ok, .reset 0]
     1 = (s.encAccesses (.encHeader 5)).length ∧ s.sinkAnswers = List.replicate 1 .ok ++ .reset 0 :: []) := by
  decide +kernel

/-- The reset at once; before a header's response; before the response of a first point and of the end; and at the
significant bits of a new window, after the clock and the window were written. -/
theorem test_witness_ResetAbandonsADecoderCommand :
    (Instr.decPoint.port = some .dec ∧ (decAt opened [] [.reset]).sourceAnswers = .reset :: []) ∧
    (let s := decAt .reset (zeros 32) [.ok, .reset]
     s.dec.regs.phase = .init ∧ s.sourceAnswers = .ok :: .reset :: [] ∧
       s.dec.source.rpos + 32 ≤ s.dec.source.bits.length) ∧
    (let i := Instr.wireFirstPoint 62 5
     let s := decAt opened (encodeWire i) [.ok, .ok, .reset]
     s.dec.regs.phase = .opened ∧ s.dec.regs.storedTS = 0 ∧ i.ctx = some .first ∧ i.wf = true ∧
       s.dec.source.left = (encodeWire i).take i.readLen ++ [] ∧ 2 ≤ i.reads.length ∧
       s.sourceAnswers = List.replicate 2 .ok ++ .reset :: []) ∧
    (let s := decAt afterFirst (ones 36) [.ok, .ok, .ok, .ok, .ok, .reset]
     s.dec.regs.phase = .opened ∧ s.dec.regs.storedTS ≠ 0 ∧ s.dec.source.left = ones 36 ++ [] ∧
       5 ≤ Instr.wireEndSentinel.reads.length ∧ s.sourceAnswers = List.replicate 5 .ok ++ .reset :: []) ∧
    (let i := Instr.wireTs7 64
     let j := Instr.wireVNew 11 1 1
     let s := decAt afterFirst (encodeWire i ++ encodeWire j) (List.replicate 7 .ok ++ [.reset])
     s.dec.regs.phase = .opened ∧ s.dec.regs.storedTS ≠ 0 ∧ i.ctx = some .ts ∧ i ≠ .wireEndSentinel ∧ i.wf = true ∧
       j.ctx = some .value ∧ j.wf = true ∧ s.dec.source.left = encodeWire i ++ encodeWire j ++ [] ∧
       7 ≤ (i.reads ++ j.reads).length ∧ s.sourceAnswers = List.replicate 7 .ok ++ .reset :: []) ∧
    (∀ n x, Instr.wireVNew 11 1 1 = .wireVReuse n x → afterFirst.winValid = true ∧ n = afterFirst.reuseWidth) :=
  ⟨by decide +kernel, by decide +kernel, by decide +kernel, by decide +kernel, by decide +kernel, by rintro n x ⟨⟩⟩

theorem test_witness_UnansweredCommandNeverFinishes :
    ((encAt .reset [.never]).sinkAnswers = .never :: [] ∧ (encAt .reset [.never]).enc.regs.phase = .init) ∧
    ((encAt opened [.never]).sinkAnswers = .never :: [] ∧ (encAt opened [.never]).enc.regs.phase = .opened) ∧
    ((decAt .reset [] [.never]).sourceAnswers = .never :: [] ∧ (decAt .reset [] [.never]).dec.regs.phase = .init) ∧
    ((decAt opened [] [.never]).sourceAnswers = .never :: [] ∧ (decAt opened [] [.never]).dec.regs.phase = .opened) ∧
    (let s := { encAt opened [] with enc := { (encAt opened []).enc with waiting := true } }
     s.dec.stage = none ∧ s.enc.waiting = true ∧ s.inputs = .encCmd 0 [] :: []) ∧
    (let s := { decAt opened [] [] with dec := { (decAt opened [] []).dec with waiting := true } }
     s.dec.stage = none ∧ s.dec.waiting = true ∧ s.inputs = .decCmd 0 [] :: []) := by decide +kernel

theorem test_witness_StepRunsTheInstruction :
    (let s := { encAt .reset [] with inputs := [.encCmd 0x01000000000003e80000000000000000 []] }
     s.dec.stage = none ∧ s.enc.waiting = false ∧ decodeCmd .enc 0x01000000000003e80000000000000000 = .ok (.encHeader 1000)) ∧
    (let s := { decAt .reset [] [] with inputs := [.decCmd 0x81000000000000000000000000000000 []] }
     s.dec.stage = none ∧ s.dec.waiting = false ∧ decodeCmd .dec 0x81000000000000000000000000000000 = .ok .decHeader) ∧
    (let s := codeAt windowed (stream "10 1") .value
     s.dec.stage = some .value ∧
       decodeWire .value s.dec.regs.window s.dec.source.left = .ok (.wireVReuse 1 1)) ∧
    (State.reset.dec.stage = none ∧ State.reset.inputs = []) := by decide +kernel

theorem test_witness_AppendedBitsDependOnRegistersOnly :
    ∃ s s' : State, s ≠ s' ∧ s.enc.regs = s'.enc.regs ∧ SinkOk s ∧ SinkOk s' ∧
      (∃ t, exec (.encPoint 5 6) s = .next t) ∧ ∃ t', exec (.encPoint 5 6) s' = .next t' :=
  ⟨encAt windowed [.ok, .ok, .ok, .ok, .ok, .ok],
    { encAt windowed [.ok, .ok, .ok, .ok, .ok, .ok] with dec := (decAt done [] []).dec }, by decide +kernel, rfl,
    sinkOk_encAt windowed, sinkOk_encAt windowed, ⟨_, rfl⟩, ⟨_, rfl⟩⟩

/-- On the first path, and on the subsequent one with each of the three value codewords (X1 and X2). -/
theorem test_witness_BitsPerPoint :
    (∃ s : State, s.enc.regs.phase = .opened ∧ s.enc.regs.storedTS = 0 ∧ SinkOk s) ∧
    (∃ s : State, s.enc.regs.phase = .opened ∧ s.enc.regs.storedTS ≠ 0 ∧ SinkOk s ∧
      valueCodeword s.enc.regs 0x4038000000000000 = .wireVSame ∧
      valueCodeword s.enc.regs 0x4028000000000000 = .wireVReuse 1 1 ∧
      valueCodeword s.enc.regs 0x4028000000000001 = .wireVNew 11 53 0x10000000000001) :=
  ⟨⟨_, rfl, rfl, sinkOk_encAt opened⟩, ⟨_, rfl, by decide, sinkOk_encAt windowed, by decide +kernel⟩⟩

/-- F2 and F4: deltas 16383 and 0xFFFFFFFF. -/
theorem test_witness_SentinelDeltaEndsTheBlock :
    (∃ s : State, s.enc.regs.phase = .opened ∧ s.enc.regs.storedTS = 0 ∧ SinkOk s ∧
      ((17383 : Time) - s.enc.regs.hdrTS).toNat % 2 ^ 14 = 16383 ∧
      ((999 : Time) - s.enc.regs.hdrTS).toNat % 2 ^ 14 = 16383) ∧
    (∃ (d : State) (rest : Bits), d.dec.regs.phase = .opened ∧ d.dec.regs.storedTS = 0 ∧ SourceOk d ∧
      d.dec.source.left = (out (exec (.encPoint 17383 0) (encAt opened []))).enc.sink.bits ++ rest) :=
  ⟨⟨_, rfl, rfl, sinkOk_encAt opened, by decide, by decide⟩,
    ⟨_, [], rfl, rfl, sourceOk_decAt opened (ones 14 ++ zeros 64), by decide +kernel⟩⟩

/-- On both paths, the first with the largest delta the round trip admits. -/
theorem test_witness_DecoderInvertsTheEncoder :
    (∃ (e d : State) (rest : Bits), e.enc.regs.phase = .opened ∧ d.dec.regs.phase = .opened ∧ CodecEq e.enc.regs d.dec.regs ∧
      d.dec.regs.WindowInv ∧ SinkOk e ∧ SourceOk d ∧
      (e.enc.regs.storedTS = 0 → ((17382 : Time) - e.enc.regs.hdrTS).toNat ≤ 16382) ∧
      d.dec.source.left = (out (exec (.encPoint 17382 7) e)).enc.sink.bits ++ rest) ∧
    (∃ (e d : State) (rest : Bits), e.enc.regs.phase = .opened ∧ d.dec.regs.phase = .opened ∧ CodecEq e.enc.regs d.dec.regs ∧
      d.dec.regs.WindowInv ∧ SinkOk e ∧ SourceOk d ∧
      (e.enc.regs.storedTS = 0 → ((1030 : Time) - e.enc.regs.hdrTS).toNat ≤ 16382) ∧
      d.dec.source.left = (out (exec (.encPoint 1030 0x4028000000000000) e)).enc.sink.bits ++ rest) :=
  ⟨⟨_, _, [true], rfl, rfl, ⟨rfl, rfl, rfl, rfl, rfl, rfl, rfl⟩, ⟨by decide, by decide⟩, sinkOk_encAt opened,
      sourceOk_decAt opened (bin 14 16382 ++ bin 64 7 ++ [true]), by decide, by decide +kernel⟩,
    ⟨_, _, [true], rfl, rfl, ⟨rfl, rfl, rfl, rfl, rfl, rfl, rfl⟩, ⟨by decide, by decide⟩, sinkOk_encAt windowed,
      sourceOk_decAt windowed (stream "0 10 1 1"), by decide, by decide +kernel⟩⟩

/-- Z2's points, a timestamp of 0 among them, and a list of answers that are all `ok`. -/
theorem test_witness_MarshalUnmarshalRoundTrip :
    (∀ n, ∀ a ∈ (fun _ : Nat => [SinkAnswer.ok]) n, a = SinkAnswer.ok) ∧
      firstPathOk 100 0 [(150, 0x3FF0000000000000), (0, 0x3FF0000000000000)] = true := by
  refine ⟨?_, by decide +kernel⟩
  simp

end Sys2Proof.Tests
end

/-! ### The register views (R33, R34, R88) -/

namespace Sys2Proof.Machine

/-- The status of a response word is the one it was made with (R88). -/
@[simp] theorem stOf_responseWord (st : BitVec 8) (rts : Time) (rval : Value) :
    stOf (responseWord st rts rval) = st := by
  unfold stOf responseWord
  rw [BitVec.extractLsb'_append_eq_of_le (by decide), BitVec.extractLsb'_append_eq_of_le (by decide)]
  exact BitVec.extractLsb'_append_eq_left

theorem responseWord_st_inj {st st' : BitVec 8} {rts rts' : Time} {rval rval' : Value}
    (h : responseWord st rts rval = responseWord st' rts' rval') : st = st' := by
  simpa using congrArg stOf h

section StatusView

variable (r : Regs)

theorem statusWord_phase : (statusWord r).extractLsb' 0 2 = r.phase.code := BitVec.extractLsb'_append_eq_right

theorem statusWord_winValid : (statusWord r).getLsbD 2 = r.winValid := by
  simp only [statusWord, BitVec.getLsbD_append]
  simp

theorem statusWord_misuse : (statusWord r).getLsbD 3 = r.misuse := by
  simp only [statusWord, BitVec.getLsbD_append]
  simp

/-- Above `phase`, `winValid` and `misuse` the view holds four zeros, `err`, and zeros again. -/
theorem statusWord_extractLsb'_of_four_le {start len : Nat} (h : 4 ≤ start) :
    (statusWord r).extractLsb' start len
      = ((0 : BitVec 48) ++ r.err ++ (0 : BitVec 4)).extractLsb' (start - 4) len := by
  unfold statusWord
  rw [BitVec.extractLsb'_append_eq_of_le (by omega), BitVec.extractLsb'_append_eq_of_le (by omega),
    BitVec.extractLsb'_append_eq_of_le (by omega), Nat.sub_sub, Nat.sub_sub]

theorem statusWord_zeros_below_err : (statusWord r).extractLsb' 4 4 = 0 := by
  rw [statusWord_extractLsb'_of_four_le r le_rfl]
  exact BitVec.extractLsb'_append_eq_right

theorem statusWord_err : (statusWord r).extractLsb' 8 8 = r.err := by
  rw [statusWord_extractLsb'_of_four_le r (by decide), BitVec.extractLsb'_append_eq_of_le le_rfl]
  exact BitVec.extractLsb'_append_eq_right

theorem statusWord_zeros_above_err : (statusWord r).extractLsb' 16 48 = 0 := by
  rw [statusWord_extractLsb'_of_four_le r (by decide), BitVec.extractLsb'_append_eq_of_le (by decide)]
  exact BitVec.extractLsb'_append_eq_left

end StatusView

/-- Every index of the register map reads 0 after reset (R34, R40). -/
theorem readReg_reset (idx : BitVec 3) : readReg Regs.reset idx = 0 := by
  revert idx
  decide

/-- Settles O20: each field of `STATUS` is a slice of the appended word, and the map of R34 has one case per index. -/
theorem registerMapAndStatusLayout : Obligations.RegisterMapAndStatusLayout := by
  refine ⟨fun r => ⟨?_, statusWord_winValid r, statusWord_misuse r, statusWord_zeros_below_err r, statusWord_err r,
    statusWord_zeros_above_err r⟩, fun r => ⟨rfl, rfl, rfl, rfl, rfl, rfl, rfl⟩, readReg_reset⟩
  rw [statusWord_phase]
  cases r.phase <;> rfl

/-! ### The registers after reset (R40) -/

/-- Settles O37: power-on and each unit's reset input leave `Regs.reset`. -/
theorem registersAfterReset : Obligations.RegistersAfterReset := by
  intro r hr
  obtain rfl : r = Regs.reset := by
    obtain rfl | rfl | ⟨s, rfl⟩ | ⟨s, rfl⟩ := hr
    · rfl
    · rfl
    · exact EncUnit.reset_regs s.enc
    · exact DecUnit.reset_regs s.dec
  exact ⟨rfl, rfl, rfl, rfl, rfl, rfl, rfl, rfl, rfl, rfl⟩

end Sys2Proof.Machine

namespace Sys2Proof.Machine

/-! ### What a step is, one equation per action of the host -/

section StepEquations

variable {s : State} {w : Word} {rest : List Input}

theorem step_idle (hs : s.dec.stage = none) (hi : s.inputs = []) : step s = .next s := by
  simp [step, fetch, hs, hi]

theorem step_encCmd_legal {a : List SinkAnswer} {i : Instr} (hs : s.dec.stage = none) (hi : s.inputs = .encCmd w a :: rest)
    (hw : s.enc.waiting = false) (hd : decodeCmd .enc w = .ok i) : step s = exec i s := by
  simp [step, fetch, fetchWord, hs, hi, hw, hd]

theorem step_encCmd_illegal {a : List SinkAnswer} {e : DecodeError} (hs : s.dec.stage = none)
    (hi : s.inputs = .encCmd w a :: rest) (hw : s.enc.waiting = false) (hd : decodeCmd .enc w = .error e) :
    step s = .next s.encIllegal := by
  simp [step, fetch, fetchWord, hs, hi, hw, hd]

theorem step_encCmd_busy {a : List SinkAnswer} (hs : s.dec.stage = none) (hi : s.inputs = .encCmd w a :: rest)
    (hw : s.enc.waiting = true) : step s = .fault .encBusy := by
  simp [step, fetch, fetchWord, hs, hi, hw]

theorem step_decCmd_legal {a : List SourceAnswer} {i : Instr} (hs : s.dec.stage = none)
    (hi : s.inputs = .decCmd w a :: rest) (hw : s.dec.waiting = false) (hd : decodeCmd .dec w = .ok i) :
    step s = exec i s := by
  simp [step, fetch, fetchWord, hs, hi, hw, hd]

theorem step_decCmd_illegal {a : List SourceAnswer} {e : DecodeError} (hs : s.dec.stage = none)
    (hi : s.inputs = .decCmd w a :: rest) (hw : s.dec.waiting = false) (hd : decodeCmd .dec w = .error e) :
    step s = .next s.decIllegal := by
  simp [step, fetch, fetchWord, hs, hi, hw, hd]

theorem step_decCmd_busy {a : List SourceAnswer} (hs : s.dec.stage = none) (hi : s.inputs = .decCmd w a :: rest)
    (hw : s.dec.waiting = true) : step s = .fault .decBusy := by
  simp [step, fetch, fetchWord, hs, hi, hw]

theorem step_encRst (hs : s.dec.stage = none) (hi : s.inputs = .encRst :: rest) : step s = .next s.encReset := by
  simp [step, fetch, hs, hi]

theorem step_decRst (hs : s.dec.stage = none) (hi : s.inputs = .decRst :: rest) : step s = .next s.decReset := by
  simp [step, fetch, hs, hi]

theorem step_attachSink (hs : s.dec.stage = none) (hi : s.inputs = .attachSink :: rest) :
    step s = .next s.attachSink := by
  simp [step, fetch, hs, hi]

theorem step_attachSource {bytes : List Byte} (hs : s.dec.stage = none) (hi : s.inputs = .attachSource bytes :: rest) :
    step s = .next (s.attachSource bytes) := by
  simp [step, fetch, hs, hi]

end StepEquations

/-! ### A legal word is a command of its own port (R81) -/

theorem decodeRdreg_ok {w : Word} {mk : BitVec 3 → Instr} {i : Instr} (h : decodeRdreg w mk = .ok i) :
    ∃ idx, idx ≠ 7 ∧ i = mk idx := by
  unfold decodeRdreg at h
  split_ifs at h with hunused hseven
  cases h
  exact ⟨_, hseven, rfl⟩

/-- A legal word of `ENC`'s port is one of its four commands (R81, R83). -/
theorem decodeCmd_enc_ok {w : Word} {i : Instr} (h : decodeCmd .enc w = .ok i) :
    (∃ t0, i = .encHeader t0) ∨ (∃ t v, i = .encPoint t v) ∨ i = .encFinish ∨ ∃ idx, idx ≠ 7 ∧ i = .encRdreg idx := by
  simp only [decodeCmd, decodeEncWord] at h
  split_ifs at h
  · cases h; exact .inl ⟨_, rfl⟩
  · cases h; exact .inr (.inl ⟨_, _, rfl⟩)
  · cases h; exact .inr (.inr (.inl rfl))
  · exact .inr (.inr (.inr (decodeRdreg_ok h)))

/-- A legal word of `DEC`'s port is one of its three commands (R81, R83). -/
theorem decodeCmd_dec_ok {w : Word} {i : Instr} (h : decodeCmd .dec w = .ok i) :
    i = .decHeader ∨ i = .decPoint ∨ ∃ idx, idx ≠ 7 ∧ i = .decRdreg idx := by
  simp only [decodeCmd, decodeDecWord] at h
  split_ifs at h
  · cases h; exact .inl rfl
  · cases h; exact .inr (.inl rfl)
  · exact .inr (.inr (decodeRdreg_ok h))

theorem decodeCmd_enc_port {w : Word} {i : Instr} (h : decodeCmd .enc w = .ok i) : i.port = some .enc := by
  obtain ⟨t0, rfl⟩ | ⟨t, v, rfl⟩ | rfl | ⟨idx, -, rfl⟩ := decodeCmd_enc_ok h <;> rfl

theorem decodeCmd_dec_port {w : Word} {i : Instr} (h : decodeCmd .dec w = .ok i) : i.port = some .dec := by
  obtain rfl | rfl | ⟨idx, -, rfl⟩ := decodeCmd_dec_ok h <;> rfl

/-! ### The units share nothing (R22) -/

/-- `F` works on the encoder alone: it leaves the decoder as it is, and the encoder after it depends only on the encoder and
the host's actions before it. -/
structure EncOnly (F : State → State) : Prop where
  frame : ∀ s, (F s).dec = s.dec
  depends : ∀ s s', s.inputs = s'.inputs → s.enc = s'.enc → (F s).enc = (F s').enc

/-- The same of the decoder. -/
structure DecOnly (F : State → State) : Prop where
  frame : ∀ s, (F s).enc = s.enc
  depends : ∀ s s', s.inputs = s'.inputs → s.dec = s'.dec → (F s).dec = (F s').dec

theorem encRun_congr {s s' : State} (hi : s.inputs = s'.inputs) (he : s.enc = s'.enc) : s.encRun = s'.encRun := by
  simp [State.encRun, State.sinkAnswers, hi, he]

theorem decRun_congr {s s' : State} (hi : s.inputs = s'.inputs) (hd : s.dec = s'.dec) : s.decRun = s'.decRun := by
  simp [State.decRun, State.sourceAnswers, hi, hd]

theorem codeRun_congr {s s' : State} (hd : s.dec = s'.dec) : s.codeRun = s'.codeRun := by
  simp [State.codeRun, hd]

/-- The end of a command takes nothing from the other unit. -/
theorem encFinish_congr {s s' : State} (he : s.enc = s'.enc) (res : EncResult) :
    (s.encFinish res).enc = (s'.encFinish res).enc := by
  unfold State.encFinish
  simp only [he]
  split <;> [split; skip; skip] <;> rfl

theorem decFinish_congr {s s' : State} (hd : s.dec = s'.dec) (res : DecResult) :
    (s.decFinish res).dec = (s'.decFinish res).dec := by
  unfold State.decFinish
  simp only [hd]
  split <;> [split; skip; skip] <;> rfl

/-- A command of the encoder, whatever it does with the run it starts from. -/
theorem EncOnly.command (body : EncRun → EncResult) : EncOnly fun s => s.encFinish (body s.encRun) where
  frame s := encFinish_dec s _
  depends s s' hi he := by
    rw [encRun_congr hi he]
    exact encFinish_congr he _

/-- A command of the decoder. -/
theorem DecOnly.command (body : DecRun → DecResult) : DecOnly fun s => s.decFinish (body s.decRun) where
  frame s := decFinish_enc s _
  depends s s' hi hd := by
    rw [decRun_congr hi hd]
    exact decFinish_congr hd _

/-- A codeword that ends the decoder command it stands in. -/
theorem DecOnly.lastCode (body : DecRun → DecResult) : DecOnly fun s => s.decFinish (body s.codeRun) where
  frame s := decFinish_enc s _
  depends s s' _ hd := by
    rw [codeRun_congr hd]
    exact decFinish_congr hd _

/-- A timestamp codeword, after which the command goes on. -/
theorem DecOnly.timeCode (body : DecRun → DecRun) : DecOnly fun s => s.codeContinue (body s.codeRun) where
  frame _ := rfl
  depends s s' _ hd := by simp [State.codeContinue, codeRun_congr hd, hd]

theorem DecOnly.codePad : DecOnly State.codePad where
  frame _ := rfl
  depends s s' _ hd := by simp [State.codePad, hd]

theorem EncOnly.encReset : EncOnly State.encReset where
  frame _ := rfl
  depends s s' _ he := by simp [State.encReset, he]

theorem EncOnly.attachSink : EncOnly State.attachSink where
  frame _ := rfl
  depends s s' _ he := by simp [State.attachSink, he]

theorem DecOnly.decReset : DecOnly State.decReset where
  frame _ := rfl
  depends s s' _ hd := by simp [State.decReset, hd]

theorem DecOnly.attachSource (bytes : List Byte) : DecOnly fun s => s.attachSource bytes where
  frame _ := rfl
  depends s s' _ hd := by simp [State.attachSource, hd]

/-- An encoder instruction is a function of states that works on the encoder alone. -/
theorem exec_encOnly {i : Instr} (hp : i.port = some .enc) : ∃ F, EncOnly F ∧ ∀ s, exec i s = .next (F s) := by
  cases i
  case encHeader t0 => exact ⟨_, .command fun r => encAdmit .init r (encHeaderBody t0), fun _ => rfl⟩
  case encPoint t v => exact ⟨_, .command fun r => encAdmit .opened r (encPointBody t v), fun _ => rfl⟩
  case encFinish => exact ⟨_, .command fun r => encAdmit .opened r encFinishBody, fun _ => rfl⟩
  case encRdreg idx => exact ⟨_, .command (encRdregBody idx), fun _ => rfl⟩
  all_goals simp [Instr.port] at hp

theorem codeTime_decOnly (n : Nat) (dd : Int) : ∃ F, DecOnly F ∧ ∀ s, codeTime n dd s = .next (F s) :=
  ⟨_, .timeCode fun r => { r.consume n with regs := (r.consume n).regs.addDod dd }, fun _ => rfl⟩

theorem codePoint_decOnly (n : Nat) (f : Regs → Regs) : ∃ F, DecOnly F ∧ ∀ s, codePoint n f s = .next (F s) :=
  ⟨_, .lastCode fun r => DecRun.respondPoint { r.consume n with regs := f (r.consume n).regs }, fun _ => rfl⟩

theorem codeEndBlock_decOnly (n : Nat) : ∃ F, DecOnly F ∧ ∀ s, codeEndBlock n s = .next (F s) :=
  ⟨_, .lastCode fun r => (r.consume n).respondEnd, fun _ => rfl⟩

theorem codeError_decOnly (n : Nat) (x : Status) : ∃ F, DecOnly F ∧ ∀ s, codeError n x s = .next (F s) :=
  ⟨_, .lastCode fun r => (r.consume n).raise x, fun _ => rfl⟩

/-- V-reuse takes its window from the decoder's own registers. -/
theorem execWireVReuse_decOnly (width : Nat) (sig : Value) :
    ∃ F, DecOnly F ∧ ∀ s, execWireVReuse width sig s = .next (F s) := by
  refine ⟨_, .lastCode fun r => if r.regs.winValid then
      DecRun.respondPoint { r.consume (2 + width) with regs := (r.consume (2 + width)).regs.xorSig sig }
    else (r.consume 2).raise .eNoWindow, fun s => ?_⟩
  unfold execWireVReuse
  cases h : s.dec.regs.winValid <;> simp [h, codePoint, codeError, State.codeEnd]

/-- Every other instruction is a function of states that works on the decoder alone. -/
theorem exec_decOnly {i : Instr} (hp : i.port ≠ some .enc) : ∃ F, DecOnly F ∧ ∀ s, exec i s = .next (F s) := by
  cases i
  case encHeader | encPoint | encFinish | encRdreg => exact absurd rfl hp
  case decHeader => exact ⟨_, .command fun r => decAdmit .init r decHeaderBody, fun _ => rfl⟩
  case decPoint => exact ⟨_, .command fun r => decAdmit .opened r decPointBody, fun _ => rfl⟩
  case decRdreg idx => exact ⟨_, .command (decRdregBody idx), fun _ => rfl⟩
  case wireHeader t =>
    exact ⟨_, .lastCode fun r => .respond Status.ok.code t 0
      { r.consume 32 with regs := (r.consume 32).regs.setHeader t }, fun _ => rfl⟩
  case wireFirstPoint d v =>
    by_cases h : d = 0x3FFF
    · simp only [exec, execWireFirstPoint, if_pos h]
      exact codeEndBlock_decOnly 14
    · simp only [exec, execWireFirstPoint, if_neg h]
      exact codePoint_decOnly 78 _
  case wireEmptySentinel => exact codeEndBlock_decOnly 14
  case wireTs0 => exact codeTime_decOnly 1 0
  case wireTs7 p => exact codeTime_decOnly 9 _
  case wireTs9 p => exact codeTime_decOnly 12 _
  case wireTs12 p => exact codeTime_decOnly 16 _
  case wireTs32 p =>
    by_cases h : p = 0xFFFFFFFF
    · simp only [exec, execWireTs32, if_pos h]
      exact codeEndBlock_decOnly 36
    · simp only [exec, execWireTs32, if_neg h]
      exact codeTime_decOnly 36 _
  case wireEndSentinel => exact codeEndBlock_decOnly 36
  case wireVSame => exact codePoint_decOnly 1 id
  case wireVReuse width sig => exact execWireVReuse_decOnly width sig
  case wireVNew l m sig =>
    by_cases h : l.toNat + sigCount m > 64
    · simp only [exec, execWireVNew, if_pos h]
      exact codeError_decOnly 13 .eBadWindow
    · simp only [exec, execWireVNew, if_neg h]
      exact codePoint_decOnly (13 + sigCount m) _
  case wirePad k => exact ⟨_, .codePad, fun _ => rfl⟩

/-- A step on an action of the encoder is a function of states that works on the encoder alone; or, where the encoder waits
for ever, no step (R267, R271). -/
theorem step_encOnly {x : Input} (hx : x.unit = .enc) (rest : List Input) (waiting : Bool) :
    (∃ F, EncOnly F ∧ ∀ s : State, s.dec.stage = none → s.inputs = x :: rest → s.enc.waiting = waiting →
      step s = .next (F s)) ∨
    ∀ s : State, s.dec.stage = none → s.inputs = x :: rest → s.enc.waiting = waiting → step s = .fault .encBusy := by
  cases x
  case encCmd w a =>
    cases waiting with
    | true => exact .inr fun s hs hi hw => step_encCmd_busy hs hi hw
    | false =>
      left
      cases hd : decodeCmd .enc w with
      | ok i =>
        obtain ⟨F, hF, he⟩ := exec_encOnly (decodeCmd_enc_port hd)
        exact ⟨F, hF, fun s hs hi hw => (step_encCmd_legal hs hi hw hd).trans (he s)⟩
      | error e =>
        exact ⟨_, .command fun r => r.misuse .eIllegal, fun s hs hi hw => step_encCmd_illegal hs hi hw hd⟩
  case encRst => exact .inl ⟨_, .encReset, fun s hs hi _ => step_encRst hs hi⟩
  case attachSink => exact .inl ⟨_, .attachSink, fun s hs hi _ => step_attachSink hs hi⟩
  all_goals cases hx

/-- The same of the decoder's actions, between commands. -/
theorem step_decOnly {x : Input} (hx : x.unit = .dec) (rest : List Input) (waiting : Bool) :
    (∃ F, DecOnly F ∧ ∀ s : State, s.dec.stage = none → s.inputs = x :: rest → s.dec.waiting = waiting →
      step s = .next (F s)) ∨
    ∀ s : State, s.dec.stage = none → s.inputs = x :: rest → s.dec.waiting = waiting → step s = .fault .decBusy := by
  cases x
  case decCmd w a =>
    cases waiting with
    | true => exact .inr fun s hs hi hw => step_decCmd_busy hs hi hw
    | false =>
      left
      cases hd : decodeCmd .dec w with
      | ok i =>
        have hp : i.port ≠ some .enc := by simp [decodeCmd_dec_port hd]
        obtain ⟨F, hF, he⟩ := exec_decOnly hp
        exact ⟨F, hF, fun s hs hi hw => (step_decCmd_legal hs hi hw hd).trans (he s)⟩
      | error e =>
        exact ⟨_, .command fun r => r.misuse .eIllegal, fun s hs hi hw => step_decCmd_illegal hs hi hw hd⟩
  case decRst => exact .inl ⟨_, .decReset, fun s hs hi _ => step_decRst hs hi⟩
  case attachSource bytes => exact .inl ⟨_, .attachSource bytes, fun s hs hi _ => step_attachSource hs hi⟩
  all_goals cases hx

section StepOfOneUnit

variable {s s' t t' : State} {x : Input} {rest : List Input}

theorem step_enc_frame (hx : x.unit = .enc) (hs : s.dec.stage = none) (hi : s.inputs = x :: rest)
    (h : step s = .next t) : t.dec = s.dec := by
  obtain ⟨F, hF, hstep⟩ | hbusy := step_encOnly hx rest s.enc.waiting
  · cases (hstep s hs hi rfl).symm.trans h
    exact hF.frame s
  · cases (hbusy s hs hi rfl).symm.trans h

theorem step_dec_frame (hx : x.unit = .dec) (hs : s.dec.stage = none) (hi : s.inputs = x :: rest)
    (h : step s = .next t) : t.enc = s.enc := by
  obtain ⟨F, hF, hstep⟩ | hbusy := step_decOnly hx rest s.dec.waiting
  · cases (hstep s hs hi rfl).symm.trans h
    exact hF.frame s
  · cases (hbusy s hs hi rfl).symm.trans h

theorem step_enc_depends (hx : x.unit = .enc) (hs : s.dec.stage = none) (hs' : s'.dec.stage = none)
    (hi : s.inputs = x :: rest) (hi' : s'.inputs = x :: rest) (h : step s = .next t) (h' : step s' = .next t')
    (he : s.enc = s'.enc) : t.enc = t'.enc := by
  obtain ⟨F, hF, hstep⟩ | hbusy := step_encOnly hx rest s.enc.waiting
  · cases (hstep s hs hi rfl).symm.trans h
    cases (hstep s' hs' hi' (by rw [he])).symm.trans h'
    exact hF.depends s s' (hi.trans hi'.symm) he
  · cases (hbusy s hs hi rfl).symm.trans h

theorem step_dec_depends (hx : x.unit = .dec) (hs : s.dec.stage = none) (hs' : s'.dec.stage = none)
    (hi : s.inputs = x :: rest) (hi' : s'.inputs = x :: rest) (h : step s = .next t) (h' : step s' = .next t')
    (hd : s.dec = s'.dec) : t.dec = t'.dec := by
  obtain ⟨F, hF, hstep⟩ | hbusy := step_decOnly hx rest s.dec.waiting
  · cases (hstep s hs hi rfl).symm.trans h
    cases (hstep s' hs' hi' (by rw [hd])).symm.trans h'
    exact hF.depends s s' (hi.trans hi'.symm) hd
  · cases (hbusy s hs hi rfl).symm.trans h

end StepOfOneUnit

/-- All that a step between commands can be to the encoder: nothing, a fresh sink, a legal command, an illegal word or a
reset. -/
theorem step_enc_cases {s t : State} (hs : s.dec.stage = none) (h : step s = .next t) :
    t.enc = s.enc ∨ t = s.attachSink ∨ (∃ w i, decodeCmd .enc w = .ok i ∧ exec i s = .next t) ∨ t = s.encIllegal ∨
      (t = s.encReset ∧ s.encResets = true) := by
  match hi : s.inputs with
  | [] =>
    cases (step_idle hs hi).symm.trans h
    exact .inl rfl
  | .encCmd w a :: rest =>
    cases hw : s.enc.waiting with
    | true => cases (step_encCmd_busy hs hi hw).symm.trans h
    | false =>
      cases hd : decodeCmd .enc w with
      | ok i => exact .inr (.inr (.inl ⟨w, i, hd, (step_encCmd_legal hs hi hw hd).symm.trans h⟩))
      | error e =>
        cases (step_encCmd_illegal hs hi hw hd).symm.trans h
        exact .inr (.inr (.inr (.inl rfl)))
  | .encRst :: rest =>
    cases (step_encRst hs hi).symm.trans h
    exact .inr (.inr (.inr (.inr ⟨rfl, by simp [State.encResets, hi]⟩)))
  | .attachSink :: rest =>
    cases (step_attachSink hs hi).symm.trans h
    exact .inr (.inl rfl)
  | .decCmd _ _ :: _ | .decRst :: _ | .attachSource _ :: _ => exact .inl (step_dec_frame rfl hs hi h)

/-- All that a step between commands can be to the decoder. -/
theorem step_dec_cases {s t : State} (hs : s.dec.stage = none) (h : step s = .next t) :
    t.dec = s.dec ∨ (∃ bytes, t = s.attachSource bytes) ∨ (∃ w i, decodeCmd .dec w = .ok i ∧ exec i s = .next t) ∨
      t = s.decIllegal ∨ (t = s.decReset ∧ s.decResets = true) := by
  match hi : s.inputs with
  | [] =>
    cases (step_idle hs hi).symm.trans h
    exact .inl rfl
  | .decCmd w a :: rest =>
    cases hw : s.dec.waiting with
    | true => cases (step_decCmd_busy hs hi hw).symm.trans h
    | false =>
      cases hd : decodeCmd .dec w with
      | ok i => exact .inr (.inr (.inl ⟨w, i, hd, (step_decCmd_legal hs hi hw hd).symm.trans h⟩))
      | error e =>
        cases (step_decCmd_illegal hs hi hw hd).symm.trans h
        exact .inr (.inr (.inr (.inl rfl)))
  | .decRst :: rest =>
    cases (step_decRst hs hi).symm.trans h
    exact .inr (.inr (.inr (.inr ⟨rfl, by simp [State.decResets, hi]⟩)))
  | .attachSource bytes :: rest =>
    cases (step_attachSource hs hi).symm.trans h
    exact .inr (.inl ⟨bytes, rfl⟩)
  | .encCmd _ _ :: _ | .encRst :: _ | .attachSink :: _ => exact .inl (step_enc_frame rfl hs hi h)

section InstructionOfOneUnit

variable {i : Instr} {s s' t t' : State}

theorem exec_enc_frame (hp : i.port = some .enc) (h : exec i s = .next t) : t.dec = s.dec := by
  obtain ⟨F, hF, he⟩ := exec_encOnly hp
  cases (he s).symm.trans h
  exact hF.frame s

theorem exec_dec_frame (hp : i.port ≠ some .enc) (h : exec i s = .next t) : t.enc = s.enc := by
  obtain ⟨F, hF, he⟩ := exec_decOnly hp
  cases (he s).symm.trans h
  exact hF.frame s

theorem exec_enc_depends (hp : i.port = some .enc) (hi : s.inputs = s'.inputs) (h : exec i s = .next t)
    (h' : exec i s' = .next t') (he : s.enc = s'.enc) : t.enc = t'.enc := by
  obtain ⟨F, hF, hF'⟩ := exec_encOnly hp
  cases (hF' s).symm.trans h
  cases (hF' s').symm.trans h'
  exact hF.depends s s' hi he

theorem exec_dec_depends (hp : i.port ≠ some .enc) (hi : s.inputs = s'.inputs) (h : exec i s = .next t)
    (h' : exec i s' = .next t') (hd : s.dec = s'.dec) : t.dec = t'.dec := by
  obtain ⟨F, hF, hF'⟩ := exec_decOnly hp
  cases (hF' s).symm.trans h
  cases (hF' s').symm.trans h'
  exact hF.depends s s' hi hd

end InstructionOfOneUnit

/-- Settles O34: each instruction, and each step between commands, is a function of states that works on one unit alone. -/
theorem unitsShareNothing : Obligations.UnitsShareNothing :=
  ⟨fun _ _ _ h => ⟨fun hp => exec_enc_frame hp h, fun hp => exec_dec_frame hp h⟩,
    fun _ _ _ _ _ hi h h' => ⟨fun hp he => exec_enc_depends hp hi h h' he, fun hp hd => exec_dec_depends hp hi h h' hd⟩,
    fun _ _ _ _ hs hi h => ⟨fun hx => step_enc_frame hx hs hi h, fun hx => step_dec_frame hx hs hi h⟩,
    fun _ _ _ _ _ _ hs hs' hi hi' h h' =>
      ⟨fun hx he => step_enc_depends hx hs hs' hi hi' h h' he, fun hx hd => step_dec_depends hx hs hs' hi hi' h h' hd⟩⟩

end Sys2Proof.Machine

namespace Sys2Proof.Machine

/-! ### How a command of a unit ends, for its registers and its response port -/

/-- `Q` holds of the status responded (`none` where the command waits for ever) and of the registers it leaves; `answers` are
those of its stream accesses, the ones it did not use among them; it is abandoned only by a reset among them (R261). -/
def EncResult.Ends (answers : List SinkAnswer) (Q : Option (BitVec 8) → Regs → Prop) : EncResult → Prop
  | .respond st _ _ r => Q (some st) r.regs ∧ r.answers <:+ answers
  | .waits r => Q none r.regs
  | .abandoned _ => ∃ kept, .reset kept ∈ answers

/-- The same of a decoder command. -/
def DecResult.Ends (answers : List SourceAnswer) (Q : Option (BitVec 8) → Regs → Prop) : DecResult → Prop
  | .respond st _ _ r => Q (some st) r.regs ∧ r.answers <:+ answers
  | .waits r => Q none r.regs
  | .abandoned _ => .reset ∈ answers

/-- What one action of the host does to a unit's registers and its response port, which held `words`: a response and `Q`
of its status; no response and `Q`; or a reset. -/
inductive UnitEnds (Q : Option (BitVec 8) → Regs → Prop) (reset : Prop) (words : List Word) :
    Regs → List Word → Prop
  | responded {st r} (rts : Time) (rval : Value) (h : Q (some st) r) :
    UnitEnds Q reset words r (words ++ [responseWord st rts rval])
  | silent {r} (h : Q none r) : UnitEnds Q reset words r words
  | reset (h : reset) : UnitEnds Q reset words .reset words

variable {Q : Option (BitVec 8) → Regs → Prop}

theorem EncResult.Ends.finish {s : State} {res : EncResult} (h : res.Ends s.sinkAnswers Q) :
    UnitEnds Q (∃ kept, .reset kept ∈ s.sinkAnswers) s.enc.responses (s.encFinish res).enc.regs
      (s.encFinish res).enc.responses := by
  obtain ⟨st, rts, rval, r, rfl, e⟩ | ⟨r, rfl, e⟩ | ⟨r, hr, e⟩ := encFinish_cases s res <;> rw [e]
  · exact .responded rts rval h.1
  · exact .silent h
  · refine .reset ?_
    obtain ⟨st, rts, rval, kept, rest, rfl, ha⟩ | rfl := hr
    · exact ⟨kept, h.2.subset (by simp [ha])⟩
    · exact h

theorem DecResult.Ends.finish {s : State} {res : DecResult} (h : res.Ends s.sourceAnswers Q) :
    UnitEnds Q (.reset ∈ s.sourceAnswers) s.dec.responses (s.decFinish res).dec.regs
      (s.decFinish res).dec.responses := by
  obtain ⟨st, rts, rval, r, rfl, e⟩ | ⟨r, rfl, e⟩ | ⟨r, hr, e⟩ := decFinish_cases s res <;> rw [e]
  · exact .responded rts rval h.1
  · exact .silent h
  · refine .reset ?_
    obtain ⟨st, rts, rval, rest, rfl, ha⟩ | rfl := hr
    · exact h.2.subset (by simp [ha])
    · exact h

/-- A sink access: the command may wait or fail with the registers as they are, and else goes on with them. -/
theorem sinkAccess_ends {answers : List SinkAnswer} {b : Bits} {fl : Bool} {r : EncRun} {k : EncRun → EncResult}
    (ha : r.answers <:+ answers) (hwait : Q none r.regs) (hfail : Q (some Status.eIO.code) (r.regs.enterError .eIO))
    (hk : ∀ r' : EncRun, r'.regs = r.regs → r'.answers <:+ answers → (k r').Ends answers Q) :
    (sinkAccess b fl r k).Ends answers Q := by
  obtain ⟨-, e⟩ | ⟨left, fl', rest, h, e⟩ | ⟨rest, h, e⟩ | ⟨kept, rest, h, e⟩ := sinkAccess_cases b fl r k <;> rw [e]
  · exact hk _ rfl ((List.tail_suffix _).trans ha)
  · exact ⟨hfail, (List.suffix_cons _ _).trans (h ▸ ha)⟩
  · exact hwait
  · exact ⟨kept, ha.subset (by simp [h])⟩

theorem sinkPut_ends {answers : List SinkAnswer} {fs : List Field} {r : EncRun} {k : EncRun → EncResult}
    (ha : r.answers <:+ answers) (hwait : Q none r.regs) (hfail : Q (some Status.eIO.code) (r.regs.enterError .eIO))
    (hk : ∀ r' : EncRun, r'.regs = r.regs → r'.answers <:+ answers → (k r').Ends answers Q) :
    (sinkPut fs r k).Ends answers Q := by
  obtain ⟨rest, h, e⟩ | ⟨left, fl, rest, h, e⟩ | ⟨b, rest, -, -, e⟩ | ⟨b, kept, rest, -, h, e⟩ :=
    sinkPut_cases fs r k <;> rw [e]
  · exact hk _ rfl (h.trans ha)
  · exact ⟨hfail, (List.suffix_cons _ _).trans (h.trans ha)⟩
  · exact hwait
  · exact ⟨kept, (h.trans ha).subset (by simp)⟩

/-- A source read: the command may wait or end with a short read, the registers being as they are, and else goes on. -/
theorem sourceRead_ends {answers : List SourceAnswer} {n : Nat} {r : DecRun} {k : Nat → DecRun → DecResult}
    (ha : r.answers <:+ answers) (hwait : Q none r.regs)
    (hshort : Q (some Status.eTruncated.code) (r.regs.enterError .eTruncated))
    (hk : ∀ v (r' : DecRun), r'.regs = r.regs → r'.answers <:+ answers → (k v r').Ends answers Q) :
    (sourceRead n r k).Ends answers Q := by
  have htail : r.answers.tail <:+ answers := (List.tail_suffix _).trans ha
  obtain ⟨-, ⟨-, e⟩ | ⟨-, e⟩⟩ | ⟨rest, h, e⟩ | ⟨rest, h, e⟩ := sourceRead_cases n r k <;> rw [e]
  · exact hk _ _ rfl htail
  · exact ⟨hshort, htail⟩
  · exact hwait
  · exact ha.subset (by simp [h])

/-! ### What a command does to `misuse` (R26) -/

/-- The rule of R26 for one command: `misuse` stays set, and a response of `E_MISUSE` or `E_ILLEGAL` leaves it set. -/
def MisuseRecorded (before : Bool) (st : Option (BitVec 8)) (r : Regs) : Prop :=
  (before = true → r.misuse = true) ∧ (st = some 0x20 ∨ st = some 0x21 → r.misuse = true)

section MisuseRecorded

variable {before : Bool} {r : Regs}

theorem misuseRecorded_silent (hm : before = true → r.misuse = true) : MisuseRecorded before none r :=
  ⟨hm, fun h => by simp at h⟩

theorem misuseRecorded_of_ne {st : BitVec 8} (hm : before = true → r.misuse = true) (hst : st ≠ 0x20 ∧ st ≠ 0x21) :
    MisuseRecorded before (some st) r :=
  ⟨hm, fun h => (h.elim (fun h => hst.1 (Option.some.inj h)) fun h => hst.2 (Option.some.inj h)).elim⟩

theorem misuseRecorded_setMisuse (st : Option (BitVec 8)) : MisuseRecorded before st r.setMisuse :=
  ⟨fun _ => rfl, fun _ => rfl⟩

/-- A stored error is no use error's code, so that responding it breaks no rule of `misuse` (R25, R231). -/
theorem errInv_err_ne {codes : List Status} (h : r.ErrInv codes) (hp : r.phase = .error)
    (hc : ∀ x ∈ codes, x.code ≠ 0x20 ∧ x.code ≠ 0x21) : r.err ≠ 0x20 ∧ r.err ≠ 0x21 := by
  obtain ⟨x, hx, e⟩ := h.2 hp
  exact e ▸ hc x hx

end MisuseRecorded

section Encoder

variable {before : Bool} {answers : List SinkAnswer} {r : EncRun} {k : EncRun → EncResult}

theorem EncRun.misuse_ends (x : Status) (ha : r.answers <:+ answers) :
    (r.misuse x).Ends answers (MisuseRecorded before) :=
  ⟨misuseRecorded_setMisuse _, ha⟩

theorem sinkAccess_recorded {b : Bits} {fl : Bool} (hm : before = true → r.regs.misuse = true)
    (ha : r.answers <:+ answers)
    (hk : ∀ r' : EncRun, (before = true → r'.regs.misuse = true) → r'.answers <:+ answers →
      (k r').Ends answers (MisuseRecorded before)) :
    (sinkAccess b fl r k).Ends answers (MisuseRecorded before) :=
  sinkAccess_ends ha (misuseRecorded_silent hm) (misuseRecorded_of_ne hm (by decide)) fun r' hr => hk r' (by rwa [hr])

theorem sinkPut_recorded {fs : List Field} (hm : before = true → r.regs.misuse = true) (ha : r.answers <:+ answers)
    (hk : ∀ r' : EncRun, (before = true → r'.regs.misuse = true) → r'.answers <:+ answers →
      (k r').Ends answers (MisuseRecorded before)) :
    (sinkPut fs r k).Ends answers (MisuseRecorded before) :=
  sinkPut_ends ha (misuseRecorded_silent hm) (misuseRecorded_of_ne hm (by decide)) fun r' hr => hk r' (by rwa [hr])

/-- Every command of the encoder that ends well responds `OK`. -/
theorem EncRun.respondOk_recorded (rval : Value) (hm : before = true → r.regs.misuse = true)
    (ha : r.answers <:+ answers) :
    (EncResult.respond Status.ok.code 0 rval r).Ends answers (MisuseRecorded before) :=
  ⟨misuseRecorded_of_ne hm (by decide), ha⟩

theorem encHeaderBody_recorded (t0 : Time) (hm : before = true → r.regs.misuse = true) (ha : r.answers <:+ answers) :
    (encHeaderBody t0 r).Ends answers (MisuseRecorded before) :=
  sinkAccess_recorded hm ha fun _ hm' ha' => EncRun.respondOk_recorded 0 hm' ha'

@[simp] theorem encTime_misuse (t : Time) (q : Regs) : (encTime t q).1.misuse = q.misuse := rfl

@[simp] theorem encValue_misuse (v : Value) (q : Regs) : (encValue v q).1.misuse = q.misuse := by
  unfold encValue
  dsimp only
  split_ifs <;> rfl

@[simp] theorem encPointEffect_misuse (t : Time) (v : Value) (q : Regs) :
    (encPointEffect t v q).1.misuse = q.misuse := by
  unfold encPointEffect
  split_ifs
  · rfl
  · simp

theorem encPointBody_recorded (t : Time) (v : Value) (hm : before = true → r.regs.misuse = true)
    (ha : r.answers <:+ answers) : (encPointBody t v r).Ends answers (MisuseRecorded before) :=
  sinkPut_recorded (by simpa using hm) ha fun _ hm' ha' => EncRun.respondOk_recorded 0 hm' ha'

theorem encFinishBody_recorded (hm : before = true → r.regs.misuse = true) (ha : r.answers <:+ answers) :
    (encFinishBody r).Ends answers (MisuseRecorded before) :=
  sinkPut_recorded hm ha fun _ hm' ha' =>
    sinkAccess_recorded hm' ha' fun _ hm'' ha'' => EncRun.respondOk_recorded 0 hm'' ha''

theorem encRdregBody_recorded (idx : BitVec 3) (hm : before = true → r.regs.misuse = true)
    (ha : r.answers <:+ answers) : (encRdregBody idx r).Ends answers (MisuseRecorded before) := by
  unfold encRdregBody
  split_ifs
  · exact EncRun.misuse_ends _ ha
  · exact EncRun.respondOk_recorded _ hm ha

theorem encAdmit_recorded {need : Phase} {body : EncRun → EncResult} (hm : before = true → r.regs.misuse = true)
    (ha : r.answers <:+ answers) (he : r.regs.ErrInv [.eIO])
    (hbody : (body r).Ends answers (MisuseRecorded before)) :
    (encAdmit need r body).Ends answers (MisuseRecorded before) := by
  obtain ⟨hp, e⟩ | ⟨-, -, e⟩ | ⟨-, -, e⟩ := encAdmit_cases need r body <;> rw [e]
  · exact ⟨misuseRecorded_of_ne hm (errInv_err_ne he hp (by decide)), ha⟩
  · exact EncRun.misuse_ends _ ha
  · exact hbody

end Encoder

section Decoder

variable {before : Bool} {answers : List SourceAnswer} {r : DecRun}

theorem DecRun.misuse_ends (x : Status) (ha : r.answers <:+ answers) :
    (r.misuse x).Ends answers (MisuseRecorded before) :=
  ⟨misuseRecorded_setMisuse _, ha⟩

theorem DecRun.raise_recorded {x : Status} (hm : before = true → r.regs.misuse = true) (ha : r.answers <:+ answers)
    (hx : x.code ≠ 0x20 ∧ x.code ≠ 0x21) : (r.raise x).Ends answers (MisuseRecorded before) :=
  ⟨misuseRecorded_of_ne hm hx, ha⟩

theorem sourceRead_recorded {n : Nat} {k : Nat → DecRun → DecResult} (hm : before = true → r.regs.misuse = true)
    (ha : r.answers <:+ answers)
    (hk : ∀ v (r' : DecRun), (before = true → r'.regs.misuse = true) → r'.answers <:+ answers →
      (k v r').Ends answers (MisuseRecorded before)) :
    (sourceRead n r k).Ends answers (MisuseRecorded before) :=
  sourceRead_ends ha (misuseRecorded_silent hm) (misuseRecorded_of_ne hm (by decide))
    fun v r' hr => hk v r' (by rwa [hr])

theorem respondPoint_recorded (hm : before = true → r.regs.misuse = true) (ha : r.answers <:+ answers) :
    r.respondPoint.Ends answers (MisuseRecorded before) :=
  ⟨misuseRecorded_of_ne hm (by decide), ha⟩

theorem respondEnd_recorded (hm : before = true → r.regs.misuse = true) (ha : r.answers <:+ answers) :
    r.respondEnd.Ends answers (MisuseRecorded before) :=
  ⟨misuseRecorded_of_ne hm (by decide), ha⟩

theorem decHeaderBody_recorded (hm : before = true → r.regs.misuse = true) (ha : r.answers <:+ answers) :
    (decHeaderBody r).Ends answers (MisuseRecorded before) :=
  sourceRead_recorded hm ha fun _ _ hm' ha' => ⟨misuseRecorded_of_ne hm' (by decide), ha'⟩

theorem decFirst_recorded (hm : before = true → r.regs.misuse = true) (ha : r.answers <:+ answers) :
    (decFirst r).Ends answers (MisuseRecorded before) := by
  refine sourceRead_recorded hm ha fun d r' hm' ha' => ?_
  dsimp only
  split_ifs
  · exact respondEnd_recorded hm' ha'
  · exact sourceRead_recorded hm' ha' fun _ _ hm'' ha'' => respondPoint_recorded hm'' ha''

theorem readPrefix_recorded (fuel k : Nat) {cont : Nat → DecRun → DecResult}
    (hm : before = true → r.regs.misuse = true) (ha : r.answers <:+ answers)
    (hcont : ∀ k (r' : DecRun), (before = true → r'.regs.misuse = true) → r'.answers <:+ answers →
      (cont k r').Ends answers (MisuseRecorded before)) :
    (readPrefix fuel k r cont).Ends answers (MisuseRecorded before) := by
  induction fuel generalizing k r with
  | zero => exact hcont k r hm ha
  | succ fuel ih =>
    refine sourceRead_recorded hm ha fun b r' hm' ha' => ?_
    split_ifs
    · exact hcont k r' hm' ha'
    · exact ih (k + 1) hm' ha'

theorem decTime_recorded {cont : DecRun → DecResult} (hm : before = true → r.regs.misuse = true)
    (ha : r.answers <:+ answers)
    (hcont : ∀ r' : DecRun, (before = true → r'.regs.misuse = true) → r'.answers <:+ answers →
      (cont r').Ends answers (MisuseRecorded before)) :
    (decTime r cont).Ends answers (MisuseRecorded before) := by
  refine readPrefix_recorded 4 0 hm ha fun k r' hm' ha' => ?_
  dsimp only
  split_ifs
  · exact hcont _ hm' ha'
  · refine sourceRead_recorded hm' ha' fun u r'' hm'' ha'' => ?_
    split_ifs
    · exact respondEnd_recorded hm'' ha''
    · exact hcont _ hm'' ha''

theorem decSig_recorded (hm : before = true → r.regs.misuse = true) (ha : r.answers <:+ answers) :
    (decSig r).Ends answers (MisuseRecorded before) :=
  sourceRead_recorded hm ha fun _ _ hm' ha' => respondPoint_recorded hm' ha'

theorem decNewWindow_recorded (hm : before = true → r.regs.misuse = true) (ha : r.answers <:+ answers) :
    (decNewWindow r).Ends answers (MisuseRecorded before) := by
  refine sourceRead_recorded hm ha fun l r' hm' ha' => sourceRead_recorded hm' ha' fun m r'' hm'' ha'' => ?_
  dsimp only
  split_ifs
  · exact DecRun.raise_recorded hm'' ha'' (by decide)
  · exact decSig_recorded hm'' ha''

theorem decValue_recorded (hm : before = true → r.regs.misuse = true) (ha : r.answers <:+ answers) :
    (decValue r).Ends answers (MisuseRecorded before) := by
  refine sourceRead_recorded hm ha fun changed r' hm' ha' => ?_
  split_ifs
  · exact respondPoint_recorded hm' ha'
  · refine sourceRead_recorded hm' ha' fun renew r'' hm'' ha'' => ?_
    split_ifs
    · exact decNewWindow_recorded hm'' ha''
    · exact decSig_recorded hm'' ha''
    · exact DecRun.raise_recorded hm'' ha'' (by decide)

theorem decPointBody_recorded (hm : before = true → r.regs.misuse = true) (ha : r.answers <:+ answers) :
    (decPointBody r).Ends answers (MisuseRecorded before) := by
  unfold decPointBody
  split_ifs
  · exact decFirst_recorded hm ha
  · exact decTime_recorded hm ha fun _ hm' ha' => decValue_recorded hm' ha'

theorem decRdregBody_recorded (idx : BitVec 3) (hm : before = true → r.regs.misuse = true)
    (ha : r.answers <:+ answers) : (decRdregBody idx r).Ends answers (MisuseRecorded before) := by
  unfold decRdregBody
  split_ifs
  · exact DecRun.misuse_ends _ ha
  · exact ⟨misuseRecorded_of_ne hm (by decide), ha⟩

theorem decAdmit_recorded {need : Phase} {body : DecRun → DecResult} (hm : before = true → r.regs.misuse = true)
    (ha : r.answers <:+ answers) (he : r.regs.ErrInv [.eTruncated, .eNoWindow, .eBadWindow])
    (hbody : (body r).Ends answers (MisuseRecorded before)) :
    (decAdmit need r body).Ends answers (MisuseRecorded before) := by
  obtain ⟨hp, e⟩ | ⟨-, -, e⟩ | ⟨-, -, e⟩ := decAdmit_cases need r body <;> rw [e]
  · exact ⟨misuseRecorded_of_ne hm (errInv_err_ne he hp (by decide)), ha⟩
  · exact DecRun.misuse_ends _ ha
  · exact hbody

end Decoder

/-! ### What a step does to `misuse` -/

/-- A legal word of the encoder's port: each of its commands ends as R26 says. -/
theorem exec_enc_ends {s : State} {w : Word} {i : Instr} (he : s.enc.regs.ErrInv [.eIO])
    (hd : decodeCmd .enc w = .ok i) :
    ∃ res, exec i s = .next (s.encFinish res) ∧ res.Ends s.sinkAnswers (MisuseRecorded s.enc.regs.misuse) := by
  have ha : s.encRun.answers <:+ s.sinkAnswers := List.suffix_refl _
  obtain ⟨t0, rfl⟩ | ⟨t, v, rfl⟩ | rfl | ⟨idx, -, rfl⟩ := decodeCmd_enc_ok hd
  · exact ⟨_, rfl, encAdmit_recorded id ha he (encHeaderBody_recorded t0 id ha)⟩
  · exact ⟨_, rfl, encAdmit_recorded id ha he (encPointBody_recorded t v id ha)⟩
  · exact ⟨_, rfl, encAdmit_recorded id ha he (encFinishBody_recorded id ha)⟩
  · exact ⟨_, rfl, encRdregBody_recorded idx id ha⟩

/-- The same of the decoder's port. -/
theorem exec_dec_ends {s : State} {w : Word} {i : Instr}
    (he : s.dec.regs.ErrInv [.eTruncated, .eNoWindow, .eBadWindow]) (hd : decodeCmd .dec w = .ok i) :
    ∃ res, exec i s = .next (s.decFinish res) ∧ res.Ends s.sourceAnswers (MisuseRecorded s.dec.regs.misuse) := by
  have ha : s.decRun.answers <:+ s.sourceAnswers := List.suffix_refl _
  obtain rfl | rfl | ⟨idx, -, rfl⟩ := decodeCmd_dec_ok hd
  · exact ⟨_, rfl, decAdmit_recorded id ha he (decHeaderBody_recorded id ha)⟩
  · exact ⟨_, rfl, decAdmit_recorded id ha he (decPointBody_recorded id ha)⟩
  · exact ⟨_, rfl, decRdregBody_recorded idx id ha⟩

theorem encResets_of_mem {s : State} {kept : Nat} (h : .reset kept ∈ s.sinkAnswers) : s.encResets = true := by
  unfold State.sinkAnswers at h
  split at h
  case h_1 w a rest hi =>
    simp only [State.encResets, hi, List.any_eq_true]
    exact ⟨_, h, rfl⟩
  case h_2 => simp at h

theorem decResets_of_mem {s : State} (h : .reset ∈ s.sourceAnswers) : s.decResets = true := by
  unfold State.sourceAnswers at h
  split at h
  case h_1 w a rest hi =>
    simp only [State.decResets, hi, List.any_eq_true]
    exact ⟨_, h, rfl⟩
  case h_2 => simp at h

theorem UnitEnds.mono {p q : Prop} {words words' : List Word} {r : Regs} (hpq : p → q) (h : UnitEnds Q p words r words') :
    UnitEnds Q q words r words' := by
  cases h with
  | responded rts rval h => exact .responded rts rval h
  | silent h => exact .silent h
  | reset h => exact .reset (hpq h)

/-- What a step does to the encoder's registers and response port (R26). -/
theorem step_enc_ends {s t : State} (inv : s.Inv) (h : step s = .next t) :
    UnitEnds (MisuseRecorded s.enc.regs.misuse) (s.encResets = true) s.enc.responses t.enc.regs t.enc.responses := by
  have resets : (∃ kept, .reset kept ∈ s.sinkAnswers) → s.encResets = true := fun ⟨_, hmem⟩ => encResets_of_mem hmem
  obtain e | rfl | ⟨w, i, hd, he⟩ | rfl | ⟨rfl, hr⟩ := step_enc_cases inv.between h
  · rw [e]
    exact .silent (misuseRecorded_silent id)
  · exact .silent (misuseRecorded_silent id)
  · obtain ⟨res, e, hres⟩ := exec_enc_ends inv.encErr hd
    cases he.symm.trans e
    exact hres.finish.mono resets
  · exact (EncRun.misuse_ends .eIllegal (List.suffix_refl _)).finish.mono resets
  · exact .reset hr

/-- The same of the decoder. -/
theorem step_dec_ends {s t : State} (inv : s.Inv) (h : step s = .next t) :
    UnitEnds (MisuseRecorded s.dec.regs.misuse) (s.decResets = true) s.dec.responses t.dec.regs t.dec.responses := by
  obtain e | ⟨bytes, rfl⟩ | ⟨w, i, hd, he⟩ | rfl | ⟨rfl, hr⟩ := step_dec_cases inv.between h
  · rw [e]
    exact .silent (misuseRecorded_silent id)
  · exact .silent (misuseRecorded_silent id)
  · obtain ⟨res, e, hres⟩ := exec_dec_ends inv.decErr hd
    cases he.symm.trans e
    exact hres.finish.mono decResets_of_mem
  · exact (DecRun.misuse_ends .eIllegal (List.suffix_refl _)).finish.mono decResets_of_mem
  · exact .reset hr

section StickyMisuse

variable {before : Bool} {reset : Prop} {words words' : List Word} {r : Regs}

theorem UnitEnds.misuse_kept (h : UnitEnds (MisuseRecorded before) reset words r words') (hr : ¬ reset)
    (hm : before = true) : r.misuse = true := by
  cases h with
  | responded rts rval h => exact h.1 hm
  | silent h => exact h.1 hm
  | reset h => exact absurd h hr

/-- A new response of `E_MISUSE` or `E_ILLEGAL` is the response of a command that ends so. -/
theorem UnitEnds.misuse_set (h : UnitEnds (MisuseRecorded before) reset words r words') {rts : Time} {rval : Value}
    (hw : words' = words ++ [responseWord 0x20 rts rval] ∨ words' = words ++ [responseWord 0x21 rts rval]) :
    r.misuse = true := by
  cases h with
  | @responded st _ _ _ h =>
    have hst : st = 0x20 ∨ st = 0x21 := by
      simp only [List.append_cancel_left_eq, List.cons.injEq, and_true] at hw
      exact hw.imp responseWord_st_inj responseWord_st_inj
    exact h.2 (hst.imp (congrArg some) (congrArg some))
  | silent h => simp at hw
  | reset h => simp at hw

end StickyMisuse

/-- Settles O35: every command, illegal word and other action of the host ends as R26 says of `misuse`. -/
theorem misuseIsSticky : Obligations.MisuseIsSticky := by
  intro s t inv h
  have henc := step_enc_ends inv h
  have hdec := step_dec_ends inv h
  exact ⟨fun hr => henc.misuse_kept (by simp [hr]), fun hr => hdec.misuse_kept (by simp [hr]),
    fun _ _ hw => henc.misuse_set hw, fun _ _ hw => hdec.misuse_set hw⟩

end Sys2Proof.Machine

namespace Sys2Proof.Machine

/-! ### The bits of a number and of a byte (R12, R55) -/

/-- Digit `j` of `bin n v`, counted from the most significant. -/
theorem getElem?_bin {n j : Nat} (v : Nat) (hj : j < n) : (bin n v)[j]? = some (v.testBit (n - 1 - j)) := by
  induction n generalizing j with
  | zero => omega
  | succ n ih =>
    cases j with
    | zero => simp [bin]
    | succ j =>
      have hidx : n + 1 - 1 - (j + 1) = n - 1 - j := by omega
      rw [bin, List.getElem?_cons_succ, ih (by omega), hidx]

/-- The bits of a string are the binary digits of the number it reads as. -/
theorem getElem?_eq_testBit_natOf {b : Bits} {j : Nat} (hj : j < b.length) :
    b[j]? = some ((natOf b).testBit (b.length - 1 - j)) := by
  rw [← getElem?_bin (natOf b) hj, bin_natOf]

/-! ### Packing and unpacking, one byte at a time (R53, R56) -/

@[simp] theorem unpackBytes_cons (y : Byte) (ys : List Byte) :
    unpackBytes (y :: ys) = bin 8 y.toNat ++ unpackBytes ys := rfl

/-- The first byte holds the first eight bits. -/
theorem byteAt_append_zero {b : Bits} (c : Bits) (hb : b.length = 8) :
    byteAt (b ++ c) 0 = BitVec.ofNat 8 (natOf b) := by
  have hbits : ((List.range 8).map fun j => (b ++ c).getD (8 * 0 + j) false) = b := by
    refine List.ext_getElem (by simp [hb]) fun j _ hj => ?_
    simp [List.getElem?_append_left hj, List.getElem?_eq_getElem hj]
  rw [byteAt, hbits]

/-- The later bytes hold the bits after the first eight. -/
theorem byteAt_append_succ {b : Bits} (c : Bits) (hb : b.length = 8) (k : Nat) :
    byteAt (b ++ c) (k + 1) = byteAt c k := by
  have hbit : ∀ j, (b ++ c).getD (8 * (k + 1) + j) false = c.getD (8 * k + j) false := by
    intro j
    have hidx : 8 * (k + 1) + j - b.length = 8 * k + j := by omega
    rw [List.getD_append_right _ _ _ _ (by omega), hidx]
  simp only [byteAt, hbit]

theorem packBytes_append {b : Bits} (c : Bits) (hb : b.length = 8) :
    packBytes (b ++ c) = BitVec.ofNat 8 (natOf b) :: packBytes c := by
  have hcount : ((b ++ c).length + 7) / 8 = (c.length + 7) / 8 + 1 := by
    rw [List.length_append]; omega
  rw [packBytes, hcount, List.range_succ_eq_map, List.map_cons, List.map_map, byteAt_append_zero c hb]
  simp [packBytes, byteAt_append_succ c hb]

/-! ### The two are inverses (R56) -/

theorem getElem?_unpackBytes {bytes : List Byte} {k j : Nat} (hj : j ≤ 7) (hk : k < bytes.length) :
    (unpackBytes bytes)[8 * k + j]? = (bytes[k]?).map fun y => y.getLsbD (7 - j) := by
  induction bytes generalizing k with
  | nil => simp at hk
  | cons y ys ih =>
    cases k with
    | zero =>
      have hlt : 8 * 0 + j < (bin 8 y.toNat).length := by rw [bin_length]; omega
      rw [unpackBytes_cons, List.getElem?_append_left hlt, getElem?_bin _ (by omega)]
      simp [BitVec.getLsbD]
    | succ k =>
      have hle : (bin 8 y.toNat).length ≤ 8 * (k + 1) + j := by rw [bin_length]; omega
      have hidx : 8 * (k + 1) + j - (bin 8 y.toNat).length = 8 * k + j := by rw [bin_length]; omega
      rw [unpackBytes_cons, List.getElem?_append_right hle, hidx, List.getElem?_cons_succ]
      exact ih (by simpa using hk)

theorem packBytes_unpackBytes (bytes : List Byte) : packBytes (unpackBytes bytes) = bytes := by
  induction bytes with
  | nil => rfl
  | cons y ys ih =>
    rw [unpackBytes_cons, packBytes_append _ (bin_length 8 y.toNat), natOf_bin_of_lt y.isLt, ih,
      BitVec.ofNat_toNat, BitVec.setWidth_eq]

/-- The induction is on the number of whole bytes. -/
theorem unpackBytes_packBytes {n : Nat} {b : Bits} (hb : b.length = 8 * n) : unpackBytes (packBytes b) = b := by
  induction n generalizing b with
  | zero =>
    obtain rfl : b = [] := List.eq_nil_of_length_eq_zero hb
    rfl
  | succ n ih =>
    have hhead : (b.take 8).length = 8 := by rw [List.length_take]; omega
    have htail : (b.drop 8).length = 8 * n := by rw [List.length_drop]; omega
    have hbyte : natOf (b.take 8) < 2 ^ 8 := by simpa only [hhead] using natOf_lt (b.take 8)
    have hbin : bin 8 (natOf (b.take 8)) = b.take 8 := by simpa only [hhead] using bin_natOf (b.take 8)
    calc unpackBytes (packBytes b)
        = unpackBytes (packBytes (b.take 8 ++ b.drop 8)) := by rw [List.take_append_drop]
      _ = bin 8 (natOf (b.take 8)) ++ unpackBytes (packBytes (b.drop 8)) := by
          rw [packBytes_append _ hhead, unpackBytes_cons, BitVec.toNat_ofNat, Nat.mod_eq_of_lt hbyte]
      _ = b := by rw [hbin, ih htail, List.take_append_drop]

/-- Settles O13: bit by bit, and both inverses, one byte at a time. -/
theorem unpackingInvertsPacking : Obligations.UnpackingInvertsPacking := by
  refine ⟨fun _ _ _ hj hk => getElem?_unpackBytes hj hk, fun b hb => ?_, packBytes_unpackBytes⟩
  exact unpackBytes_packBytes (n := b.length / 8) (by omega)

/-! ### A source read (R55) -/

section SourceBits

variable {c : Source} {n : Nat}

theorem Source.take_left_length (h : c.rpos + n ≤ c.bits.length) : (c.left.take n).length = n := by
  rw [List.length_take, Source.left_length]; omega

/-- Bit `j` of the next `n` bits is a digit of the number they read as. -/
theorem Source.getElem?_eq_testBit (h : c.rpos + n ≤ c.bits.length) {j : Nat} (hj : j < n) :
    c.bits[c.rpos + j]? = some ((natOf (c.left.take n)).testBit (n - 1 - j)) := by
  have hlen := Source.take_left_length h
  have hdigit := getElem?_eq_testBit_natOf (b := c.left.take n) (hlen.symm ▸ hj)
  rw [hlen, List.getElem?_take_of_lt hj] at hdigit
  rw [← hdigit, Source.left, List.getElem?_drop]

end SourceBits

/-- Settles O14: the number read is `natOf` of the next `n` bits; a short read is `DecRun.truncated`. -/
theorem sourceReadTakesOrTruncates : Obligations.SourceReadTakesOrTruncates := by
  intro n r k hn _ hok
  refine ⟨fun hle => ?_, fun hlt => ⟨_, sourceRead_short k hok hlt⟩⟩
  have hlen := Source.take_left_length hle
  have hread := sourceRead_take k hok (List.take_append_drop n r.source.left).symm hlen hn
  exact ⟨natOf (r.source.left.take n), by simpa only [hlen] using natOf_lt (r.source.left.take n),
    fun j hj => Source.getElem?_eq_testBit hle hj, hread⟩

end Sys2Proof.Machine

namespace Sys2Proof.Machine

/-! ### A command word and its four fields (R80) -/

theorem append_and_append_eq_iff {n m : Nat} {a x c : BitVec n} {b y d : BitVec m} :
    (a ++ b) &&& (x ++ y) = c ++ d ↔ a &&& x = c ∧ b &&& y = d := by
  refine ⟨fun h => ?_, fun ⟨ha, hb⟩ => by rw [BitVec.and_append, ha, hb]⟩
  rw [BitVec.and_append] at h
  have hhi := congrArg (BitVec.extractLsb' m n) h
  have hlo := congrArg (BitVec.extractLsb' 0 m) h
  exact ⟨by simpa only [BitVec.extractLsb'_append_eq_left] using hhi,
    by simpa only [BitVec.extractLsb'_append_eq_right] using hlo⟩

theorem fields_append (w : Word) : opcOf w ++ rsvOf w ++ tsOf w ++ valOf w = w := by
  unfold opcOf rsvOf tsOf valOf
  rw [BitVec.extractLsb'_append_extractLsb'_eq_extractLsb' (by rfl),
    BitVec.extractLsb'_append_extractLsb'_eq_extractLsb' (by rfl)]
  exact BitVec.extractLsb'_append_extractLsb'

/-! ### The rows of the opcode table, by fields (R84) -/

/-- The row of an opcode on a port: `OPC` and `RSV` compared whole, the operands under these masks with zero. -/
def opcRow (port : Agent) (opc : BitVec 8) (tsMask : Time) (valMask : Value) : CmdRow :=
  ⟨port, cmdWord opc 0 0, BitVec.allOnes 8 ++ BitVec.allOnes 24 ++ tsMask ++ valMask⟩

/-- The `TS` mask of an `RDREG` row, which leaves the register index open (R83). -/
def rdregMask : Time := BitVec.allOnes 29 ++ (0 : BitVec 3)

theorem cmdTable_eq : cmdTable =
    [opcRow .enc 0x01 0 (BitVec.allOnes 64), opcRow .enc 0x02 0 0,
      opcRow .enc 0x03 (BitVec.allOnes 32) (BitVec.allOnes 64), opcRow .enc 0x04 rdregMask (BitVec.allOnes 64),
      opcRow .dec 0x81 (BitVec.allOnes 32) (BitVec.allOnes 64), opcRow .dec 0x82 (BitVec.allOnes 32) (BitVec.allOnes 64),
      opcRow .dec 0x84 rdregMask (BitVec.allOnes 64)] := by
  decide

@[simp] theorem opcRow_port (port : Agent) (opc : BitVec 8) (tsMask : Time) (valMask : Value) :
    (opcRow port opc tsMask valMask).port = port := rfl

@[simp] theorem opcRow_hits_iff (port : Agent) (opc : BitVec 8) (tsMask : Time) (valMask : Value) (w : Word) :
    (opcRow port opc tsMask valMask).hits w = true ↔
      rsvOf w = 0 ∧ opcOf w = opc ∧ tsOf w &&& tsMask = 0 ∧ valOf w &&& valMask = 0 := by
  have hfields : (opcRow port opc tsMask valMask).hits w = true ↔
      (opcOf w ++ rsvOf w ++ tsOf w ++ valOf w) &&& (BitVec.allOnes 8 ++ BitVec.allOnes 24 ++ tsMask ++ valMask)
        = opc ++ (0 : BitVec 24) ++ (0 : Time) ++ (0 : Value) := by
    rw [fields_append w]
    exact beq_iff_eq
  simp only [hfields, append_and_append_eq_iff, BitVec.and_allOnes, and_assoc, and_left_comm]

@[simp] theorem and_rdregMask_eq_zero_iff (ts : Time) : ts &&& rdregMask = 0#32 ↔ ts.extractLsb' 3 29 = 0#29 := by
  have hsplit : ts &&& rdregMask = 0#32 ↔
      (ts.extractLsb' 3 29 ++ ts.extractLsb' 0 3) &&& (BitVec.allOnes 29 ++ (0 : BitVec 3))
        = (0 : BitVec 29) ++ (0 : BitVec 3) := by
    rw [BitVec.extractLsb'_append_extractLsb']
    rfl
  rw [hsplit, append_and_append_eq_iff, BitVec.and_allOnes]
  simp

/-! ### The legal words of a port, by fields (R81 to R84) -/

/-- The operand fields of a legal `RDREG`. -/
def RdregFields (w : Word) : Prop :=
  (tsOf w).extractLsb' 3 29 = 0 ∧ valOf w = 0 ∧ (tsOf w).extractLsb' 0 3 ≠ 7

/-- The opcode and operand fields of a legal word of a port; `legalCmd_iff` and `decodeCmd_isOk_iff` tie the table and the
decoder to it. -/
def LegalFields : Agent → Word → Prop
  | .enc, w => (opcOf w = 0x01 ∧ valOf w = 0) ∨ opcOf w = 0x02 ∨ (opcOf w = 0x03 ∧ tsOf w = 0 ∧ valOf w = 0) ∨
      (opcOf w = 0x04 ∧ RdregFields w)
  | .dec, w => (opcOf w = 0x81 ∧ tsOf w = 0 ∧ valOf w = 0) ∨ (opcOf w = 0x82 ∧ tsOf w = 0 ∧ valOf w = 0) ∨
      (opcOf w = 0x84 ∧ RdregFields w)

theorem legalCmd_eq_true_iff (port : Agent) (w : Word) :
    legalCmd port w = true ↔ (∃ row ∈ cmdTable, row.port = port ∧ row.hits w = true) ∧
      ¬ ((opcOf w = 0x04 ∨ opcOf w = 0x84) ∧ (tsOf w).extractLsb' 0 3 = 7) := by
  simp only [legalCmd, Bool.and_eq_true, List.any_eq_true, beq_iff_eq, Bool.not_eq_true', ← Bool.not_eq_true,
    Bool.or_eq_true]

theorem hits_encRow_iff (w : Word) :
    (∃ row ∈ cmdTable, row.port = .enc ∧ row.hits w = true) ↔
      rsvOf w = 0 ∧ ((opcOf w = 0x01 ∧ valOf w = 0) ∨ opcOf w = 0x02 ∨ (opcOf w = 0x03 ∧ tsOf w = 0 ∧ valOf w = 0) ∨
        (opcOf w = 0x04 ∧ (tsOf w).extractLsb' 3 29 = 0 ∧ valOf w = 0)) := by
  simp only [cmdTable_eq, List.exists_mem_cons_iff, List.not_mem_nil, opcRow_port, opcRow_hits_iff, BitVec.and_allOnes,
    BitVec.ofNat_eq_ofNat, BitVec.and_zero, and_rdregMask_eq_zero_iff, reduceCtorEq, true_and, and_true, false_and,
    or_false, exists_false, and_or_left]

theorem hits_decRow_iff (w : Word) :
    (∃ row ∈ cmdTable, row.port = .dec ∧ row.hits w = true) ↔
      rsvOf w = 0 ∧ ((opcOf w = 0x81 ∧ tsOf w = 0 ∧ valOf w = 0) ∨ (opcOf w = 0x82 ∧ tsOf w = 0 ∧ valOf w = 0) ∨
        (opcOf w = 0x84 ∧ (tsOf w).extractLsb' 3 29 = 0 ∧ valOf w = 0)) := by
  simp only [cmdTable_eq, List.exists_mem_cons_iff, List.not_mem_nil, opcRow_port, opcRow_hits_iff, BitVec.and_allOnes,
    BitVec.ofNat_eq_ofNat, and_rdregMask_eq_zero_iff, reduceCtorEq, true_and, false_and, or_false, false_or, exists_false,
    and_or_left]

/-- Of the rows of a port only `RDREG` has an opcode that the reserved index concerns. -/
theorem legalCmd_iff (port : Agent) (w : Word) : legalCmd port w = true ↔ rsvOf w = 0 ∧ LegalFields port w := by
  rw [legalCmd_eq_true_iff]
  cases port with
  | enc =>
    rw [hits_encRow_iff, LegalFields, RdregFields]
    grind
  | dec =>
    rw [hits_decRow_iff, LegalFields, RdregFields]
    grind

/-! ### The decoder accepts these words -/

theorem isOk_ite_iff {p : Prop} [Decidable p] {x y : Except DecodeError Instr} :
    (∃ i, (if p then x else y) = .ok i) ↔ (p ∧ ∃ i, x = .ok i) ∨ (¬ p ∧ ∃ i, y = .ok i) := by
  split_ifs with hp <;> simp [hp]

theorem decodeRdreg_isOk_iff (w : Word) (mk : BitVec 3 → Instr) :
    (∃ i, decodeRdreg w mk = .ok i) ↔ RdregFields w := by
  simp only [decodeRdreg, RdregFields, isOk_ite_iff, reduceCtorEq, Except.ok.injEq, exists_false, exists_eq', and_false,
    false_or, and_true, not_or, ne_eq, not_not, and_assoc]

/-- The branches of the decoder are tried in turn: a later one is reached only past the opcodes before it. -/
theorem decodeEncWord_isOk_iff (w : Word) : (∃ i, decodeEncWord w = .ok i) ↔ LegalFields .enc w := by
  simp only [decodeEncWord, LegalFields, isOk_ite_iff, decodeRdreg_isOk_iff, reduceCtorEq, Except.ok.injEq, exists_false,
    exists_eq', and_false, or_false, and_true]
  grind

theorem decodeDecWord_isOk_iff (w : Word) : (∃ i, decodeDecWord w = .ok i) ↔ LegalFields .dec w := by
  simp only [decodeDecWord, LegalFields, isOk_ite_iff, decodeRdreg_isOk_iff, reduceCtorEq, Except.ok.injEq, exists_false,
    exists_eq', and_false, or_false, and_true]
  grind

theorem decodeCmd_isOk_iff (port : Agent) (w : Word) :
    (∃ i, decodeCmd port w = .ok i) ↔ rsvOf w = 0 ∧ LegalFields port w := by
  cases port with
  | enc =>
    simp only [decodeCmd, isOk_ite_iff, decodeEncWord_isOk_iff, reduceCtorEq, exists_false, and_false, false_or, ne_eq,
      not_not]
  | dec =>
    simp only [decodeCmd, isOk_ite_iff, decodeDecWord_isOk_iff, reduceCtorEq, exists_false, and_false, false_or, ne_eq,
      not_not]

theorem decodeCmd_isOk_iff_legalCmd (port : Agent) (w : Word) :
    (∃ i, decodeCmd port w = .ok i) ↔ legalCmd port w = true := by
  rw [decodeCmd_isOk_iff, legalCmd_iff]

theorem decodeCmd_error_of_illegal {port : Agent} {w : Word} (h : legalCmd port w = false) :
    ∃ e, decodeCmd port w = .error e := by
  cases hd : decodeCmd port w with
  | ok i => exact absurd ((decodeCmd_isOk_iff_legalCmd port w).1 ⟨i, hd⟩) (by simp [h])
  | error e => exact ⟨e, rfl⟩

/-! ### The opcodes of the legal words (R81, R84) -/

theorem opcOf_of_legalCmd_enc {w : Word} (h : legalCmd .enc w = true) :
    opcOf w = 0x01 ∨ opcOf w = 0x02 ∨ opcOf w = 0x03 ∨ opcOf w = 0x04 :=
  ((legalCmd_iff .enc w).1 h).2.imp And.left (Or.imp id (Or.imp And.left And.left))

theorem opcOf_of_legalCmd_dec {w : Word} (h : legalCmd .dec w = true) :
    opcOf w = 0x81 ∨ opcOf w = 0x82 ∨ opcOf w = 0x84 :=
  ((legalCmd_iff .dec w).1 h).2.imp And.left (Or.imp And.left And.left)

theorem legalCmd_enc_eq_false {w : Word}
    (h : ¬ (opcOf w = 0x01 ∨ opcOf w = 0x02 ∨ opcOf w = 0x03 ∨ opcOf w = 0x04)) : legalCmd .enc w = false :=
  Bool.eq_false_iff.2 fun hlegal => h (opcOf_of_legalCmd_enc hlegal)

theorem legalCmd_dec_eq_false {w : Word} (h : ¬ (opcOf w = 0x81 ∨ opcOf w = 0x82 ∨ opcOf w = 0x84)) :
    legalCmd .dec w = false :=
  Bool.eq_false_iff.2 fun hlegal => h (opcOf_of_legalCmd_dec hlegal)

/-! ### What an illegal word does (R238) -/

theorem encIllegal_eq_encAfter {s : State} (h : SinkOk s) :
    s.encIllegal = s.encAfter { s.enc.regs with misuse := true } s.enc.sink (responseWord 0x21 0 0) :=
  encFinish_respond s _ 0 0 _ h

theorem decIllegal_eq_decAfter {s : State} (h : SourceOk s) :
    s.decIllegal = s.decAfter { s.dec.regs with misuse := true } s.dec.source (responseWord 0x21 0 0) :=
  decFinish_respond s _ 0 0 _ h rfl

/-- Settles O4: the table and the decoder accept the words of the same fields, a reserved or foreign opcode is none of
theirs, and the step of an illegal word ends as a use error. -/
theorem illegalWordsOnlySetMisuse : Obligations.IllegalWordsOnlySetMisuse := by
  refine ⟨decodeCmd_isOk_iff_legalCmd, fun w hopc => ⟨legalCmd_enc_eq_false ?_, legalCmd_dec_eq_false ?_⟩,
    fun w hopc => legalCmd_enc_eq_false ?_, fun w hopc => legalCmd_dec_eq_false ?_, ?encoder, ?decoder⟩
  iterate 4 bv_omega
  case encoder =>
    intro s w answers rest hi hstage hwaiting hok hillegal
    obtain ⟨e, he⟩ := decodeCmd_error_of_illegal hillegal
    rw [step_encCmd_illegal hstage hi hwaiting he, encIllegal_eq_encAfter hok]
  case decoder =>
    intro s w answers rest hi hstage hwaiting hok hillegal
    obtain ⟨e, he⟩ := decodeCmd_error_of_illegal hillegal
    rw [step_decCmd_illegal hstage hi hwaiting he, decIllegal_eq_decAfter hok]

end Sys2Proof.Machine

namespace Sys2Proof.Machine

/-! ### Zero counts as positions in the bit string of a value (R120, R121) -/

theorem length_takeWhile_not (b : Bits) : (b.takeWhile fun x => !x).length = b.findIdx id := by
  simp only [List.takeWhile_eq_take_findIdx_not, Bool.not_not, List.length_take]
  exact min_eq_left List.findIdx_le_length

theorem clz64_eq_findIdx (v : Value) : clz64 v = (bin 64 v.toNat).findIdx id := length_takeWhile_not _

theorem ctz64_eq_findIdx (v : Value) : ctz64 v = (bin 64 v.toNat).reverse.findIdx id := length_takeWhile_not _

theorem clz64_le (v : Value) : clz64 v ≤ 64 := by
  rw [clz64_eq_findIdx]
  exact List.findIdx_le_length.trans_eq (bin_length 64 v.toNat)

theorem ctz64_le (v : Value) : ctz64 v ≤ 64 := by
  rw [ctz64_eq_findIdx]
  exact List.findIdx_le_length.trans_eq (by rw [List.length_reverse, bin_length])

/-! ### Zero counts by the bits they skip -/

section ZeroCounts

variable {v : Value} {i : Nat}

theorem getElem_bin_toNat (h : i < (bin 64 v.toNat).length) : (bin 64 v.toNat)[i] = v.getLsbD (63 - i) := by
  rw [bin_length] at h
  rw [List.getElem_eq_iff, getElem?_bin v.toNat h, BitVec.testBit_toNat]

theorem getElem_reverse_bin_toNat (h : i < (bin 64 v.toNat).reverse.length) :
    (bin 64 v.toNat).reverse[i] = v.getLsbD i := by
  have hi : i < 64 := by simpa using h
  have hidx : 63 - ((bin 64 v.toNat).length - 1 - i) = i := by rw [bin_length]; omega
  rw [List.getElem_reverse, getElem_bin_toNat, hidx]

theorem clz64_eq_iff (hi : i < 64) :
    clz64 v = i ↔ v.getLsbD (63 - i) = true ∧ ∀ j < i, v.getLsbD (63 - j) = false := by
  rw [clz64_eq_findIdx, List.findIdx_eq (by rwa [bin_length])]
  simp only [getElem_bin_toNat, id_eq]

theorem ctz64_eq_iff (hi : i < 64) : ctz64 v = i ↔ v.getLsbD i = true ∧ ∀ j < i, v.getLsbD j = false := by
  rw [ctz64_eq_findIdx, List.findIdx_eq (by rwa [List.length_reverse, bin_length])]
  simp only [getElem_reverse_bin_toNat, id_eq]

theorem true_mem_bin_of_ne_zero (hv : v ≠ 0) : true ∈ bin 64 v.toNat := by
  by_contra hmem
  refine hv (BitVec.eq_of_getLsbD_eq fun k hk => ?_)
  have hlen : 63 - k < (bin 64 v.toNat).length := by rw [bin_length]; omega
  have hbit := getElem_bin_toNat hlen
  rw [Nat.sub_sub_self (by omega)] at hbit
  simpa [hbit] using ne_of_mem_of_not_mem (List.getElem_mem hlen) hmem

theorem clz64_lt_of_ne_zero (hv : v ≠ 0) : clz64 v < 64 := by
  rw [clz64_eq_findIdx]
  exact (List.findIdx_lt_length_of_exists ⟨true, true_mem_bin_of_ne_zero hv, rfl⟩).trans_eq (bin_length 64 v.toNat)

theorem ctz64_lt_of_ne_zero (hv : v ≠ 0) : ctz64 v < 64 := by
  rw [ctz64_eq_findIdx]
  exact (List.findIdx_lt_length_of_exists ⟨true, List.mem_reverse.2 (true_mem_bin_of_ne_zero hv), rfl⟩).trans_eq
    (by rw [List.length_reverse, bin_length])

/-- The highest set bit of a value that is not 0 stands below the leading zeros. -/
theorem highest_set_bit (hv : v ≠ 0) :
    v.getLsbD (63 - clz64 v) = true ∧ ∀ j, 63 - clz64 v < j → v.getLsbD j = false := by
  obtain ⟨hbit, habove⟩ := (clz64_eq_iff (clz64_lt_of_ne_zero hv)).1 rfl
  refine ⟨hbit, fun j hj => ?_⟩
  by_cases hj64 : j < 64
  · simpa [Nat.sub_sub_self (show j ≤ 63 by omega)] using habove (63 - j) (by omega)
  · exact BitVec.getLsbD_of_ge v j (by omega)

/-- The lowest set bit of a value that is not 0 stands above the trailing zeros. -/
theorem lowest_set_bit (hv : v ≠ 0) :
    v.getLsbD (ctz64 v) = true ∧ ∀ j, j < ctz64 v → v.getLsbD j = false :=
  (ctz64_eq_iff (ctz64_lt_of_ne_zero hv)).1 rfl

end ZeroCounts

/-- Settles O8: the bits `clz64` and `ctz64` stop at are the highest and the lowest set bit, and a set bit is not above
the highest. -/
theorem zeroCountsFindTheSetBits : Obligations.ZeroCountsFindTheSetBits := by
  refine ⟨by decide, by decide, by decide, by decide, by decide, by decide, by decide, by decide,
    fun v => ⟨clz64_le v, ctz64_le v⟩, fun v hv => ?_⟩
  obtain ⟨hhi, habove⟩ := highest_set_bit hv
  obtain ⟨hlo, hbelow⟩ := lowest_set_bit hv
  have hlt : clz64 v < 64 := clz64_lt_of_ne_zero hv
  have hle : ctz64 v ≤ 63 - clz64 v := by
    by_contra hgt
    simp [habove _ (not_le.1 hgt)] at hlo
  exact ⟨63 - clz64 v, ctz64 v, by omega, hle, hhi, habove, by omega, hlo, hbelow, rfl⟩

/-! ### Signed fields (R124, R125) -/

section SignedFields

variable {n : Nat} {x : Int}

@[simp] theorem senc_of_nonneg (n : Nat) (h : 0 ≤ x) : senc n x = x.toNat := if_pos h

@[simp] theorem senc_of_neg (n : Nat) (h : x < 0) : senc n x = (x + 2 ^ n).toNat := if_neg (not_le.2 h)

theorem sdec_of_le {u : Nat} (h : u ≤ 2 ^ (n - 1)) : sdec n u = u := if_neg (not_lt.2 h)

theorem sdec_of_gt {u : Nat} (h : 2 ^ (n - 1) < u) : sdec n u = u - 2 ^ n := if_pos h

/-- R126 in the range of R123: the payloads of the two signs lie on the two sides of the threshold. -/
theorem sdec_senc (hn : 0 < n) (hlo : -2 ^ (n - 1) + 1 ≤ x) (hhi : x ≤ 2 ^ (n - 1)) : sdec n (senc n x) = x := by
  obtain ⟨m, rfl⟩ := Nat.exists_eq_add_one.2 hn
  have hpow : (2 : Int) ^ (m + 1) = 2 * 2 ^ m := pow_succ' 2 m
  have hcast : ((2 ^ m : Nat) : Int) = 2 ^ m := Nat.cast_pow 2 m
  rw [Nat.add_sub_cancel] at hlo hhi
  rcases lt_or_ge x 0 with hneg | hnonneg
  · rw [senc_of_neg _ hneg, sdec_of_gt (by rw [Nat.add_sub_cancel]; omega)]
    omega
  · rw [senc_of_nonneg _ hnonneg, sdec_of_le (by rw [Nat.add_sub_cancel]; omega)]
    omega

theorem ofInt_add_two_pow (n : Nat) (x : Int) : BitVec.ofInt n (x + 2 ^ n) = BitVec.ofInt n x :=
  BitVec.eq_of_toInt_eq (by simpa [BitVec.toInt_ofInt] using Int.add_bmod_right x (2 ^ n))

/-- Decoding a payload keeps it modulo `2^n`. -/
theorem ofInt_sdec (n u : Nat) : BitVec.ofInt n (sdec n u) = BitVec.ofInt n u := by
  rcases lt_or_ge (2 ^ (n - 1)) u with hgt | hle
  · rw [sdec_of_gt hgt, ← ofInt_add_two_pow, sub_add_cancel]
  · rw [sdec_of_le hle]

/-- The bias of a negative value is the modulus. -/
theorem ofInt_senc (h : -2 ^ n ≤ x) : BitVec.ofInt n (senc n x) = BitVec.ofInt n x := by
  rcases lt_or_ge x 0 with hneg | hnonneg
  · rw [senc_of_neg n hneg, Int.toNat_of_nonneg (by omega), ofInt_add_two_pow]
  · rw [senc_of_nonneg n hnonneg, Int.toNat_of_nonneg hnonneg]

end SignedFields

/-- Settles O9: in the three narrow fields the two functions are inverses; at width 32 each keeps the value modulo
`2^32`, `-2^31` among them, which the pair does not give back. -/
theorem signedFieldsRoundTrip : Obligations.SignedFieldsRoundTrip := by
  refine ⟨fun x hlo hhi => sdec_senc (by decide) hlo hhi, fun x hlo hhi => sdec_senc (by decide) hlo hhi,
    fun x hlo hhi => sdec_senc (by decide) hlo hhi, fun x hlo _ => ?_, rfl, rfl, rfl, rfl, rfl, rfl⟩
  rw [ofInt_sdec, ofInt_senc (by omega)]

end Sys2Proof.Machine

namespace Sys2Proof.Machine

/-! ### The boundaries of the bucket selector (R149, R150) -/

/-- Only a delta-of-delta beyond every narrower class takes the widest one. -/
theorem outside_of_bucket_width_eq_32 {dd : Int} (h : (bucket dd).width = 32) : dd < -2047 ∨ 2048 < dd := by
  unfold bucket at h
  split_ifs at h with hzero h7 h9 h12
  iterate 3 exact absurd h (by decide)
  omega

/-- The end marker is the biased form of -1, which a narrower class takes. -/
theorem senc_ne_endMarker {dd : Int} (hlo : -2 ^ 31 ≤ dd) (hhi : dd < 2 ^ 31) (hw : (bucket dd).width = 32) :
    senc 32 dd ≠ 0xFFFFFFFF := by
  have hout := outside_of_bucket_width_eq_32 hw
  rcases lt_or_ge dd 0 with hneg | hnonneg
  · rw [senc_of_neg 32 hneg]
    omega
  · rw [senc_of_nonneg 32 hnonneg]
    omega

/-- Settles O10: each boundary by evaluation; the end marker would be the payload of -1, which is no value of the widest
bucket. -/
theorem bucketBoundaries : Obligations.BucketBoundaries :=
  ⟨rfl, rfl, rfl, rfl, rfl, rfl, rfl, rfl, rfl, rfl, rfl, rfl, fun _ hlo hhi hw => senc_ne_endMarker hlo hhi hw⟩

/-! ### The fields of a command word (R80) -/

section CmdWord

variable (opc : BitVec 8) (ts : Time) (val : Value)

@[simp] theorem valOf_cmdWord : valOf (cmdWord opc ts val) = val := BitVec.extractLsb'_append_eq_right

@[simp] theorem tsOf_cmdWord : tsOf (cmdWord opc ts val) = ts := by
  rw [tsOf, cmdWord, BitVec.extractLsb'_append_eq_of_le le_rfl]
  exact BitVec.extractLsb'_append_eq_right

@[simp] theorem rsvOf_cmdWord : rsvOf (cmdWord opc ts val) = 0 := by
  rw [rsvOf, cmdWord, BitVec.extractLsb'_append_eq_of_le (by decide), BitVec.extractLsb'_append_eq_of_le le_rfl]
  exact BitVec.extractLsb'_append_eq_right

@[simp] theorem opcOf_cmdWord : opcOf (cmdWord opc ts val) = opc := by
  rw [opcOf, cmdWord, BitVec.extractLsb'_append_eq_of_le (by decide), BitVec.extractLsb'_append_eq_of_le (by decide)]
  exact BitVec.extractLsb'_append_eq_left

end CmdWord

/-- A word whose reserved field is zero is the command word of its other three fields. -/
theorem eq_cmdWord_of_rsvOf {w : Word} (h : rsvOf w = 0) : w = cmdWord (opcOf w) (tsOf w) (valOf w) := by
  conv_lhs => rw [← fields_append w, h]
  rfl

/-! ### The words of `ENC_HEADER` and `ENC_FINISH` (R81, R82) -/

theorem decodeCmd_encHeader (t0 : Time) : decodeCmd .enc (cmdWord 0x01 t0 0) = .ok (.encHeader t0) := by
  simp [decodeCmd, decodeEncWord]

/-- A word with the opcode of `ENC_HEADER` that uses another field than `TS` is illegal. -/
theorem decodeCmd_ne_ok_of_encHeader_unused {w : Word} (i : Instr) (hopc : opcOf w = 0x01)
    (hunused : valOf w ≠ 0 ∨ rsvOf w ≠ 0) : decodeCmd .enc w ≠ .ok i := by
  intro hd
  obtain ⟨hrsv, hfields⟩ := (decodeCmd_isOk_iff .enc w).1 ⟨i, hd⟩
  have hval : valOf w = 0 := by simpa [LegalFields, hopc] using hfields
  exact hunused.elim (absurd hval) (absurd hrsv)

theorem decodeCmd_eq_encFinish_iff (w : Word) : decodeCmd .enc w = .ok .encFinish ↔ w = cmdWord 0x03 0 0 := by
  constructor
  · intro hd
    simp only [decodeCmd, decodeEncWord] at hd
    split_ifs at hd with hrsv hheader hval hpoint hfinish hzero hrdreg
    · cases hd
    · cases hd
    · obtain ⟨hts, hval⟩ := hzero
      rw [eq_cmdWord_of_rsvOf (not_not.1 hrsv), hfinish, hts, hval]
    · obtain ⟨idx, -, hidx⟩ := decodeRdreg_ok hd
      cases hidx
  · rintro rfl
    simp [decodeCmd, decodeEncWord]

/-! ### How an encoder command ends, with its whole next state (R230, R237, R240) -/

section Ends

variable {s : State}

theorem encFinish_raise {r : EncRun} (x : Status) (h : ∀ a ∈ r.answers, a = SinkAnswer.ok) :
    s.encFinish (r.raise x) = s.encAfter (r.regs.enterError x) r.sink (responseWord x.code 0 0) :=
  encFinish_respond s _ _ _ _ h

theorem encFinish_misuse {r : EncRun} (x : Status) (h : ∀ a ∈ r.answers, a = SinkAnswer.ok) :
    s.encFinish (r.misuse x) = s.encAfter r.regs.setMisuse r.sink (responseWord x.code 0 0) :=
  encFinish_respond s _ _ _ _ h

/-- A command in a phase it does not admit sets `misuse` and changes nothing else (R237). -/
theorem encFinish_admit_misuse {need p : Phase} (body : EncRun → EncResult) (hp : s.enc.regs.phase = p)
    (hne : p ≠ .error) (hneed : p ≠ need) (hok : SinkOk s) :
    s.encFinish (encAdmit need s.encRun body)
      = s.encAfter { s.enc.regs with misuse := true } s.enc.sink (responseWord 0x20 0 0) := by
  subst hp
  rw [encAdmit_misuse hne hneed]
  exact encFinish_misuse (r := s.encRun) .eMisuse hok

theorem sinkAccess_fail {left : Bits} {fl : Bool} {rest : List SinkAnswer} {r : EncRun} (b : Bits) (isFlush : Bool)
    (k : EncRun → EncResult) (h : r.answers = .fail left fl :: rest) :
    sinkAccess b isFlush r k = EncRun.raise { r with sink := ⟨left, fl⟩, answers := rest } .eIO := by
  simp [sinkAccess, h]

/-- A `SinkPut` fails at access `n` when that many are answered `ok` before it (R57, R232). -/
theorem sinkPut_fail {n : Nat} {fs : List Field} {r : EncRun} {left : Bits} {fl : Bool} {rest : List SinkAnswer}
    (k : EncRun → EncResult) (hf : ∀ f ∈ fs, f.width ≠ 0) (hn : n < fs.length)
    (ha : r.answers = List.replicate n .ok ++ .fail left fl :: rest) :
    sinkPut fs r k = EncRun.raise { r with sink := ⟨left, fl⟩, answers := rest } .eIO := by
  rw [sinkPut_skip n fs r k _ hf hn.le ha, List.drop_eq_getElem_cons hn, sinkPut,
    if_neg (hf _ (List.getElem_mem hn)), sinkWrite]
  exact sinkAccess_fail _ _ _ rfl

/-- A `SinkPut` with an `ok` for each access leaves the answers after them to the rest of the command. -/
theorem sinkPut_exact {fs : List Field} {r : EncRun} {rest : List SinkAnswer} (k : EncRun → EncResult)
    (hf : ∀ f ∈ fs, f.width ≠ 0) (ha : r.answers = List.replicate fs.length .ok ++ rest) :
    sinkPut fs r k = k { r with sink := r.sink.append (fieldsBits fs), answers := rest } := by
  rw [sinkPut_skip fs.length fs r k rest hf le_rfl ha, List.drop_length, List.take_length, sinkPut]

end Ends

/-! ### The bits of a field (R12, R51) -/

/-- Only the low bits of a value are written. -/
theorem bin_toNat_ofNat {n m : Nat} (v : Nat) (h : n ≤ m) : bin n (BitVec.ofNat m v).toNat = bin n v := by
  rw [BitVec.toNat_ofNat, ← bin_mod, Nat.mod_mod_of_dvd v (pow_dvd_pow 2 h), bin_mod]

theorem Field.bits_ofNat {n : Nat} (v : Nat) (h : n ≤ 64) : (⟨BitVec.ofNat 64 v, n⟩ : Field).bits = bin n v :=
  bin_toNat_ofNat v h

@[simp] theorem Field.bits_setWidth (t : Time) (n : Nat) : (⟨t.setWidth 64, n⟩ : Field).bits = bin n t.toNat := by
  rw [Field.bits, BitVec.toNat_setWidth_of_le (by decide)]

/-- A short bit string written as the number it reads as. -/
theorem Field.bits_natOf {b : Bits} (h : b.length ≤ 64) : (⟨BitVec.ofNat 64 (natOf b), b.length⟩ : Field).bits = b := by
  rw [Field.bits_ofNat _ h, bin_natOf]

/-! ### `ENC_HEADER` (R141) -/

section Header

variable {s : State} (t0 : Time)

theorem exec_encHeader_init (hp : s.enc.regs.phase = .init) :
    exec (.encHeader t0) s = .next (s.encFinish (encHeaderBody t0 s.encRun)) :=
  congrArg _ (congrArg s.encFinish (encAdmit_run (need := .init) hp (by decide)))

theorem exec_encHeader_ok (hp : s.enc.regs.phase = .init) (hok : SinkOk s) :
    exec (.encHeader t0) s
      = .next (s.encAfter (s.enc.regs.setHeader t0) (s.enc.sink.append (bin 32 t0.toNat)) (responseWord 0x00 0 0)) := by
  rw [exec_encHeader_init t0 hp, encHeaderBody, sinkWrite, sinkAccess_ok _ _ _ _ ?ok,
    encFinish_respond _ _ _ _ _ ?tail, Field.bits_setWidth]
  case ok => exact hok
  case tail => exact tail_all hok
  rfl

/-- The registers are written before the sink fails (R141, R232). -/
theorem exec_encHeader_fail {left : Bits} {fl : Bool} {rest : List SinkAnswer} (hp : s.enc.regs.phase = .init)
    (ha : s.sinkAnswers = .fail left fl :: rest) (hrest : ∀ a ∈ rest, a = SinkAnswer.ok) :
    exec (.encHeader t0) s
      = .next (s.encAfter ((s.enc.regs.setHeader t0).enterError .eIO) ⟨left, fl⟩ (responseWord 0x10 0 0)) := by
  rw [exec_encHeader_init t0 hp, encHeaderBody, sinkWrite, sinkAccess_fail _ _ _ ha, encFinish_raise _ hrest]
  rfl

end Header

/-- Settles O15: the header's word by its fields, its run by the one access it makes, and a phase it does not admit. -/
theorem encHeaderWritesT0 : Obligations.EncHeaderWritesT0 := by
  refine ⟨decodeCmd_encHeader, fun s t0 hp hok => exec_encHeader_ok t0 hp hok,
    fun s t0 left fl rest hp ha hrest => exec_encHeader_fail t0 hp ha hrest, fun s t0 hp hok => ?misuse,
    fun w i hopc hunused => decodeCmd_ne_ok_of_encHeader_unused i hopc hunused, by decide⟩
  case misuse =>
    obtain hp | hp := hp <;> exact congrArg _ (encFinish_admit_misuse _ hp (by decide) (by decide) hok)

/-! ### `ENC_POINT` (R142) -/

section Point

variable {s : State} {r : Regs} (t : Time) (v : Value)

theorem exec_encPoint_opened (hp : s.enc.regs.phase = .opened) :
    exec (.encPoint t v) s = .next (s.encFinish (encPointBody t v s.encRun)) :=
  congrArg _ (congrArg s.encFinish (encAdmit_run (need := .opened) hp (by decide)))

/-- A point on a sink that does not fail leaves the registers and appends the bits of its effect. -/
theorem exec_encPoint_ok (hp : s.enc.regs.phase = .opened) (hok : SinkOk s) :
    exec (.encPoint t v) s
      = .next (s.encAfter (encPointEffect t v s.enc.regs).1
          (s.enc.sink.append (fieldsBits (encPointEffect t v s.enc.regs).2)) (responseWord 0x00 0 0)) := by
  rw [exec_encPoint_opened t v hp, encPointBody]
  obtain ⟨rest, hrest, e⟩ := sinkPut_ok (encPointEffect t v s.enc.regs).2
    { s.encRun with regs := (encPointEffect t v s.enc.regs).1 } (fun r => .respond Status.ok.code 0 0 r) hok
  exact congrArg _ ((congrArg _ e).trans (encFinish_respond _ _ _ _ _ hrest))

theorem encPointEffect_first (h : r.storedTS = 0) : encPointEffect t v r = encFirst t v r := if_pos h

theorem encPointEffect_subsequent (h : r.storedTS ≠ 0) :
    encPointEffect t v r
      = ((encValue v (r.setTime (t - r.storedTS) t)).1,
          (encTime t r).2 ++ (encValue v (r.setTime (t - r.storedTS) t)).2) := if_neg h

theorem fieldsBits_encFirst (r : Regs) :
    fieldsBits (encFirst t v r).2 = bin 14 (t - r.hdrTS).toNat ++ bin 64 v.toNat := by
  simp only [encFirst, fieldsBits_cons, fieldsBits_nil, List.append_nil, Field.bits_setWidth]
  rfl

end Point

/-- Settles O16: the effect of a point on the first path. -/
theorem encPointFirstPath : Obligations.EncPointFirstPath := by
  intro s t v hp hts hok
  rw [exec_encPoint_ok t v hp hok, encPointEffect_first t v hts, fieldsBits_encFirst]
  rfl

/-! ### The timestamp half of a subsequent point (R146, R148, R150) -/

theorem bucket_prefixBits_length_le (dd : Int) : (bucket dd).prefixBits.length ≤ 64 := by
  unfold bucket
  split_ifs <;> simp

theorem bucket_width_le (dd : Int) : (bucket dd).width ≤ 64 := by
  unfold bucket
  split_ifs <;> simp

theorem fieldsBits_encTime (t : Time) (r : Regs) :
    fieldsBits (encTime t r).2
      = (bucket (encDod t r)).prefixBits ++ bin (bucket (encDod t r)).width
          (senc (bucket (encDod t r)).width (encDod t r)) := by
  simp only [encTime, fieldsBits_cons, fieldsBits_nil, List.append_nil,
    Field.bits_natOf (bucket_prefixBits_length_le _), Field.bits_ofNat _ (bucket_width_le _)]

/-! ### The value half of a subsequent point (R151 to R157) -/

section ValueHalf

variable {v x : Value} {r : Regs}

theorem clz64_add_ctz64_le (hx : x ≠ 0) : clz64 x + ctz64 x ≤ 63 := by
  obtain ⟨-, habove⟩ := highest_set_bit hx
  obtain ⟨hlo, -⟩ := lowest_set_bit hx
  have hlt := clz64_lt_of_ne_zero hx
  by_contra hgt
  simp [habove (ctz64 x) (by omega)] at hlo

/-- The clamped leading zeros and the trailing zeros of a value that is not 0 leave 1 to 64 significant bits (R153). -/
theorem clampedLZ_add_ctz64_le (hx : x ≠ 0) : clampedLZ x + ctz64 x ≤ 63 :=
  (Nat.add_le_add_right (min_le_left _ _) _).trans (clz64_add_ctz64_le hx)

theorem clampedLZ_le (x : Value) : clampedLZ x ≤ 31 := min_le_right _ _

/-- The 6-bit field holds every significant-bit count, 64 as 0 (R98). -/
theorem sigCount_ofNat {n : Nat} (hpos : 1 ≤ n) (hle : n ≤ 64) : sigCount (BitVec.ofNat 6 n) = n := by
  rcases hle.lt_or_eq with hlt | rfl
  · have hne : BitVec.ofNat 6 n ≠ 0 := by bv_omega
    rw [sigCount, if_neg hne, BitVec.toNat_ofNat, Nat.mod_eq_of_lt hlt]
  · rfl

theorem fitsWindow_iff : fitsWindow r x = true ↔
    r.winValid = true ∧ r.storedLZ.toNat ≤ clampedLZ x ∧ r.storedTZ.toNat ≤ ctz64 x := by
  simp only [fitsWindow, Bool.and_eq_true, decide_eq_true_eq, and_assoc]

theorem encValue_same (hx : x = v ^^^ r.storedVal) (h : x = 0) : encValue v r = (r.setVal v, [⟨0, 1⟩]) := by
  subst hx
  exact if_pos h

theorem encValue_reuse (hx : x = v ^^^ r.storedVal) (h : x ≠ 0) (hw : fitsWindow r x = true) :
    encValue v r = (r.setVal v, [⟨0b10, 2⟩, ⟨x >>> r.storedTZ.toNat, r.reuseWidth⟩]) := by
  subst hx
  exact (if_neg h).trans (if_pos hw)

theorem encValue_new (hx : x = v ^^^ r.storedVal) (h : x ≠ 0) (hw : ¬ fitsWindow r x = true) :
    encValue v r
      = ((r.setVal v).setWindow (BitVec.ofNat 5 (clampedLZ x)) (BitVec.ofNat 6 (ctz64 x)),
          [⟨0b11, 2⟩, ⟨BitVec.ofNat 64 (clampedLZ x), 5⟩, ⟨BitVec.ofNat 64 ((64 - clampedLZ x - ctz64 x) % 64), 6⟩,
            ⟨x >>> ctz64 x, 64 - clampedLZ x - ctz64 x⟩]) := by
  subst hx
  exact (if_neg h).trans (if_neg hw)

theorem valueCodeword_same (hx : x = v ^^^ r.storedVal) (h : x = 0) : valueCodeword r v = .wireVSame := by
  subst hx
  exact if_pos h

theorem valueCodeword_reuse (hx : x = v ^^^ r.storedVal) (h : x ≠ 0) (hw : fitsWindow r x = true) :
    valueCodeword r v = .wireVReuse r.reuseWidth (x >>> r.storedTZ.toNat) := by
  subst hx
  exact (if_neg h).trans (if_pos (fitsWindow_iff.1 hw))

theorem valueCodeword_new (hx : x = v ^^^ r.storedVal) (h : x ≠ 0) (hw : ¬ fitsWindow r x = true) :
    valueCodeword r v
      = .wireVNew (BitVec.ofNat 5 (clampedLZ x)) (BitVec.ofNat 6 (64 - clampedLZ x - ctz64 x)) (x >>> ctz64 x) := by
  subst hx
  exact (if_neg h).trans (if_neg (mt fitsWindow_iff.2 hw))

/-- The value fields are the bits of the value codeword, in each of its three forms. -/
theorem fieldsBits_encValue (v : Value) (r : Regs) : fieldsBits (encValue v r).2 = encodeWire (valueCodeword r v) := by
  obtain ⟨x, hx⟩ : ∃ x, x = v ^^^ r.storedVal := ⟨_, rfl⟩
  by_cases h : x = 0
  · rw [encValue_same hx h, valueCodeword_same hx h]
    rfl
  by_cases hw : fitsWindow r x = true
  · rw [encValue_reuse hx h hw, valueCodeword_reuse hx h hw]
    simp only [fieldsBits_cons, fieldsBits_nil, List.append_nil]
    rfl
  · have hle := clampedLZ_add_ctz64_le h
    have hsig : bin 6 ((64 - clampedLZ x - ctz64 x) % 64) = bin 6 (64 - clampedLZ x - ctz64 x) := bin_mod 6 _
    rw [encValue_new hx h hw, valueCodeword_new hx h hw, encodeWire, sigCount_ofNat (by omega) (by omega),
      bin_toNat_ofNat _ le_rfl, bin_toNat_ofNat _ le_rfl, ← hsig]
    simp only [fieldsBits_cons, fieldsBits_nil, List.append_nil, Field.bits_ofNat _ (show 5 ≤ 64 by decide),
      Field.bits_ofNat _ (show 6 ≤ 64 by decide), List.append_assoc]
    rfl

/-- The registers of a subsequent point are those that its value codeword tells (R156). -/
theorem encValue_regs (t : Time) (v : Value) (r : Regs) :
    (encValue v (r.setTime (t - r.storedTS) t)).1 = pointRegs t v r := by
  obtain ⟨x, hx⟩ : ∃ x, x = v ^^^ r.storedVal := ⟨_, rfl⟩
  by_cases h : x = 0
  · rw [encValue_same (r := r.setTime (t - r.storedTS) t) hx h, pointRegs, valueCodeword_same hx h]
    rfl
  by_cases hw : fitsWindow r x = true
  · rw [encValue_reuse (r := r.setTime (t - r.storedTS) t) hx h hw, pointRegs, valueCodeword_reuse hx h hw]
    rfl
  · have hle := clampedLZ_add_ctz64_le h
    have hlz : (BitVec.ofNat 5 (clampedLZ x)).toNat = clampedLZ x :=
      Nat.mod_eq_of_lt (Nat.lt_succ_of_le (clampedLZ_le x))
    have htz : 64 - clampedLZ x - (64 - clampedLZ x - ctz64 x) = ctz64 x := by omega
    simp only [encValue_new (r := r.setTime (t - r.storedTS) t) hx h hw, pointRegs, valueCodeword_new hx h hw, hlz,
      sigCount_ofNat (show 1 ≤ 64 - clampedLZ x - ctz64 x by omega) (by omega), htz]
    rfl

end ValueHalf

/-- Settles O17: the timestamp half and the value half of the effect of a subsequent point. -/
theorem encPointSubsequentPath : Obligations.EncPointSubsequentPath := by
  intro s t v hp hts hok
  rw [exec_encPoint_ok t v hp hok, encPointEffect_subsequent t v hts, encValue_regs, fieldsBits_append,
    fieldsBits_encTime, fieldsBits_encValue]
  rfl

/-! ### `ENC_FINISH` (R160 to R162) -/

section Finish

variable {s : State}

theorem exec_encFinish_opened (hp : s.enc.regs.phase = .opened) :
    exec .encFinish s = .next (s.encFinish (encFinishBody s.encRun)) :=
  congrArg _ (congrArg s.encFinish (encAdmit_run (need := .opened) hp (by decide)))

theorem sentinelFields_width_ne_zero (r : Regs) : ∀ f ∈ sentinelFields r, f.width ≠ 0 := by
  unfold sentinelFields
  split_ifs <;> simp

/-- With the flush `ENC_FINISH` makes one access more than the sentinel has fields. -/
theorem sentinelFields_length (r : Regs) :
    (sentinelFields r).length + 1 = if r.storedTS = 0 then 3 else 4 := by
  unfold sentinelFields
  split_ifs <;> rfl

theorem fieldsBits_sentinelFields (r : Regs) :
    fieldsBits (sentinelFields r)
      = if r.storedTS = 0 then bin 14 0x3FFF ++ zeros 64 else bin 4 0xF ++ bin 32 0xFFFFFFFF ++ [false] := by
  unfold sentinelFields
  split_ifs <;> decide

/-- The sentinel and then the padding that fills the last byte (R160, R52). -/
theorem exec_encFinish_ok (hp : s.enc.regs.phase = .opened) (hok : SinkOk s) :
    exec .encFinish s
      = .next (s.encAfter (s.enc.regs.setPhase .finished)
          (s.enc.sink.append (fieldsBits (sentinelFields s.enc.regs))).flush (responseWord 0x00 0 0)) := by
  rw [exec_encFinish_opened hp, encFinishBody]
  obtain ⟨rest, hrest, e⟩ := sinkPut_ok (sentinelFields s.enc.regs)
    { s.encRun with regs := s.enc.regs.setPhase .finished }
    (fun r => sinkFlush r fun r => .respond Status.ok.code 0 0 r) hok
  rw [State.encRun_regs, e, sinkFlush, sinkAccess_ok _ _ _ _ ?ok, encFinish_respond _ _ _ _ _ ?tail]
  case ok => exact hrest
  case tail => exact tail_all hrest
  rfl

/-- A failure at a field of the sentinel, or at the flush after the last of them. -/
theorem encFinishBody_fail {n : Nat} {r : EncRun} {left : Bits} {fl : Bool} {rest : List SinkAnswer}
    (hn : n < (sentinelFields r.regs).length + 1) (ha : r.answers = List.replicate n .ok ++ .fail left fl :: rest) :
    encFinishBody r
      = EncRun.raise { regs := r.regs.setPhase .finished, sink := ⟨left, fl⟩, answers := rest } .eIO := by
  have hwidth := sentinelFields_width_ne_zero r.regs
  rw [encFinishBody]
  rcases (Nat.le_of_lt_succ hn).lt_or_eq with hfield | rfl
  · exact sinkPut_fail _ hwidth hfield ha
  · rw [sinkPut_exact (r := { r with regs := r.regs.setPhase .finished }) _ hwidth ha]
    exact sinkAccess_fail _ _ _ rfl

theorem exec_encFinish_fail {n : Nat} {left : Bits} {fl : Bool} {rest : List SinkAnswer}
    (hp : s.enc.regs.phase = .opened) (hn : n < if s.enc.regs.storedTS = 0 then 3 else 4)
    (ha : s.sinkAnswers = List.replicate n .ok ++ .fail left fl :: rest) (hrest : ∀ a ∈ rest, a = SinkAnswer.ok) :
    exec .encFinish s
      = .next (s.encAfter { s.enc.regs with phase := .error, err := 0x10 } ⟨left, fl⟩ (responseWord 0x10 0 0)) := by
  rw [← sentinelFields_length] at hn
  rw [exec_encFinish_opened hp, encFinishBody_fail hn ha, encFinish_raise .eIO hrest]
  rfl

end Finish

/-- After `ENC_FINISH` no command but `ENC_RDREG` is admitted (R160, R237). -/
theorem exec_enc_finished {s : State} {i : Instr} (hp : s.enc.regs.phase = .finished) (hok : SinkOk s)
    (hport : i.port = some .enc) (hrdreg : ∀ idx, i ≠ .encRdreg idx) :
    exec i s = .next (s.encAfter { s.enc.regs with misuse := true } s.enc.sink (responseWord 0x20 0 0)) := by
  cases i
  case encHeader t0 => exact congrArg _ (encFinish_admit_misuse (encHeaderBody t0) hp (by decide) (by decide) hok)
  case encPoint t v => exact congrArg _ (encFinish_admit_misuse (encPointBody t v) hp (by decide) (by decide) hok)
  case encFinish => exact congrArg _ (encFinish_admit_misuse encFinishBody hp (by decide) (by decide) hok)
  case encRdreg idx => exact absurd rfl (hrdreg idx)
  all_goals cases hport

/-- Settles O19: the sentinel by its fields, each of its accesses and the flush, and the phases that do not admit it. -/
theorem encFinishWritesTheSentinel : Obligations.EncFinishWritesTheSentinel := by
  refine ⟨decodeCmd_eq_encFinish_iff, fun s hp hok => ?sentinel,
    fun s n left fl rest hp hn ha hrest => exec_encFinish_fail hp hn ha hrest, fun s hp hok => ?misuse,
    fun s i hp hok hport hrdreg => exec_enc_finished hp hok hport hrdreg, by decide⟩
  case sentinel =>
    intro sentinel
    have hbits : fieldsBits (sentinelFields s.enc.regs) = sentinel := fieldsBits_sentinelFields s.enc.regs
    refine ⟨padCount (s.enc.sink.bits ++ sentinel).length, padCount_lt _, ?_, ?_⟩
    · rw [List.length_append, zeros, List.length_replicate]
      exact padCount_aligns _
    · rw [exec_encFinish_ok hp hok, hbits]
      rfl
  case misuse =>
    obtain hp | hp := hp <;> exact congrArg _ (encFinish_admit_misuse _ hp (by decide) (by decide) hok)

end Sys2Proof.Machine

namespace Sys2Proof.Machine

/-! ### The word of `DEC_HEADER` (R81, R82) -/

theorem decodeCmd_eq_decHeader_iff (w : Word) : decodeCmd .dec w = .ok .decHeader ↔ w = cmdWord 0x81 0 0 := by
  constructor
  · intro hd
    simp only [decodeCmd, decodeDecWord] at hd
    split_ifs at hd with hrsv hheader hzero hpoint hunused hrdreg
    · obtain ⟨hts, hval⟩ := hzero
      rw [eq_cmdWord_of_rsvOf (not_not.1 hrsv), hheader, hts, hval]
    · cases hd
    · obtain ⟨idx, -, hidx⟩ := decodeRdreg_ok hd
      cases hidx
  · rintro rfl
    simp [decodeCmd, decodeDecWord]

/-- A word with the opcode of `DEC_HEADER` that uses any other field is illegal. -/
theorem decodeCmd_ne_ok_of_decHeader_unused {w : Word} (i : Instr) (hopc : opcOf w = 0x81)
    (hunused : tsOf w ≠ 0 ∨ valOf w ≠ 0 ∨ rsvOf w ≠ 0) : decodeCmd .dec w ≠ .ok i := by
  intro hd
  obtain ⟨hrsv, hfields⟩ := (decodeCmd_isOk_iff .dec w).1 ⟨i, hd⟩
  obtain ⟨hts, hval⟩ : tsOf w = 0 ∧ valOf w = 0 := by simpa [LegalFields, hopc] using hfields
  obtain h | h | h := hunused
  exacts [h hts, h hval, h hrsv]

/-! ### How a decoder command ends, with what it leaves unchanged (R230, R233, R237) -/

section Ends

variable {s : State}

/-- A command in a phase it does not admit sets `misuse` and changes nothing else (R237). -/
theorem decFinish_admit_misuse {need p : Phase} (body : DecRun → DecResult) (hp : s.dec.regs.phase = p)
    (hne : p ≠ .error) (hneed : p ≠ need) (hok : SourceOk s) :
    s.decFinish (decAdmit need s.decRun body)
      = s.decAfter { s.dec.regs with misuse := true } s.dec.source (responseWord 0x20 0 0) := by
  subst hp
  rw [decAdmit_misuse hne hneed]
  exact decFinish_respond s _ _ _ _ hok rfl

/-- A command that ends at a short read keeps the registers it has written before and enters `ERR`; of the source only the
read position is left open (R55, R233). -/
theorem decFinish_truncated {r : DecRun} (hok : ∀ a ∈ r.answers, a = SourceAnswer.ok)
    (hbytes : r.source.bytes = s.dec.source.bytes) : s.TruncatedInto r.regs (s.decFinish r.truncated) := by
  obtain ⟨regs, source, answers, free⟩ := r
  match answers with
  | [] => exact ⟨rfl, rfl, hbytes, rfl, rfl, rfl, rfl⟩
  | a :: rest =>
    obtain rfl : a = .ok := hok a (by simp)
    exact ⟨rfl, rfl, hbytes, rfl, rfl, rfl, rfl⟩

end Ends

/-! ### `DEC_HEADER` (R181) -/

section Header

variable {s : State}

theorem exec_decHeader_init (hp : s.dec.regs.phase = .init) :
    exec .decHeader s = .next (s.decFinish (decHeaderBody s.decRun)) :=
  congrArg _ (congrArg s.decFinish (decAdmit_run (need := .init) hp (by decide)))

theorem exec_decHeader_ok {t0 : Time} {rest : Bits} (hp : s.dec.regs.phase = .init) (hok : SourceOk s)
    (hl : s.dec.source.left = bin 32 t0.toNat ++ rest) :
    exec .decHeader s
      = .next (s.decAfter (s.dec.regs.setHeader t0) (s.dec.source.advance 32) (responseWord 0x00 t0 0)) := by
  rw [exec_decHeader_init hp, decHeaderBody, sourceRead_bin _ ?ok hl t0.isLt (by decide),
    decFinish_respond _ _ _ _ _ ?tail rfl, BitVec.ofNat_toNat, BitVec.setWidth_eq]
  case ok => exact hok
  case tail => exact tail_all hok
  rfl

/-- With fewer than 32 bits left nothing is written before the error. -/
theorem exec_decHeader_truncated (hp : s.dec.regs.phase = .init) (hok : SourceOk s)
    (hshort : s.dec.source.bits.length < s.dec.source.rpos + 32) :
    ∃ t, exec .decHeader s = .next t ∧ s.TruncatedInto s.dec.regs t := by
  refine ⟨_, exec_decHeader_init hp, ?_⟩
  rw [decHeaderBody, sourceRead_short _ ?ok hshort]
  case ok => exact hok
  exact decFinish_truncated (tail_all hok) rfl

end Header

/-- The four bytes of the example's header are its timestamp, most significant bit first (R53, R181). -/
theorem left_exampleHeader (bytes : List Byte) :
    (Source.mk (0x55 :: 0x10 :: 0xc5 :: 0x20 :: bytes) 0).left = bin 32 1427162400 ++ unpackBytes bytes := by
  have hheader : bin 8 0x55 ++ (bin 8 0x10 ++ (bin 8 0xc5 ++ bin 8 0x20)) = bin 32 1427162400 := by decide
  rw [← hheader]
  rfl

/-- Settles O24: the header's word by its fields, its one read answered or short, and a phase that does not admit it. -/
theorem decHeaderReadsT0 : Obligations.DecHeaderReadsT0 := by
  refine ⟨decodeCmd_eq_decHeader_iff, fun s t0 rest hp hok hl => exec_decHeader_ok hp hok hl,
    fun s hp hok hshort => ?truncated, fun s hp hok => ?misuse,
    fun w i hopc hunused => decodeCmd_ne_ok_of_decHeader_unused i hopc hunused, fun bytes => ⟨_, left_exampleHeader bytes⟩⟩
  case truncated =>
    obtain ⟨t, he, hregs, hresponse, hbytes, -, -, henc, hinputs⟩ := exec_decHeader_truncated hp hok hshort
    exact ⟨t, he, hregs, hresponse, hbytes, henc, hinputs⟩
  case misuse =>
    obtain hp | hp := hp <;> exact congrArg _ (decFinish_admit_misuse _ hp (by decide) (by decide) hok)

/-! ### `DEC_POINT` on the first path (R183, R184) -/

section FirstPath

variable {r : DecRun} {rest : Bits}

/-- After a delta that is not the sentinel the 64 value bits follow: 78 bits in two reads (R183). -/
theorem decFirst_point {d : BitVec 14} {v : Value} (hok : ∀ a ∈ r.answers, a = SourceAnswer.ok) (hd : d ≠ 0x3FFF)
    (hl : r.source.left = bin 14 d.toNat ++ (bin 64 v.toNat ++ rest)) :
    decFirst r
      = DecRun.respondPoint
          { r with
            regs := r.regs.setFirst (d.setWidth 32) (r.regs.hdrTS + d.setWidth 32) v
            source := r.source.advance 78
            answers := r.answers.tail.tail } := by
  have hd' : d.toNat ≠ Config.firstDeltaSentinel := fun h => hd (BitVec.eq_of_toNat_eq h)
  have hl' : (r.source.advance Config.nFirstDelta).left = bin 64 v.toNat ++ rest := by
    rw [Source.left_advance, hl]
    exact drop_bin_append 14 _ _
  rw [decFirst, sourceRead_bin (n := Config.nFirstDelta) _ hok hl d.isLt (by decide), if_neg hd',
    sourceRead_bin _ (tail_all hok) hl' v.isLt (by decide)]
  simp only [BitVec.ofNat_toNat, BitVec.setWidth_eq, Source.advance_advance]
  rfl

/-- After the sentinel delta there is no second read (R184). -/
theorem decFirst_end (hok : ∀ a ∈ r.answers, a = SourceAnswer.ok) (hl : r.source.left = ones 14 ++ rest) :
    decFirst r = DecRun.respondEnd { r with source := r.source.advance 14, answers := r.answers.tail } := by
  have hones : ones 14 = bin Config.nFirstDelta Config.firstDeltaSentinel := by decide
  rw [hones] at hl
  rw [decFirst, sourceRead_bin _ hok hl (by decide) (by decide), if_pos rfl]
  rfl

theorem decPointBody_first (hts : r.regs.storedTS = 0) : decPointBody r = decFirst r := if_pos hts

theorem exec_decPoint_opened {s : State} (hp : s.dec.regs.phase = .opened) :
    exec .decPoint s = .next (s.decFinish (decPointBody s.decRun)) :=
  congrArg _ (congrArg s.decFinish (decAdmit_run (need := .opened) hp (by decide)))

theorem exec_decPoint_first {s : State} (hp : s.dec.regs.phase = .opened) (hts : s.dec.regs.storedTS = 0) :
    exec .decPoint s = .next (s.decFinish (decFirst s.decRun)) := by
  rw [exec_decPoint_opened hp, decPointBody_first (r := s.decRun) hts]

end FirstPath

/-- Settles O25: the run of the first path on a point and on the sentinel. -/
theorem decPointFirstPath : Obligations.DecPointFirstPath := by
  refine ⟨fun s d v rest hp hts hok hd hl => ?point, fun s rest hp hts hok hl => ?sentinel⟩
  case point =>
    rw [List.append_assoc] at hl
    rw [exec_decPoint_first hp hts, decFirst_point (r := s.decRun) hok hd hl]
    exact congrArg _ (decFinish_respond _ _ _ _ _ (tail_all (tail_all hok)) rfl)
  case sentinel =>
    rw [exec_decPoint_first hp hts, decFirst_end (r := s.decRun) hok hl]
    exact congrArg _ (decFinish_respond _ _ _ _ _ (tail_all hok) rfl)

end Sys2Proof.Machine

namespace Sys2Proof.Machine

/-! ### Commands that end with the stored error, a data error or a register (R163, R200, R239, R240) -/

section Ends

variable {s : State}

/-- In `ERR` a command responds the stored error and changes nothing (R239). -/
theorem encFinish_admit_error {need : Phase} (body : EncRun → EncResult) (hp : s.enc.regs.phase = .error)
    (hok : SinkOk s) :
    s.encFinish (encAdmit need s.encRun body)
      = s.encAfter s.enc.regs s.enc.sink (responseWord s.enc.regs.err 0 0) := by
  rw [encAdmit_error (r := s.encRun) hp]
  exact encFinish_respond _ _ _ _ _ hok

/-- The same for the decoder. -/
theorem decFinish_admit_error {need : Phase} (body : DecRun → DecResult) (hp : s.dec.regs.phase = .error)
    (hok : SourceOk s) :
    s.decFinish (decAdmit need s.decRun body)
      = s.decAfter s.dec.regs s.dec.source (responseWord s.dec.regs.err 0 0) := by
  rw [decAdmit_error (r := s.decRun) hp]
  exact decFinish_respond _ _ _ _ _ hok rfl

/-- A data error leaves only `phase` and `err` changed in the registers it is raised in (R240). -/
theorem decFinish_raise {r : DecRun} (x : Status) (hok : ∀ a ∈ r.answers, a = SourceAnswer.ok)
    (hfree : r.freeReads = s.dec.freeReads) :
    s.decFinish (r.raise x) = s.decAfter (r.regs.enterError x) r.source (responseWord x.code 0 0) :=
  decFinish_respond s _ _ _ _ hok hfree

theorem exec_encRdreg {idx : BitVec 3} (hidx : idx ≠ 7) (hok : SinkOk s) :
    exec (.encRdreg idx) s
      = .next (s.encAfter s.enc.regs s.enc.sink (responseWord 0x00 0 (readReg s.enc.regs idx))) := by
  have hbody : encRdregBody idx s.encRun = .respond Status.ok.code 0 (readReg s.enc.regs idx) s.encRun := if_neg hidx
  exact congrArg _ ((congrArg s.encFinish hbody).trans (encFinish_respond _ _ _ _ _ hok))

theorem exec_decRdreg {idx : BitVec 3} (hidx : idx ≠ 7) (hok : SourceOk s) :
    exec (.decRdreg idx) s
      = .next (s.decAfter s.dec.regs s.dec.source (responseWord 0x00 0 (readReg s.dec.regs idx))) := by
  have hbody : decRdregBody idx s.decRun = .respond Status.ok.code 0 (readReg s.dec.regs idx) s.decRun := if_neg hidx
  exact congrArg _ ((congrArg s.decFinish hbody).trans (decFinish_respond _ _ _ _ _ hok rfl))

end Ends

/-- Settles O23: the check before each command's pseudocode, row by row of the table of R237, and `RDREG`, which has no such
check. -/
theorem wrongPhaseOnlySetsMisuse : Obligations.WrongPhaseOnlySetsMisuse := by
  refine ⟨fun s i hok h => ?encMisuse, fun s i hok h => ?decMisuse, fun s i hok hp h => ?encError,
    fun s i hok hp h => ?decError,
    fun s idx hidx => ⟨fun hok => ⟨_, exec_encRdreg hidx hok⟩, fun hok => ⟨_, exec_decRdreg hidx hok⟩⟩⟩
  case encMisuse =>
    obtain ⟨⟨t0, rfl⟩, hp | hp⟩ | ⟨rfl | ⟨t, v, rfl⟩, hp | hp⟩ := h <;>
      exact congrArg _ (encFinish_admit_misuse _ hp (by decide) (by decide) hok)
  case decMisuse =>
    obtain ⟨rfl, hp | hp⟩ | ⟨rfl, hp | hp⟩ := h <;>
      exact congrArg _ (decFinish_admit_misuse _ hp (by decide) (by decide) hok)
  case encError =>
    obtain rfl | ⟨t0, rfl⟩ | ⟨t, v, rfl⟩ := h <;> exact congrArg _ (encFinish_admit_error _ hp hok)
  case decError =>
    obtain rfl | rfl := h <;> exact congrArg _ (decFinish_admit_error _ hp hok)

/-! ### A timestamp codeword, read bit by bit (R185 to R187) -/

/-- A one-bit read. -/
theorem sourceRead_bit {r : DecRun} {b : Bool} {rest : Bits} (k : Nat → DecRun → DecResult)
    (hok : ∀ a ∈ r.answers, a = SourceAnswer.ok) (hl : r.source.left = b :: rest) :
    sourceRead 1 r k = k b.toNat { r with source := r.source.advance 1, answers := r.answers.tail } := by
  rw [sourceRead_take (b := [b]) (n := 1) k hok hl rfl one_pos, natOf_cons]
  simp

/-- After a read the bits that follow it come next. -/
theorem left_advance_append {c : Source} {n : Nat} {b rest : Bits} (hl : c.left = b ++ rest) (hb : b.length = n) :
    (c.advance n).left = rest := by
  rw [Source.left_advance, hl]
  exact List.drop_left' hb

@[simp] theorem ones_length (n : Nat) : (ones n).length = n := List.length_replicate

theorem drop_all {α : Type} {p : α → Prop} {l : List α} (n : Nat) (h : ∀ a ∈ l, p a) : ∀ a ∈ l.drop n, p a :=
  fun a ha => h a (List.mem_of_mem_drop ha)

section UnaryParser

variable {r : DecRun} {rest : Bits} (k : Nat) (cont : Nat → DecRun → DecResult)

/-- The unary parser stops at the first 0, where the `n` ones before it are fewer than it may read (R185). -/
theorem readPrefix_stop {fuel n : Nat} (hn : n < fuel) (hok : ∀ a ∈ r.answers, a = SourceAnswer.ok)
    (hl : r.source.left = ones n ++ false :: rest) :
    readPrefix fuel k r cont
      = cont (k + n) { r with source := r.source.advance (n + 1), answers := r.answers.drop (n + 1) } := by
  induction n generalizing fuel k r with
  | zero =>
    obtain ⟨fuel, rfl⟩ := Nat.exists_eq_add_one.2 hn
    rw [readPrefix, sourceRead_bit _ hok hl]
    simp
  | succ n ih =>
    obtain ⟨fuel, rfl⟩ := Nat.exists_eq_add_one.2 (Nat.zero_lt_of_lt hn)
    have hbit : r.source.left = true :: (ones n ++ false :: rest) := hl
    rw [readPrefix, sourceRead_bit _ hok hbit, if_neg (by decide),
      ih (k + 1) (by omega) (tail_all hok) (left_advance_append (b := [true]) hbit rfl)]
    simp [Nat.add_comm, Nat.add_left_comm]

/-- It also stops after as many ones as it may read. -/
theorem readPrefix_full {fuel : Nat} (hok : ∀ a ∈ r.answers, a = SourceAnswer.ok)
    (hl : r.source.left = ones fuel ++ rest) :
    readPrefix fuel k r cont
      = cont (k + fuel) { r with source := r.source.advance fuel, answers := r.answers.drop fuel } := by
  induction fuel generalizing k r with
  | zero => rfl
  | succ fuel ih =>
    have hbit : r.source.left = true :: (ones fuel ++ rest) := hl
    rw [readPrefix, sourceRead_bit _ hok hbit, if_neg (by decide),
      ih (k + 1) (tail_all hok) (left_advance_append (b := [true]) hbit rfl)]
    simp [Nat.add_comm, Nat.add_left_comm]

end UnaryParser

section TimeHalf

variable {r : DecRun} {rest : Bits} (cont : DecRun → DecResult)

/-- `'0'` has no payload: the delta-of-delta is 0 (R96). -/
theorem decTime_zero (hok : ∀ a ∈ r.answers, a = SourceAnswer.ok) (hl : r.source.left = false :: rest) :
    decTime r cont
      = cont { r with
          regs := r.regs.addDod 0, source := r.source.advance 1, answers := r.answers.drop 1 } := by
  rw [decTime, readPrefix_stop (n := 0) 0 _ (by decide) hok hl]
  rfl

/-- One to three ones and a 0 are followed by the payload of their width. -/
theorem decTime_narrow {n v : Nat} (hpos : 0 < n) (hn : n < 4) (hok : ∀ a ∈ r.answers, a = SourceAnswer.ok)
    (hl : r.source.left = ones n ++ false :: (bin (payloadWidth n) v ++ rest)) (hv : v < 2 ^ payloadWidth n) :
    decTime r cont
      = cont { r with
          regs := r.regs.addDod (sdec (payloadWidth n) v)
          source := r.source.advance (n + 1 + payloadWidth n)
          answers := r.answers.drop (n + 2) } := by
  have hwidth : payloadWidth n ≠ 0 ∧ payloadWidth n ≠ 32 := by interval_cases n <;> decide
  obtain ⟨hw0, hw32⟩ := hwidth
  have hl' : (r.source.advance (n + 1)).left = bin (payloadWidth n) v ++ rest := by
    rw [← List.singleton_append, ← List.append_assoc] at hl
    exact left_advance_append hl (by simp)
  rw [decTime, readPrefix_stop 0 _ hn hok hl]
  simp only [Nat.zero_add, if_neg hw0]
  rw [sourceRead_bin _ (drop_all _ hok) hl' hv (Nat.pos_of_ne_zero hw0), if_neg fun h => hw32 h.1]
  simp

/-- Four ones are followed by 32 bits, which are a payload unless they are the end marker (R186, R188). -/
theorem decTime_wide {v : Nat} (hend : v ≠ Config.dodEndPayload) (hok : ∀ a ∈ r.answers, a = SourceAnswer.ok)
    (hl : r.source.left = ones 4 ++ (bin 32 v ++ rest)) (hv : v < 2 ^ 32) :
    decTime r cont
      = cont { r with
          regs := r.regs.addDod (sdec 32 v), source := r.source.advance 36, answers := r.answers.drop 5 } := by
  rw [decTime, readPrefix_full 0 _ hok hl]
  simp only [payloadWidth]
  rw [if_neg (by decide), sourceRead_bin _ (drop_all _ hok) (left_advance_append hl (ones_length 4)) hv (by decide),
    if_neg fun h => hend h.2]
  simp

end TimeHalf

/-- The delta-of-delta of a timestamp codeword (R96, R125, R186); the codewords without a payload have 0. -/
def tsDod : Instr → Int
  | .wireTs7 p => sdec 7 p.toNat
  | .wireTs9 p => sdec 9 p.toNat
  | .wireTs12 p => sdec 12 p.toNat
  | .wireTs32 p => sdec 32 p.toNat
  | _ => 0

section TimeCodeword

variable {i : Instr} (hctx : i.ctx = some .ts) (hend : i ≠ .wireEndSentinel) (hwf : i.wf = true)

include hctx hend hwf

/-- A timestamp codeword as an instruction: its bits consumed, its delta-of-delta added (R186, R187). -/
theorem exec_tsCode (s : State) : exec i s = codeTime i.readLen (tsDod i) s := by
  cases i
  case wireTs0 | wireTs7 | wireTs9 | wireTs12 => rfl
  case wireTs32 p =>
    have hp : p ≠ 0xFFFFFFFF := by simpa [Instr.wf] using hwf
    exact if_neg hp
  case wireEndSentinel => exact absurd rfl hend
  all_goals cases hctx

/-- The clock after a timestamp codeword. -/
theorem exec_tsCode_regs {s t : State} (h : exec i s = .next t) : t.dec.regs = s.dec.regs.addDod (tsDod i) := by
  cases (exec_tsCode hctx hend hwf s).symm.trans h
  rfl

omit hwf in
/-- Only the end sentinel is not consumed whole (R198). -/
theorem length_tsCode : (encodeWire i).length = i.readLen := by
  cases i
  case wireEndSentinel => exact absurd rfl hend
  case wireTs0 | wireTs7 | wireTs9 | wireTs12 | wireTs32 => simp [encodeWire, Instr.readLen]
  all_goals cases hctx

/-- The timestamp half takes a codeword in the reads of `Instr.reads`, with the codeword's own effect, and goes on. -/
theorem decTime_tsCode {r : DecRun} {rest : Bits} (cont : DecRun → DecResult)
    (hok : ∀ a ∈ r.answers, a = SourceAnswer.ok) (hl : r.source.left = encodeWire i ++ rest) :
    decTime r cont
      = cont { r with
          regs := r.regs.addDod (tsDod i)
          source := r.source.advance i.readLen
          answers := r.answers.drop i.reads.length } := by
  cases i
  case wireTs0 => exact decTime_zero cont hok hl
  case wireTs7 p => exact decTime_narrow (n := 1) cont (by decide) (by decide) hok hl p.isLt
  case wireTs9 p => exact decTime_narrow (n := 2) cont (by decide) (by decide) hok hl p.isLt
  case wireTs12 p => exact decTime_narrow (n := 3) cont (by decide) (by decide) hok hl p.isLt
  case wireTs32 p =>
    have hp : p ≠ 0xFFFFFFFF := by simpa [Instr.wf] using hwf
    exact decTime_wide cont (fun h => hp (BitVec.eq_of_toNat_eq h)) hok hl p.isLt
  case wireEndSentinel => exact absurd rfl hend
  all_goals cases hctx

/-- A subsequent `DEC_POINT` after its timestamp codeword: the value half, with the clock moved (R182, R187). -/
theorem exec_decPoint_tsCode {s : State} {rest : Bits} (hp : s.dec.regs.phase = .opened)
    (hts : s.dec.regs.storedTS ≠ 0) (hok : SourceOk s) (hl : s.dec.source.left = encodeWire i ++ rest) :
    exec .decPoint s
      = .next (s.decFinish (decValue
          { regs := s.dec.regs.addDod (tsDod i)
            source := s.dec.source.advance i.readLen
            answers := s.sourceAnswers.drop i.reads.length
            freeReads := s.dec.freeReads })) := by
  have hbody : decPointBody s.decRun = decTime s.decRun decValue := if_neg hts
  rw [exec_decPoint_opened hp, hbody, decTime_tsCode hctx hend hwf (r := s.decRun) decValue hok hl]
  rfl

end TimeCodeword

/-! ### The window errors of the value half (R192, R193) -/

section WindowErrors

variable {r : DecRun} {rest : Bits}

/-- `'10'` without a valid window: nothing is read after the two control bits (R192). -/
theorem decValue_noWindow (hok : ∀ a ∈ r.answers, a = SourceAnswer.ok) (hwin : r.regs.winValid = false)
    (hl : r.source.left = [true, false] ++ rest) :
    decValue r
      = DecRun.raise { r with source := r.source.advance 2, answers := r.answers.tail.tail } .eNoWindow := by
  have hl' : (r.source.advance 1).left = false :: rest := left_advance_append (b := [true]) hl rfl
  rw [decValue, sourceRead_bit _ hok hl, if_neg (by decide), sourceRead_bit _ (tail_all hok) hl', if_neg (by decide),
    if_neg (by simp [hwin])]
  rfl

/-- `'11'` reads a new window (R190, R193). -/
theorem decValue_new (hok : ∀ a ∈ r.answers, a = SourceAnswer.ok) (hl : r.source.left = [true, true] ++ rest) :
    decValue r = decNewWindow { r with source := r.source.advance 2, answers := r.answers.tail.tail } := by
  have hl' : (r.source.advance 1).left = true :: rest := left_advance_append (b := [true]) hl rfl
  rw [decValue, sourceRead_bit _ hok hl, if_neg (by decide), sourceRead_bit _ (tail_all hok) hl', if_pos (by decide)]
  rfl

/-- A new window that does not fit 64 bits: nothing is read after its two fields, and neither is stored (R193). -/
theorem decNewWindow_bad {l : BitVec 5} {m : BitVec 6} (hok : ∀ a ∈ r.answers, a = SourceAnswer.ok)
    (hbad : 64 < l.toNat + sigCount m) (hl : r.source.left = bin 5 l.toNat ++ (bin 6 m.toNat ++ rest)) :
    decNewWindow r
      = DecRun.raise { r with source := r.source.advance 11, answers := r.answers.tail.tail } .eBadWindow := by
  have hl' : (r.source.advance 5).left = bin 6 m.toNat ++ rest := left_advance_append hl (bin_length 5 _)
  rw [decNewWindow, sourceRead_bin (n := Config.lzFieldWidth) _ hok hl l.isLt (by decide),
    sourceRead_bin (n := Config.sigFieldWidth) _ (tail_all hok) hl' m.isLt (by decide)]
  simp only [BitVec.ofNat_toNat, BitVec.setWidth_eq, if_pos hbad]
  rfl

/-- `'11'` and the fields of a window that does not fit: 13 bits are read, and no window register changes (R193). -/
theorem decValue_badWindow {l : BitVec 5} {m : BitVec 6} (hok : ∀ a ∈ r.answers, a = SourceAnswer.ok)
    (hbad : 64 < l.toNat + sigCount m)
    (hl : r.source.left = [true, true] ++ (bin 5 l.toNat ++ (bin 6 m.toNat ++ rest))) :
    decValue r
      = DecRun.raise { r with source := r.source.advance 13, answers := r.answers.tail.tail.tail.tail }
          .eBadWindow := by
  rw [decValue_new hok hl, decNewWindow_bad (tail_all (tail_all hok)) hbad (left_advance_append hl rfl)]
  rfl

end WindowErrors

/-- Settles O27: the timestamp codeword has its effect, and the value half then ends at its control or field bits. -/
theorem decPointWindowErrors : Obligations.DecPointWindowErrors := by
  intro s t i rest hp hts hok hctx hend hwf hexec
  have hok' := drop_all i.reads.length hok
  have hlen := length_tsCode hctx hend
  rw [exec_tsCode_regs hctx hend hwf hexec]
  refine ⟨fun hwin hl => ?noWindow, fun l m hbad hl => ?badWindow⟩
  case noWindow =>
    rw [List.append_assoc] at hl
    rw [exec_decPoint_tsCode hctx hend hwf hp hts hok hl,
      decValue_noWindow hok' hwin (left_advance_append hl hlen), decFinish_raise _ (tail_all (tail_all hok')) rfl]
    rfl
  case badWindow =>
    simp only [List.append_assoc] at hl
    rw [exec_decPoint_tsCode hctx hend hwf hp hts hok hl,
      decValue_badWindow hok' hbad (left_advance_append hl hlen),
      decFinish_raise _ (tail_all (tail_all (tail_all (tail_all hok')))) rfl]
    rfl

end Sys2Proof.Machine

namespace Sys2Proof.Machine

/-! ### Reset and attaching a stream, as whole next states (R260, R262) -/

/-- The action taken is the one that leaves the list. -/
theorem retire_of_inputs {s : State} {x : Input} {rest : List Input} (hi : s.inputs = x :: rest) :
    s.retire = { s with inputs := rest } := by
  rw [State.retire, hi, List.tail_cons]

/-- Between commands there is no parser position for a reset to clear (log 1). -/
theorem DecUnit.reset_of_between {d : DecUnit} (hs : d.stage = none) :
    d.reset = { d with regs := .reset, waiting := false } := by
  rw [DecUnit.reset, ← hs]

/-- Settles O38: each action is one step equation, and retiring it leaves the rest of the host's actions. -/
theorem resetAndAttachSteps : Obligations.ResetAndAttachSteps := by
  refine ⟨fun s rest hs hi => ?encRst, fun s rest hs hi => ?decRst, fun s rest hs hi => ?attachSink,
    fun s bytes rest hs hi => ?attachSource⟩
  case encRst =>
    rw [step_encRst hs hi, State.encReset, retire_of_inputs hi]
    rfl
  case decRst =>
    rw [step_decRst hs hi, State.decReset, retire_of_inputs hi, DecUnit.reset_of_between hs]
    rfl
  case attachSink =>
    rw [step_attachSink hs hi, State.attachSink, retire_of_inputs hi]
    rfl
  case attachSource =>
    rw [step_attachSource hs hi, State.attachSource, retire_of_inputs hi]
    rfl

end Sys2Proof.Machine

namespace Sys2Proof.Machine

/-! ### A field at the head of a bit string (R55, R91) -/

/-- Taking `n` bits off the head undoes the writing of an `n`-bit field, and nothing else does. -/
theorem takeBits_eq_some_iff {n v : Nat} {b rest : Bits} :
    takeBits n b = some (v, rest) ↔ v < 2 ^ n ∧ b = bin n v ++ rest := by
  unfold takeBits
  constructor
  · intro h
    split_ifs at h with hn
    cases h
    have hlen : (b.take n).length = n := List.length_take_of_le hn
    have hlt := natOf_lt (b.take n)
    have hbin := bin_natOf (b.take n)
    rw [hlen] at hlt hbin
    exact ⟨hlt, by rw [hbin, List.take_append_drop]⟩
  · rintro ⟨hv, rfl⟩
    rw [if_pos (by simp), take_bin_append, drop_bin_append, natOf_bin_of_lt hv]

@[simp] theorem takeBits_bin_toNat {n : Nat} (p : BitVec n) (rest : Bits) :
    takeBits n (bin n p.toNat ++ rest) = some (p.toNat, rest) :=
  takeBits_eq_some_iff.2 ⟨p.isLt, rfl⟩

theorem decodePayload_bin {n v : Nat} (hv : v < 2 ^ n) (rest : Bits) (mk : Nat → Instr) :
    decodePayload n (bin n v ++ rest) mk = .ok (mk v) := by
  rw [decodePayload, takeBits_eq_some_iff.2 ⟨hv, rfl⟩]

theorem decodePayload_toNat {n : Nat} (p : BitVec n) (rest : Bits) (mk : BitVec n → Instr) :
    decodePayload n (bin n p.toNat ++ rest) (fun v => mk (BitVec.ofNat n v)) = .ok (mk p) := by
  rw [decodePayload_bin p.isLt, BitVec.ofNat_toNat, BitVec.setWidth_eq]

theorem decodePayload_ok {n : Nat} {b : Bits} {mk : Nat → Instr} {i : Instr} (h : decodePayload n b mk = .ok i) :
    ∃ v rest, v < 2 ^ n ∧ b = bin n v ++ rest ∧ i = mk v := by
  unfold decodePayload at h
  split at h
  case h_1 v rest htake =>
    obtain ⟨hv, rfl⟩ := takeBits_eq_some_iff.1 htake
    cases h
    exact ⟨v, rest, hv, rfl, rfl⟩
  case h_2 => cases h

/-! ### The sentinels are fields of ones (R94, R99) -/

theorem ones_firstDelta : ones 14 = bin 14 Config.firstDeltaSentinel := by decide

theorem ones_endPayload : ones 32 = bin 32 Config.dodEndPayload := by decide

/-! ### Decoding an encoded codeword, context by context -/

theorem decodeFirstCode_point {d : BitVec 14} (hd : d ≠ 0x3FFF) (v : Value) (rest : Bits) :
    decodeFirstCode (bin 14 d.toNat ++ (bin 64 v.toNat ++ rest)) = .ok (.wireFirstPoint d v) := by
  have hd' : d.toNat ≠ Config.firstDeltaSentinel := fun h => hd (BitVec.eq_of_toNat_eq h)
  have htake := takeBits_bin_toNat d (bin 64 v.toNat ++ rest)
  rw [decodeFirstCode, Config.nFirstDelta, htake]
  simp [hd']

theorem decodeFirstCode_sentinel (rest : Bits) : decodeFirstCode (ones 14 ++ rest) = .ok .wireEmptySentinel := by
  have htake : takeBits 14 (ones 14 ++ rest) = some (Config.firstDeltaSentinel, rest) :=
    takeBits_eq_some_iff.2 ⟨by decide, by rw [ones_firstDelta]⟩
  rw [decodeFirstCode, Config.nFirstDelta, htake]
  simp

theorem decodeTsCode_ts32 {p : BitVec 32} (hp : p ≠ 0xFFFFFFFF) (rest : Bits) :
    decodeTsCode (true :: true :: true :: true :: (bin 32 p.toNat ++ rest)) = .ok (.wireTs32 p) := by
  have hp' : p.toNat ≠ Config.dodEndPayload := fun h => hp (BitVec.eq_of_toNat_eq h)
  rw [decodeTsCode, decodePayload_bin p.isLt, if_neg hp', BitVec.ofNat_toNat, BitVec.setWidth_eq]

theorem decodeTsCode_endSentinel (rest : Bits) :
    decodeTsCode (true :: true :: true :: true :: (ones 32 ++ rest)) = .ok .wireEndSentinel := by
  rw [decodeTsCode, ones_endPayload, decodePayload_bin (by decide), if_pos rfl]

theorem decodeValueCode_reuse {n : Nat} {x : Value} (hx : x.toNat < 2 ^ n) (rest : Bits) :
    decodeValueCode (some n) (true :: false :: (bin n x.toNat ++ rest)) = .ok (.wireVReuse n x) := by
  rw [decodeValueCode, decodePayload_bin hx, BitVec.ofNat_toNat, BitVec.setWidth_eq]

theorem decodeValueCode_new {l : BitVec 5} {m : BitVec 6} {x : Value} (window : Option Nat)
    (hfits : l.toNat + sigCount m ≤ 64) (hx : x.toNat < 2 ^ sigCount m) (rest : Bits) :
    decodeValueCode window (true :: true :: (bin 5 l.toNat ++ (bin 6 m.toNat ++ (bin (sigCount m) x.toNat ++ rest))))
      = .ok (.wireVNew l m x) := by
  have htakeL := takeBits_bin_toNat l (bin 6 m.toNat ++ (bin (sigCount m) x.toNat ++ rest))
  have htakeM := takeBits_bin_toNat m (bin (sigCount m) x.toNat ++ rest)
  rw [decodeValueCode, Config.lzFieldWidth, Config.sigFieldWidth, htakeL]
  simp only [htakeM, BitVec.ofNat_toNat, BitVec.setWidth_eq]
  rw [if_neg (not_lt.2 hfits), decodePayload_bin hx, BitVec.ofNat_toNat, BitVec.setWidth_eq]

theorem decodePad_zeros {k : Nat} (hk : k ≤ 7) : decodePad (zeros k) = .ok (.wirePad k) := by
  simp [decodePad, zeros, hk]

/-- Settles O5: one codeword of the grammar at a time; every field is taken back as it was written, and the operands that
`Instr.wf` excludes are the sentinels' patterns and the fields that do not fit. -/
theorem encodedCodewordDecodes : Obligations.EncodedCodewordDecodes := by
  intro i c window rest hctx hwf hwindow hpad
  cases i <;> cases hctx <;> simp only [decodeWire, encodeWire, List.append_assoc]
  case wireHeader t => simp [decodeHeaderCode]
  case wireFirstPoint d v => exact decodeFirstCode_point (by simpa [Instr.wf] using hwf) v rest
  case wireEmptySentinel => exact decodeFirstCode_sentinel _
  case wireTs0 => rfl
  case wireTs7 p => exact decodePayload_toNat p rest .wireTs7
  case wireTs9 p => exact decodePayload_toNat p rest .wireTs9
  case wireTs12 p => exact decodePayload_toNat p rest .wireTs12
  case wireTs32 p => exact decodeTsCode_ts32 (by simpa [Instr.wf] using hwf) rest
  case wireEndSentinel => exact decodeTsCode_endSentinel _
  case wireVSame => rfl
  case wireVReuse n x =>
    simp only [Instr.wf, Bool.and_eq_true, decide_eq_true_eq] at hwf
    rw [hwindow n x rfl]
    exact decodeValueCode_reuse hwf.2 rest
  case wireVNew l m x =>
    simp only [Instr.wf, Bool.and_eq_true, decide_eq_true_eq] at hwf
    exact decodeValueCode_new window hwf.1 hwf.2 rest
  case wirePad k =>
    rw [hpad rfl, List.append_nil]
    exact decodePad_zeros (by simpa [Instr.wf] using hwf)

/-! ### The bits a codeword was read from are its own (R103) -/

/-- `i` is a codeword of context `c`, and the bits the decoder consumes of it stand at the head of `b`. -/
structure HeadsWith (c : CodeCtx) (b : Bits) (i : Instr) : Prop where
  ctx : i.ctx = some c
  wf : i.wf = true
  bits : b.take i.readLen = (encodeWire i).take i.readLen

/-- The decoder consumes no more bits of a codeword than it has (R198). -/
theorem readLen_le_length (i : Instr) : i.readLen ≤ (encodeWire i).length := by
  cases i
  case wireFirstPoint d v => exact (Laws.ReadLength.wireFirstPoint d v).1
  case wireVNew l m x => exact (Laws.ReadLength.wireVNew l m x).1
  case wireVReuse n x => exact (Laws.ReadLength.wireVReuse n x).1
  all_goals simp [Instr.readLen, encodeWire, ones, zeros]

theorem headsWith_append {c : CodeCtx} {i : Instr} (hctx : i.ctx = some c) (hwf : i.wf = true) (rest : Bits) :
    HeadsWith c (encodeWire i ++ rest) i :=
  ⟨hctx, hwf, List.take_append_of_le_length (readLen_le_length i)⟩

theorem exists_bitVec_of_lt {n v : Nat} (hv : v < 2 ^ n) : ∃ p : BitVec n, v = p.toNat :=
  ⟨BitVec.ofNatLT v hv, rfl⟩

theorem decodeHeaderCode_ok {b : Bits} {i : Instr} (h : decodeHeaderCode b = .ok i) : HeadsWith .header b i := by
  unfold decodeHeaderCode at h
  split at h
  case h_1 t rest htake =>
    obtain ⟨ht, rfl⟩ := takeBits_eq_some_iff.1 htake
    obtain ⟨p, rfl⟩ := exists_bitVec_of_lt ht
    cases h
    rw [BitVec.ofNat_toNat, BitVec.setWidth_eq]
    exact headsWith_append (i := .wireHeader p) rfl rfl rest
  case h_2 => cases h

/-- The empty sentinel is recognised from its 14 ones; whatever follows them is not read (R184). -/
theorem decodeFirstCode_ok {b : Bits} {i : Instr} (h : decodeFirstCode b = .ok i) : HeadsWith .first b i := by
  unfold decodeFirstCode at h
  split at h
  case h_1 => cases h
  case h_2 d rest htakeD =>
    obtain ⟨hd, rfl⟩ := takeBits_eq_some_iff.1 htakeD
    split_ifs at h with hsentinel
    · cases h
      subst hsentinel
      exact ⟨rfl, rfl, by rw [Config.nFirstDelta, ← ones_firstDelta]; rfl⟩
    split at h
    case h_1 v rest htakeV =>
      obtain ⟨hv, rfl⟩ := takeBits_eq_some_iff.1 htakeV
      obtain ⟨d, rfl⟩ : ∃ p : BitVec 14, d = p.toNat := exists_bitVec_of_lt hd
      obtain ⟨v, rfl⟩ := exists_bitVec_of_lt hv
      cases h
      have hne : d ≠ 0x3FFF := fun heq => hsentinel (congrArg BitVec.toNat heq)
      have hwf : (Instr.wireFirstPoint d v).wf = true := by simpa [Instr.wf] using hne
      rw [BitVec.ofNat_toNat, BitVec.setWidth_eq, BitVec.ofNat_toNat, BitVec.setWidth_eq, ← List.append_assoc]
      exact headsWith_append rfl hwf rest
    case h_2 => cases h

/-- Control bits and a payload of which every pattern is an operand. -/
theorem headsWith_payload {n : Nat} {b : Bits} {i : Instr} {mk : BitVec n → Instr} (control : Bits)
    (hctx : ∀ p, (mk p).ctx = some .ts) (hwf : ∀ p, (mk p).wf = true)
    (henc : ∀ p, encodeWire (mk p) = control ++ bin n p.toNat)
    (h : decodePayload n b (fun v => mk (BitVec.ofNat n v)) = .ok i) : HeadsWith .ts (control ++ b) i := by
  obtain ⟨v, rest, hv, rfl, rfl⟩ := decodePayload_ok h
  obtain ⟨p, rfl⟩ := exists_bitVec_of_lt hv
  rw [BitVec.ofNat_toNat, BitVec.setWidth_eq, ← List.append_assoc, ← henc]
  exact headsWith_append (hctx p) (hwf p) rest

/-- The leading ones decide the codeword; only four ones leave the payload to tell the end sentinel (R185, R188). -/
theorem decodeTsCode_ok {b : Bits} {i : Instr} (h : decodeTsCode b = .ok i) : HeadsWith .ts b i := by
  unfold decodeTsCode at h
  split at h
  case h_1 rest =>
    cases h
    exact headsWith_append (i := .wireTs0) rfl rfl rest
  case h_2 => exact headsWith_payload (mk := .wireTs7) [true, false] (fun _ => rfl) (fun _ => rfl) (fun _ => rfl) h
  case h_3 => exact headsWith_payload (mk := .wireTs9) [true, true, false] (fun _ => rfl) (fun _ => rfl) (fun _ => rfl) h
  case h_4 =>
    exact headsWith_payload (mk := .wireTs12) [true, true, true, false] (fun _ => rfl) (fun _ => rfl) (fun _ => rfl) h
  case h_5 =>
    obtain ⟨v, rest, hv, rfl, rfl⟩ := decodePayload_ok h
    split_ifs with hend
    · subst hend
      exact ⟨rfl, rfl, by rw [← ones_endPayload]; rfl⟩
    · obtain ⟨p, rfl⟩ := exists_bitVec_of_lt hv
      have hne : p ≠ 0xFFFFFFFF := fun heq => hend (congrArg BitVec.toNat heq)
      rw [BitVec.ofNat_toNat, BitVec.setWidth_eq]
      exact headsWith_append (i := .wireTs32 p) rfl (by simpa [Instr.wf] using hne) rest
  case h_6 => cases h

/-- Significant bits that fit a width of at most 64 are a value pattern as they are. -/
theorem exists_value_of_lt {n v : Nat} (hn : n ≤ 64) (hv : v < 2 ^ n) : ∃ x : Value, v = x.toNat :=
  exists_bitVec_of_lt (hv.trans_le (Nat.pow_le_pow_right two_pos hn))

theorem sigCount_le (m : BitVec 6) : sigCount m ≤ 64 := by
  unfold sigCount
  split_ifs <;> omega

theorem decodeValueCode_ok {window : Option Nat} {b : Bits} {i : Instr}
    (hwindow : ∀ n, window = some n → 1 ≤ n ∧ n ≤ 64) (h : decodeValueCode window b = .ok i) :
    HeadsWith .value b i := by
  unfold decodeValueCode at h
  split at h
  case h_1 rest =>
    cases h
    exact headsWith_append (i := .wireVSame) rfl rfl rest
  case h_2 =>
    split at h
    case h_1 => cases h
    case h_2 n =>
      obtain ⟨hpos, hle⟩ := hwindow n rfl
      obtain ⟨v, rest, hv, rfl, rfl⟩ := decodePayload_ok h
      obtain ⟨x, rfl⟩ := exists_value_of_lt hle hv
      rw [BitVec.ofNat_toNat, BitVec.setWidth_eq]
      exact headsWith_append (i := .wireVReuse n x) rfl (by simp [Instr.wf, hpos, hle, hv]) rest
  case h_3 =>
    split at h
    case h_1 => cases h
    case h_2 l restL htakeL =>
      split at h
      case h_1 => cases h
      case h_2 m restM htakeM =>
        obtain ⟨hl, rfl⟩ := takeBits_eq_some_iff.1 htakeL
        obtain ⟨hm, rfl⟩ := takeBits_eq_some_iff.1 htakeM
        obtain ⟨l, rfl⟩ : ∃ p : BitVec 5, l = p.toNat := exists_bitVec_of_lt hl
        obtain ⟨m, rfl⟩ : ∃ p : BitVec 6, m = p.toNat := exists_bitVec_of_lt hm
        simp only [BitVec.ofNat_toNat, BitVec.setWidth_eq] at h
        split_ifs at h with hbad
        obtain ⟨v, rest, hv, rfl, rfl⟩ := decodePayload_ok h
        obtain ⟨x, rfl⟩ := exists_value_of_lt (sigCount_le m) hv
        rw [BitVec.ofNat_toNat, BitVec.setWidth_eq]
        have hwf : (Instr.wireVNew l m x).wf = true := by simp [Instr.wf, not_lt.1 hbad, hv]
        simpa [encodeWire, Config.lzFieldWidth, Config.sigFieldWidth] using headsWith_append rfl hwf rest
  case h_4 => cases h

theorem decodePad_ok {b : Bits} {i : Instr} (h : decodePad b = .ok i) : HeadsWith .pad b i ∧ encodeWire i = b := by
  unfold decodePad at h
  split_ifs at h with hpad
  obtain ⟨hlen, hall⟩ := hpad
  cases h
  have hzeros : zeros b.length = b := (List.eq_replicate_of_mem (by simpa using hall)).symm
  exact ⟨⟨rfl, by simp [Instr.wf, hlen], rfl⟩, hzeros⟩

/-- Settles O6: a field that was taken off the head is the field written there, context by context. -/
theorem decodedCodewordEncodes : Obligations.DecodedCodewordEncodes := by
  intro c window b i hwindow h
  cases c
  case header => obtain ⟨hctx, hwf, hbits⟩ := decodeHeaderCode_ok h; exact ⟨hctx, hwf, hbits, nofun⟩
  case first => obtain ⟨hctx, hwf, hbits⟩ := decodeFirstCode_ok h; exact ⟨hctx, hwf, hbits, nofun⟩
  case ts => obtain ⟨hctx, hwf, hbits⟩ := decodeTsCode_ok h; exact ⟨hctx, hwf, hbits, nofun⟩
  case value => obtain ⟨hctx, hwf, hbits⟩ := decodeValueCode_ok hwindow h; exact ⟨hctx, hwf, hbits, nofun⟩
  case pad => obtain ⟨⟨hctx, hwf, hbits⟩, hall⟩ := decodePad_ok h; exact ⟨hctx, hwf, hbits, fun _ => hall⟩

/-! ### The timestamp codewords are complete (90_conflicts.md C2) -/

theorem decodePayload_isOk {n : Nat} {b : Bits} (mk : Nat → Instr) (hb : n ≤ b.length) :
    ∃ i, decodePayload n b mk = .ok i := by
  unfold decodePayload takeBits
  rw [if_pos hb]
  exact ⟨_, rfl⟩

/-- Settles O7: the first four bits choose one of the five forms, and 32 bits are enough for every payload. -/
theorem everyTimestampPrefixIsRead : Obligations.EveryTimestampPrefixIsRead := by
  intro window b hb
  match b, hb with
  | false :: _, _ => exact ⟨_, rfl⟩
  | true :: false :: _, hb => exact decodePayload_isOk _ (by simp at hb; omega)
  | true :: true :: false :: _, hb => exact decodePayload_isOk _ (by simp at hb; omega)
  | true :: true :: true :: false :: _, hb => exact decodePayload_isOk _ (by simp at hb; omega)
  | true :: true :: true :: true :: _, hb => exact decodePayload_isOk _ (by simp at hb; omega)

/-! ### The word of a command (R80 to R83) -/

theorem decodeRdreg_cmdWord (opc : BitVec 8) {idx : BitVec 3} (hidx : idx ≠ 7) (mk : BitVec 3 → Instr) :
    decodeRdreg (cmdWord opc ((0 : BitVec 29) ++ idx) 0) mk = .ok (mk idx) := by
  have hhi : ((0 : BitVec 29) ++ idx).extractLsb' 3 29 = 0 := BitVec.extractLsb'_append_eq_left
  have hlo : ((0 : BitVec 29) ++ idx).extractLsb' 0 3 = idx := BitVec.extractLsb'_append_eq_right
  rw [decodeRdreg, tsOf_cmdWord, valOf_cmdWord, hhi, hlo, if_neg (by simp), if_neg hidx]

/-- On its own port a command's word is told from the others by its opcode, and its unused fields are zero. -/
theorem decodeCmd_encodeCmd {i : Instr} {port : Agent} (hport : i.port = some port) (hwf : i.wf = true) :
    decodeCmd port (encodeCmd i) = .ok i := by
  cases i <;> cases hport <;> simp only [decodeCmd, encodeCmd, rsvOf_cmdWord, ne_eq, not_true_eq_false, if_false]
  case encHeader | encPoint | encFinish => simp [decodeEncWord]
  case decHeader | decPoint => simp [decodeDecWord]
  case encRdreg idx =>
    have hidx : idx ≠ 7 := by simpa [Instr.wf] using hwf
    simpa [decodeEncWord] using decodeRdreg_cmdWord 0x04 hidx .encRdreg
  case decRdreg idx =>
    have hidx : idx ≠ 7 := by simpa [Instr.wf] using hwf
    simpa [decodeDecWord] using decodeRdreg_cmdWord 0x84 hidx .decRdreg

/-- Settles O2: the fields of a command word are those it was made of. -/
theorem encodedCommandDecodes : Obligations.EncodedCommandDecodes :=
  fun _ _ hport hwf => decodeCmd_encodeCmd hport hwf

/-- Where the operand of an `RDREG` is accepted, `TS` and `VAL` hold the index and zeros. -/
theorem operands_of_decodeRdreg {w : Word} {mk : BitVec 3 → Instr} {i : Instr} (h : decodeRdreg w mk = .ok i) :
    ∃ idx, idx ≠ 7 ∧ i = mk idx ∧ tsOf w = (0 : BitVec 29) ++ idx ∧ valOf w = 0 := by
  unfold decodeRdreg at h
  split_ifs at h with hunused hseven
  obtain ⟨hts, hval⟩ := not_or.1 hunused
  cases h
  refine ⟨_, hseven, rfl, ?_, not_not.1 hval⟩
  rw [← not_not.1 hts]
  exact (BitVec.extractLsb'_append_extractLsb' (w := 29) (len := 3)).symm

/-- `w` is the word of the well-formed command `i` of a port. -/
structure IsWordOf (port : Agent) (w : Word) (i : Instr) : Prop where
  port : i.port = some port
  wf : i.wf = true
  word : encodeCmd i = w

theorem cmdWord_eq {opc : BitVec 8} {ts : Time} {val : Value} {w : Word} (hrsv : rsvOf w = 0) (hopc : opcOf w = opc)
    (hts : tsOf w = ts) (hval : valOf w = val) : cmdWord opc ts val = w := by
  rw [← hopc, ← hts, ← hval, ← eq_cmdWord_of_rsvOf hrsv]

theorem decodeEncWord_ok {w : Word} {i : Instr} (hrsv : rsvOf w = 0) (h : decodeEncWord w = .ok i) :
    IsWordOf .enc w i := by
  unfold decodeEncWord at h
  split_ifs at h with hheader hval hpoint hfinish hzero hrdreg
  · cases h; exact ⟨rfl, rfl, cmdWord_eq hrsv hheader rfl hval⟩
  · cases h; exact ⟨rfl, rfl, cmdWord_eq hrsv hpoint rfl rfl⟩
  · cases h; exact ⟨rfl, rfl, cmdWord_eq hrsv hfinish hzero.1 hzero.2⟩
  · obtain ⟨idx, hidx, rfl, hts, hval⟩ := operands_of_decodeRdreg h
    exact ⟨rfl, by simpa [Instr.wf] using hidx, cmdWord_eq hrsv hrdreg hts hval⟩

theorem decodeDecWord_ok {w : Word} {i : Instr} (hrsv : rsvOf w = 0) (h : decodeDecWord w = .ok i) :
    IsWordOf .dec w i := by
  unfold decodeDecWord at h
  split_ifs at h with hheader hzero hpoint hzero hrdreg
  · cases h; exact ⟨rfl, rfl, cmdWord_eq hrsv hheader hzero.1 hzero.2⟩
  · cases h; exact ⟨rfl, rfl, cmdWord_eq hrsv hpoint hzero.1 hzero.2⟩
  · obtain ⟨idx, hidx, rfl, hts, hval⟩ := operands_of_decodeRdreg h
    exact ⟨rfl, by simpa [Instr.wf] using hidx, cmdWord_eq hrsv hrdreg hts hval⟩

/-- Settles O3: in each branch that accepts, every field of the word is fixed or is an operand. -/
theorem decodedCommandEncodes : Obligations.DecodedCommandEncodes := by
  intro port w i h
  unfold decodeCmd at h
  split_ifs at h with hrsv
  have hword : IsWordOf port w i := by
    cases port
    case enc => exact decodeEncWord_ok (not_not.1 hrsv) h
    case dec => exact decodeDecWord_ok (not_not.1 hrsv) h
  exact ⟨hword.port, hword.wf, hword.word⟩

/-- Settles O1: the ten words are closed terms, so each decoder is run on them. -/
theorem writtenWordsDecode : Obligations.WrittenWordsDecode := by
  unfold Obligations.WrittenWordsDecode
  decide

/-- Settles O51: each line by running the assembler on it. -/
theorem assemblerGivesTheProgramsWords : Obligations.AssemblerGivesTheProgramsWords := by
  unfold Obligations.AssemblerGivesTheProgramsWords
  decide

end Sys2Proof.Machine

namespace Sys2Proof.Machine

/-! ### The selector and the wire table (R95, R124, R150) -/

/-- A biased payload is the delta-of-delta modulo `2^n`. -/
theorem toNat_ofInt_eq_senc {n : Nat} {x : Int} (hlo : -2 ^ n ≤ x) (hhi : x < 2 ^ n) :
    (BitVec.ofInt n x).toNat = senc n x := by
  have hcast : ((2 ^ n : Nat) : Int) = 2 ^ n := Nat.cast_pow 2 n
  have hlt : senc n x < 2 ^ n := by
    rcases lt_or_ge x 0 with hneg | hnonneg
    · rw [senc_of_neg n hneg]; omega
    · rw [senc_of_nonneg n hnonneg]; omega
  rw [← ofInt_senc hlo, BitVec.ofInt_natCast, BitVec.toNat_ofNat, Nat.mod_eq_of_lt hlt]

/-- All that the classes of R150 can be, with the codeword that the wire table gives each. -/
theorem bucket_cases (dd : Int) :
    (dd = 0 ∧ bucket dd = ⟨[false], 0⟩ ∧ tsCodeword dd = .wireTs0) ∨
      ((-63 ≤ dd ∧ dd ≤ 64) ∧ bucket dd = ⟨[true, false], 7⟩ ∧ tsCodeword dd = .wireTs7 (BitVec.ofInt 7 dd)) ∨
      ((-255 ≤ dd ∧ dd ≤ 256) ∧ bucket dd = ⟨[true, true, false], 9⟩ ∧ tsCodeword dd = .wireTs9 (BitVec.ofInt 9 dd)) ∨
      ((-2047 ≤ dd ∧ dd ≤ 2048) ∧ bucket dd = ⟨[true, true, true, false], 12⟩ ∧
        tsCodeword dd = .wireTs12 (BitVec.ofInt 12 dd)) ∨
      ((dd < -2047 ∨ 2048 < dd) ∧ bucket dd = ⟨[true, true, true, true], 32⟩ ∧
        tsCodeword dd = .wireTs32 (BitVec.ofInt 32 dd)) := by
  unfold bucket tsCodeword
  split_ifs with hzero h7 h9 h12
  · exact .inl ⟨hzero, rfl, rfl⟩
  · exact .inr (.inl ⟨h7, rfl, rfl⟩)
  · exact .inr (.inr (.inl ⟨h9, rfl, rfl⟩))
  · exact .inr (.inr (.inr (.inl ⟨h12, rfl, rfl⟩)))
  · exact .inr (.inr (.inr (.inr ⟨by omega, rfl, rfl⟩)))

theorem bucketBits_eq_encodeWire {dd : Int} (hlo : -2 ^ 31 ≤ dd) (hhi : dd < 2 ^ 31) :
    (bucket dd).prefixBits ++ bin (bucket dd).width (senc (bucket dd).width dd) = encodeWire (tsCodeword dd) := by
  obtain ⟨-, hb, hc⟩ | ⟨h, hb, hc⟩ | ⟨h, hb, hc⟩ | ⟨h, hb, hc⟩ | ⟨-, hb, hc⟩ := bucket_cases dd <;> rw [hb, hc]
  · rfl
  all_goals rw [encodeWire, toNat_ofInt_eq_senc (by omega) (by omega)]

/-- Settles O11: class by class; a payload is its delta-of-delta modulo the field's size. -/
theorem selectorEmitsTheTablesCodeword : Obligations.SelectorEmitsTheTablesCodeword :=
  fun _ hlo hhi => bucketBits_eq_encodeWire hlo hhi

/-! ### The encoder's codewords are well-formed (R95 to R98) -/

theorem s32_bounds (x : BitVec 32) : -2 ^ 31 ≤ x.toInt ∧ x.toInt < 2 ^ 31 :=
  ⟨BitVec.le_toInt x, BitVec.toInt_lt⟩

theorem tsCodeword_wf {dd : Int} (hlo : -2 ^ 31 ≤ dd) (hhi : dd < 2 ^ 31) : (tsCodeword dd).wf = true := by
  obtain ⟨-, -, hc⟩ | ⟨-, -, hc⟩ | ⟨-, -, hc⟩ | ⟨-, -, hc⟩ | ⟨-, hb, hc⟩ := bucket_cases dd <;> rw [hc]
  iterate 4 rfl
  have hne := senc_ne_endMarker hlo hhi (by rw [hb])
  rw [← toNat_ofInt_eq_senc (by omega) (by omega)] at hne
  simpa [Instr.wf] using fun h => hne (congrArg BitVec.toNat h)

theorem tsCodeword_ctx (dd : Int) : (tsCodeword dd).ctx = some .ts := by
  obtain ⟨-, -, hc⟩ | ⟨-, -, hc⟩ | ⟨-, -, hc⟩ | ⟨-, -, hc⟩ | ⟨-, -, hc⟩ := bucket_cases dd <;> rw [hc] <;> rfl

theorem tsCodeword_ne_endSentinel (dd : Int) : tsCodeword dd ≠ .wireEndSentinel := by
  obtain ⟨-, -, hc⟩ | ⟨-, -, hc⟩ | ⟨-, -, hc⟩ | ⟨-, -, hc⟩ | ⟨-, -, hc⟩ := bucket_cases dd <;> rw [hc] <;> nofun

theorem toNat_lt_of_clz64 (x : Value) : x.toNat < 2 ^ (64 - clz64 x) := by
  by_cases hx : x = 0
  · subst hx; decide
  · obtain ⟨-, habove⟩ := highest_set_bit hx
    have hlt := clz64_lt_of_ne_zero hx
    refine Nat.lt_pow_two_of_testBit _ fun j hj => ?_
    rw [BitVec.testBit_toNat]
    exact habove j (by omega)

/-- Between `lz` leading and `tz` trailing zeros there are `64 − lz − tz` significant bits. -/
theorem ushiftRight_toNat_lt {x : Value} {lz tz : Nat} (hlz : lz ≤ clz64 x) (hle : lz + tz ≤ 64) :
    (x >>> tz).toNat < 2 ^ (64 - lz - tz) := by
  rw [BitVec.toNat_ushiftRight, Nat.shiftRight_eq_div_pow]
  refine Nat.div_lt_of_lt_mul ?_
  rw [← pow_add]
  exact (toNat_lt_of_clz64 x).trans_le (Nat.pow_le_pow_right two_pos (by omega))

theorem valueCodeword_ctx (r : Regs) (v : Value) : (valueCodeword r v).ctx = some .value := by
  unfold valueCodeword
  dsimp only
  split_ifs <;> rfl

theorem valueCodeword_wf (r : Regs) (v : Value) : (valueCodeword r v).wf = true := by
  obtain ⟨x, hx⟩ : ∃ x, x = v ^^^ r.storedVal := ⟨_, rfl⟩
  by_cases h : x = 0
  · rw [valueCodeword_same hx h]
    rfl
  have hsum := clampedLZ_add_ctz64_le h
  have hclz : clampedLZ x ≤ clz64 x := min_le_left _ _
  by_cases hw : fitsWindow r x = true
  · obtain ⟨-, hlz, htz⟩ := fitsWindow_iff.1 hw
    have hbits := ushiftRight_toNat_lt (hlz.trans hclz) (tz := r.storedTZ.toNat) (by omega)
    rw [valueCodeword_reuse hx h hw]
    simp only [Instr.wf, Bool.and_eq_true, decide_eq_true_eq]
    unfold Regs.reuseWidth
    exact ⟨⟨by omega, by omega⟩, hbits⟩
  · have hbits := ushiftRight_toNat_lt hclz (tz := ctz64 x) (by omega)
    have hlzFits : clampedLZ x < 2 ^ 5 := Nat.lt_succ_of_le (clampedLZ_le x)
    rw [valueCodeword_new hx h hw]
    simp only [Instr.wf, Bool.and_eq_true, decide_eq_true_eq, sigCount_ofNat (show 1 ≤ 64 - clampedLZ x - ctz64 x by omega)
      (by omega), BitVec.toNat_ofNat, Nat.mod_eq_of_lt hlzFits]
    exact ⟨by omega, hbits⟩

/-- Settles O12: no class but that of -1 has the end marker as its payload, and the zero counts bound the significant bits. -/
theorem encoderCodewordsAreWellFormed : Obligations.EncoderCodewordsAreWellFormed := by
  intro r t v
  obtain ⟨hlo, hhi⟩ := s32_bounds (t - r.storedTS - r.storedDelta)
  exact ⟨tsCodeword_wf hlo hhi, valueCodeword_wf r v⟩

/-! ### Codewords as instructions of the parser, with their whole next state (R92 to R100) -/

section CodewordEffects

variable (s : State)

/-- A codeword that returns a point (R196). -/
theorem codePoint_eq (n : Nat) (f : Regs → Regs) :
    codePoint n f s
      = .next (s.decAfter (f s.dec.regs) (s.dec.source.advance n)
          (responseWord 0x01 (f s.dec.regs).storedTS (f s.dec.regs).storedVal)) := rfl

/-- A sentinel (R184, R188). -/
theorem codeEndBlock_eq (n : Nat) :
    codeEndBlock n s
      = .next (s.decAfter (s.dec.regs.setPhase .finished) (s.dec.source.advance n) (responseWord 0x02 0 0)) := rfl

/-- A codeword with a window error (R192, R193). -/
theorem codeError_eq (n : Nat) (x : Status) :
    codeError n x s
      = .next (s.decAfter (s.dec.regs.enterError x) (s.dec.source.advance n) (responseWord x.code 0 0)) := rfl

theorem exec_wireFirstPoint {d : BitVec 14} (hd : d ≠ 0x3FFF) (v : Value) :
    exec (.wireFirstPoint d v) s
      = .next (s.decAfter (s.dec.regs.setFirst (d.setWidth 32) (s.dec.regs.hdrTS + d.setWidth 32) v)
          (s.dec.source.advance 78) (responseWord 0x01 (s.dec.regs.hdrTS + d.setWidth 32) v)) := by
  have hexec : exec (.wireFirstPoint d v) s = codePoint 78 _ s := if_neg hd
  rw [hexec, codePoint_eq]
  rfl

end CodewordEffects

/-- Settles O29: the end of a command with the registers each codeword writes. -/
theorem blockCodewordsTakeEffect : Obligations.BlockCodewordsTakeEffect :=
  ⟨fun _ _ => rfl, fun s _ v hd => exec_wireFirstPoint s hd v, fun s => codeEndBlock_eq s 14, fun s => codeEndBlock_eq s 36⟩

/-- Settles O30: the payload conversion of R125 at each width; at width 32 it keeps the payload modulo `2^32`. -/
theorem timestampCodewordsMoveTheClock : Obligations.TimestampCodewordsMoveTheClock := by
  intro s moved
  refine ⟨rfl, fun _ => rfl, fun _ => rfl, fun _ => rfl, fun p hp => ?_⟩
  have hexec : exec (.wireTs32 p) s = .next (moved (sdec 32 p.toNat) 36) := if_neg hp
  have hmoved : moved (sdec 32 p.toNat) 36 = moved p.toNat 36 := by simp only [moved, ofInt_sdec]
  rw [hexec, hmoved]

/-- The registers after a value codeword that raises no error (R189, R194, R195). -/
def valueEffect : Instr → Regs → Regs
  | .wireVReuse _ x, q => q.xorSig x
  | .wireVNew l m x, q => (q.setWindow l (BitVec.ofNat 6 (64 - sigCount m - l.toNat))).xorSig x
  | _, q => q

/-- A value codeword returns a point, where V-reuse has its window. -/
theorem exec_valueCode {j : Instr} (hctx : j.ctx = some .value) (hwf : j.wf = true) (s : State)
    (hwindow : ∀ n x, j = .wireVReuse n x → s.dec.regs.winValid = true) :
    exec j s
      = .next (s.decAfter (valueEffect j s.dec.regs) (s.dec.source.advance j.readLen)
          (responseWord 0x01 (valueEffect j s.dec.regs).storedTS (valueEffect j s.dec.regs).storedVal)) := by
  cases j <;> cases hctx
  case wireVSame => rfl
  case wireVReuse n x => exact (if_pos (hwindow n x rfl)).trans (codePoint_eq s _ _)
  case wireVNew l m x =>
    simp only [Instr.wf, Bool.and_eq_true, decide_eq_true_eq] at hwf
    exact (if_neg (not_lt.2 hwf.1)).trans (codePoint_eq s _ _)

theorem one_le_sigCount (m : BitVec 6) : 1 ≤ sigCount m := by
  unfold sigCount
  split_ifs with hm
  · decide
  · bv_omega

/-- With at least one significant bit the trailing-zero count fits its register. -/
theorem toNat_newTZ (m : BitVec 6) (l : Nat) : (BitVec.ofNat 6 (64 - sigCount m - l)).toNat = 64 - sigCount m - l := by
  have hpos := one_le_sigCount m
  exact Nat.mod_eq_of_lt (by omega)

/-- The significant bits of V-new are shifted by the trailing-zero count of the window it writes (R194, R195). -/
theorem xorSig_newWindow (q : Regs) (l : BitVec 5) (m : BitVec 6) (x : Value) :
    (q.setWindow l (BitVec.ofNat 6 (64 - sigCount m - l.toNat))).xorSig x
      = (q.setWindow l (BitVec.ofNat 6 (64 - sigCount m - l.toNat))).setVal
          (q.storedVal ^^^ (x <<< (64 - sigCount m - l.toNat))) := by
  rw [Regs.xorSig, Regs.setWindow_storedTZ, toNat_newTZ]
  rfl

/-- Settles O31: each value codeword is a point or an error of its own length. -/
theorem valueCodewordsRebuildTheValue : Obligations.ValueCodewordsRebuildTheValue := by
  intro s
  refine ⟨rfl, fun n x hwin => (if_pos hwin).trans (codePoint_eq s _ _),
    fun n x hwin => (if_neg (by simp [hwin])).trans (codeError_eq s 2 .eNoWindow),
    fun l m x => ⟨fun hfits => ?_, fun hbad => ?_⟩⟩
  · refine (if_neg (not_lt.2 hfits)).trans ((codePoint_eq s _ _).trans ?_)
    simp only [xorSig_newWindow]
    rfl
  · exact (if_pos hbad).trans (codeError_eq s 13 .eBadWindow)

/-- Settles O32: the padding is `State.codePad`. -/
theorem paddingChangesNothing : Obligations.PaddingChangesNothing := fun _ _ => rfl

/-! ### Instructions and steps (R230, R265, R270) -/

/-- Settles O33: an instruction is a function of states that works on one unit (R22). -/
theorem everyInstructionGivesANextState : Obligations.EveryInstructionGivesANextState := by
  intro i s
  by_cases hp : i.port = some .enc
  · obtain ⟨F, -, he⟩ := exec_encOnly hp
    exact ⟨F s, he s⟩
  · obtain ⟨F, -, he⟩ := exec_decOnly hp
    exact ⟨F s, he s⟩

theorem step_codeword {s : State} {c : CodeCtx} {i : Instr} (hs : s.dec.stage = some c)
    (hd : decodeWire c s.dec.regs.window s.dec.source.left = .ok i) : step s = exec i s := by
  simp [step, fetch, fetchCode, hs, hd]

/-- Settles O42: the step equations of a legal word, of a codeword inside a command, and of no action. -/
theorem stepRunsTheInstruction : Obligations.StepRunsTheInstruction :=
  ⟨fun _ _ _ _ _ hs hw hi hd => step_encCmd_legal hs hi hw hd, fun _ _ _ _ _ hs hw hi hd => step_decCmd_legal hs hi hw hd,
    fun _ _ _ hs hd => step_codeword hs hd, fun _ hs hi => step_idle hs hi⟩

/-! ### `RDREG` (R83, R163, R200) -/

/-- A word with the opcode of an `RDREG` that names no register or uses another field is illegal on its port. -/
theorem decodeCmd_ne_ok_of_rdreg_unused {port : Agent} {w : Word} (i : Instr)
    (hopc : port = .enc ∧ opcOf w = 0x04 ∨ port = .dec ∧ opcOf w = 0x84)
    (hbad : (tsOf w).extractLsb' 0 3 = 7 ∨ (tsOf w).extractLsb' 3 29 ≠ 0 ∨ valOf w ≠ 0 ∨ rsvOf w ≠ 0) :
    decodeCmd port w ≠ .ok i := by
  intro hd
  obtain ⟨hrsv, hfields⟩ := (decodeCmd_isOk_iff port w).1 ⟨i, hd⟩
  obtain ⟨hts, hval, hidx⟩ : RdregFields w := by
    obtain ⟨rfl, hopc⟩ | ⟨rfl, hopc⟩ := hopc <;> simpa [LegalFields, hopc] using hfields
  obtain h | h | h | h := hbad
  exacts [hidx h, h hts, h hval, h hrsv]

theorem sinkOk_reset : SinkOk State.reset := nofun

/-- Settles O21: the register is read in any phase, the reserved index is an illegal word, and `STATUS` shows `phase` and
`err` in their fields. -/
theorem encRdregReturnsTheRegister : Obligations.EncRdregReturnsTheRegister := by
  refine ⟨fun idx hidx => ?word, fun s idx hidx hok => exec_encRdreg hidx hok,
    fun s hok => congrArg _ (encFinish_misuse (r := s.encRun) .eIllegal hok),
    fun w i hopc hbad => decodeCmd_ne_ok_of_rdreg_unused i (.inl ⟨rfl, hopc⟩) hbad,
    registerMapAndStatusLayout.2.1, fun r x => ⟨?phase, statusWord_err (r.enterError x)⟩, ?afterReset⟩
  case word =>
    have hts : (0 : BitVec 29) ++ idx = idx.setWidth 32 := by revert idx; decide
    rw [← hts]
    exact decodeCmd_encodeCmd (i := .encRdreg idx) rfl (by simpa [Instr.wf] using hidx)
  case phase => rw [statusWord_phase]; rfl
  case afterReset =>
    rw [exec_encRdreg (by decide) sinkOk_reset]
    exact congrArg (fun v => Host.Outcome.next (State.reset.encAfter _ _ (responseWord 0x00 0 v))) (readReg_reset 0)

/-- Settles O22: the same for the decoder. -/
theorem decRdregReturnsTheRegister : Obligations.DecRdregReturnsTheRegister :=
  ⟨fun _ _ hidx hok => exec_decRdreg hidx hok,
    fun s hok => congrArg _ (decFinish_respond s _ 0 0 { s.decRun with regs := s.dec.regs.setMisuse } hok rfl),
    fun _ i hopc hbad => decodeCmd_ne_ok_of_rdreg_unused i (.inr ⟨rfl, hopc⟩) hbad⟩

end Sys2Proof.Machine

namespace Sys2Proof.Machine

/-! ### A decoder command as the tree of its reads (R181 to R195)

A decoder command makes one read after another, and what it does next depends on the values read. `Plan` is that tree, `Plan.run`
its meaning, and the lemmas `…_eq_run` tie the commands of the model to their plans. What a read that is answered, short, reset
or never answered does to a command is then proved once, for every plan. -/

/-- What a decoder command still does: it responds, with these registers; or it makes a read of `n` bits, the registers being
`q` when it comes. -/
inductive Plan where
  | respond (st : BitVec 8) (rts : Time) (rval : Value) (q : Regs)
  | read (n : Nat) (q : Regs) (next : Nat → Plan)

/-- The plan carried out on a source. -/
def Plan.run : Plan → DecRun → DecResult
  | .respond st rts rval q, r => .respond st rts rval { r with regs := q }
  | .read n q next, r => sourceRead n { r with regs := q } fun v r => (next v).run r

namespace Plan

/-- R196. -/
def point (q : Regs) : Plan := .respond Status.point.code q.storedTS q.storedVal q

/-- R184, R188. -/
def endBlock (q : Regs) : Plan := .respond Status.endBlock.code 0 0 (q.setPhase .finished)

/-- R240. -/
def raise (x : Status) (q : Regs) : Plan := .respond x.code 0 0 (q.enterError x)

/-- `DEC_HEADER` (R181). -/
def header (q : Regs) : Plan :=
  .read 32 q fun t => .respond Status.ok.code (BitVec.ofNat 32 t) 0 (q.setHeader (BitVec.ofNat 32 t))

/-- The first path (R183, R184). -/
def first (q : Regs) : Plan :=
  .read 14 q fun d =>
    if d = Config.firstDeltaSentinel then endBlock q
    else .read 64 q fun v =>
      point (q.setFirst (BitVec.ofNat 32 d) (q.hdrTS + BitVec.ofNat 32 d) (BitVec.ofNat 64 v))

/-- The unary parser (R185). -/
def unary : Nat → Nat → Regs → (Nat → Plan) → Plan
  | 0, k, _, cont => cont k
  | fuel + 1, k, q, cont => .read 1 q fun b => if b = 0 then cont k else unary fuel (k + 1) q cont

/-- What follows `k` leading ones (R186 to R188). -/
def payload (q : Regs) (cont : Regs → Plan) (k : Nat) : Plan :=
  if payloadWidth k = 0 then cont (q.addDod 0)
  else .read (payloadWidth k) q fun u =>
    if payloadWidth k = 32 ∧ u = Config.dodEndPayload then endBlock q else cont (q.addDod (sdec (payloadWidth k) u))

/-- The timestamp half (R185 to R188). -/
def time (q : Regs) (cont : Regs → Plan) : Plan := unary 4 0 q (payload q cont)

/-- The significant bits (R195). -/
def sig (q : Regs) : Plan := .read q.reuseWidth q fun x => point (q.xorSig (BitVec.ofNat 64 x))

/-- A new window (R193, R194). -/
def newWindow (q : Regs) : Plan :=
  .read 5 q fun l => .read 6 q fun m =>
    if l + sigCount (BitVec.ofNat 6 m) > 64 then raise .eBadWindow q
    else sig (q.setWindow (BitVec.ofNat 5 l) (BitVec.ofNat 6 (64 - sigCount (BitVec.ofNat 6 m) - l)))

/-- The value half (R189 to R195). -/
def value (q : Regs) : Plan :=
  .read 1 q fun changed =>
    if changed = 0 then point q
    else .read 1 q fun renew =>
      if renew = 1 then newWindow q else if q.winValid then sig q else raise .eNoWindow q

/-- `DEC_POINT` (R182). -/
def decPoint (q : Regs) : Plan := if q.storedTS = 0 then first q else time q value

/-- A use error (R237, R238). -/
def misuse (x : Status) (q : Regs) : Plan := .respond x.code 0 0 q.setMisuse

/-- `DEC_RDREG` (R200). -/
def rdreg (idx : BitVec 3) (q : Regs) : Plan :=
  if idx = 7 then misuse .eIllegal q else .respond Status.ok.code 0 (readReg q idx) q

/-- Steps 3 and 4 of R180, before the plan `p` of a command. -/
def checked (need : Phase) (q : Regs) (p : Plan) : Plan :=
  if q.phase = .error then .respond q.err 0 0 q else if q.phase ≠ need then misuse .eMisuse q else p

/-- The plan of a decoder command; anything else is illegal on the port (R84). -/
def command : Instr → Regs → Plan
  | .decHeader, q => checked .init q (header q)
  | .decPoint, q => checked .opened q (decPoint q)
  | .decRdreg idx, q => rdreg idx q
  | _, q => misuse .eIllegal q

/-! ### The commands follow their plans -/

/-- A plan brings its own registers. -/
@[simp] theorem run_setRegs (p : Plan) (r : DecRun) (q : Regs) : p.run { r with regs := q } = p.run r := by
  cases p <;> rfl

theorem sourceTake_congr {n : Nat} {r : DecRun} {k k' : Nat → DecRun → DecResult}
    (h : ∀ v (r' : DecRun), r'.regs = r.regs → k v r' = k' v r') : sourceTake n r k = sourceTake n r k' := by
  unfold sourceTake
  split_ifs
  · exact h _ _ rfl
  · rfl

/-- A read after which the command follows a plan, whatever the value, is a read of that plan. -/
theorem sourceRead_eq_run {n : Nat} {r : DecRun} {k : Nat → DecRun → DecResult} {next : Nat → Plan}
    (h : ∀ v (r' : DecRun), r'.regs = r.regs → k v r' = (next v).run r') :
    sourceRead n r k = (Plan.read n r.regs next).run r := by
  obtain ⟨regs, source, answers, free⟩ := r
  match answers with
  | [] => exact sourceTake_congr h
  | .ok :: rest => exact sourceTake_congr (r := { regs, source, answers := rest, freeReads := free }) h
  | .never :: rest => rfl
  | .reset :: rest => rfl

theorem decHeaderBody_eq_run (r : DecRun) : decHeaderBody r = (header r.regs).run r :=
  sourceRead_eq_run fun _ _ hr => by rw [hr]; rfl

theorem decFirst_eq_run (r : DecRun) : decFirst r = (first r.regs).run r := by
  refine sourceRead_eq_run fun d r₁ hr₁ => ?_
  rw [← hr₁]
  split_ifs
  · rfl
  · exact sourceRead_eq_run fun _ _ hr => by rw [← hr]; rfl

theorem readPrefix_eq_run (fuel k : Nat) {r : DecRun} {cont : Nat → DecRun → DecResult} {next : Nat → Plan}
    (h : ∀ k (r' : DecRun), r'.regs = r.regs → cont k r' = (next k).run r') :
    readPrefix fuel k r cont = (unary fuel k r.regs next).run r := by
  induction fuel generalizing k r with
  | zero => exact h k r rfl
  | succ fuel ih =>
    refine sourceRead_eq_run fun b r₁ hr₁ => ?_
    split_ifs
    · exact h k r₁ hr₁
    · rw [← hr₁] at h ⊢
      exact ih (k + 1) h

theorem decTime_eq_run {r : DecRun} {cont : DecRun → DecResult} {next : Regs → Plan}
    (h : ∀ r' : DecRun, cont r' = (next r'.regs).run r') : decTime r cont = (time r.regs next).run r := by
  refine readPrefix_eq_run 4 0 fun k r₁ hr₁ => ?_
  dsimp only
  unfold payload
  split_ifs
  · rw [h, hr₁]
    exact run_setRegs _ _ _
  · rw [← hr₁]
    refine sourceRead_eq_run fun u r₂ hr₂ => ?_
    rw [← hr₂]
    split_ifs
    · rfl
    · rw [h]
      exact run_setRegs _ _ _

theorem decSig_eq_run (r : DecRun) : decSig r = (sig r.regs).run r :=
  sourceRead_eq_run fun _ _ hr => by rw [← hr]; rfl

theorem decNewWindow_eq_run (r : DecRun) : decNewWindow r = (newWindow r.regs).run r := by
  refine sourceRead_eq_run fun l r₁ hr₁ => ?_
  rw [← hr₁]
  refine sourceRead_eq_run fun m r₂ hr₂ => ?_
  rw [← hr₂]
  dsimp only
  split_ifs
  · rfl
  · rw [decSig_eq_run]
    exact run_setRegs _ _ _

theorem decValue_eq_run (r : DecRun) : decValue r = (value r.regs).run r := by
  refine sourceRead_eq_run fun changed r₁ hr₁ => ?_
  rw [← hr₁]
  by_cases hchanged : changed = 0
  · rw [if_pos hchanged, if_pos hchanged]
    rfl
  · rw [if_neg hchanged, if_neg hchanged]
    refine sourceRead_eq_run fun renew r₂ hr₂ => ?_
    rw [← hr₂]
    split_ifs
    · exact decNewWindow_eq_run r₂
    · exact decSig_eq_run r₂
    · rfl

theorem decPointBody_eq_run (r : DecRun) : decPointBody r = (decPoint r.regs).run r := by
  unfold decPointBody decPoint
  split_ifs
  · exact decFirst_eq_run r
  · exact decTime_eq_run decValue_eq_run

theorem decRdregBody_eq_run (idx : BitVec 3) (r : DecRun) : decRdregBody idx r = (rdreg idx r.regs).run r := by
  unfold decRdregBody rdreg
  split_ifs <;> rfl

theorem decAdmit_eq_run {need : Phase} {r : DecRun} {body : DecRun → DecResult} {p : Plan} (h : body r = p.run r) :
    decAdmit need r body = (checked need r.regs p).run r := by
  unfold decAdmit checked
  split_ifs
  · rfl
  · rfl
  · exact h

/-- Every command of the decoder follows its plan. -/
theorem exec_eq_run {i : Instr} (hp : i.port = some .dec) (s : State) :
    exec i s = .next (s.decFinish ((command i s.dec.regs).run s.decRun)) := by
  cases i
  case decHeader => exact congrArg (Host.Outcome.next ∘ s.decFinish) (decAdmit_eq_run (decHeaderBody_eq_run s.decRun))
  case decPoint => exact congrArg (Host.Outcome.next ∘ s.decFinish) (decAdmit_eq_run (decPointBody_eq_run s.decRun))
  case decRdreg idx => exact congrArg (Host.Outcome.next ∘ s.decFinish) (decRdregBody_eq_run idx s.decRun)
  all_goals cases hp

theorem checked_of_phase {need : Phase} {q : Regs} (h : q.phase = need) (hn : need ≠ .error) (p : Plan) :
    checked need q p = p := by
  rw [checked, if_neg (h ▸ hn), if_neg (not_not.2 h)]

theorem command_decHeader {q : Regs} (h : q.phase = .init) : command .decHeader q = header q :=
  checked_of_phase h (by decide) _

theorem command_decPoint {q : Regs} (h : q.phase = .opened) : command .decPoint q = decPoint q :=
  checked_of_phase h (by decide) _

theorem exec_decPoint_first_eq_run {s : State} (hp : s.dec.regs.phase = .opened) (hts : s.dec.regs.storedTS = 0) :
    exec .decPoint s = .next (s.decFinish ((first s.dec.regs).run s.decRun)) := by
  rw [exec_eq_run rfl, command_decPoint hp, decPoint, if_pos hts]

theorem exec_decPoint_time_eq_run {s : State} (hp : s.dec.regs.phase = .opened) (hts : s.dec.regs.storedTS ≠ 0) :
    exec .decPoint s = .next (s.decFinish ((time s.dec.regs value).run s.decRun)) := by
  rw [exec_eq_run rfl, command_decPoint hp, decPoint, if_neg hts]

/-! ### What a plan does where all its reads are answered, short, reset or never answered -/

/-- The reads of `p` of these widths find the bits `b`, one field after another, and the command then goes on as `p'`; at each
of the reads the registers have the property `Q`. -/
inductive Takes (Q : Regs → Prop) : Plan → List Nat → Bits → Plan → Prop
  | done (p : Plan) : Takes Q p [] [] p
  | read {n : Nat} {q : Regs} {next : Nat → Plan} {ws : List Nat} {f b : Bits} {p : Plan} (hq : Q q) (hn : 0 < n)
    (hf : f.length = n) (h : Takes Q (next (natOf f)) ws b p) : Takes Q (.read n q next) (n :: ws) (f ++ b) p

section Takes

variable {Q : Regs → Prop} {p p' p'' : Plan} {ws ws' : List Nat} {b b' : Bits}

theorem Takes.length_eq_sum (h : Takes Q p ws b p') : b.length = ws.sum := by
  induction h with
  | done => rfl
  | read _ _ hf _ ih => simp [hf, ih]

theorem Takes.trans (h : Takes Q p ws b p') (h' : Takes Q p' ws' b' p'') : Takes Q p (ws ++ ws') (b ++ b') p'' := by
  induction h with
  | done => exact h'
  | read hq hn hf _ ih =>
    rw [List.append_assoc]
    exact .read hq hn hf (ih h')

theorem Takes.mono {Q' : Regs → Prop} (hQ : ∀ q, Q q → Q' q) (h : Takes Q p ws b p') : Takes Q' p ws b p' := by
  induction h with
  | done => exact .done _
  | read hq hn hf _ ih => exact .read (hQ _ hq) hn hf ih

/-- A field that was written as a number is read as it. -/
theorem Takes.field {n v : Nat} {q : Regs} {next : Nat → Plan} (hq : Q q) (hn : 0 < n) (hv : v < 2 ^ n)
    (h : Takes Q (next v) ws b p) : Takes Q (.read n q next) (n :: ws) (bin n v ++ b) p :=
  .read hq hn (bin_length n v) (by rwa [natOf_bin_of_lt hv])

theorem Takes.bit {x : Bool} {q : Regs} {next : Nat → Plan} (hq : Q q) (h : Takes Q (next x.toNat) ws b p) :
    Takes Q (.read 1 q next) (1 :: ws) (x :: b) p := by
  have hx : natOf [x] = x.toNat := by simp [natOf_cons]
  exact .read (f := [x]) hq one_pos rfl (by rwa [hx])

/-- The reads are answered and have their bits: the command goes on after them. -/
theorem Takes.run_ok (h : Takes Q p ws b p') {r : DecRun} {rest : Bits} (hok : ∀ a ∈ r.answers, a = SourceAnswer.ok)
    (hl : r.source.left = b ++ rest) :
    p.run r = p'.run { r with source := r.source.advance ws.sum, answers := r.answers.drop ws.length } := by
  induction h generalizing r with
  | done => rfl
  | @read n q next ws f b p _ hn hf _ ih =>
    rw [List.append_assoc] at hl
    rw [run, sourceRead_take (r := { r with regs := q }) _ hok hl hf hn, ih (tail_all hok) (left_advance_append hl hf),
      ← run_setRegs _ _ r.regs]
    simp

/-- A reset comes at a read after `n` answered ones: the command is abandoned, and only they are consumed (R261). -/
theorem Takes.run_reset (h : Takes Q p ws b p') {r : DecRun} {more : Bits} {n : Nat} {rest : List SourceAnswer}
    (ha : r.answers = List.replicate n .ok ++ .reset :: rest) (hn : n < ws.length) (hl : r.source.left = b ++ more) :
    ∃ q, p.run r = .abandoned { r with regs := q, source := r.source.advance (ws.take n).sum, answers := rest } := by
  induction h generalizing r n with
  | done => simp at hn
  | @read w q next ws f b p _ hw hf _ ih =>
    cases n with
    | zero =>
      refine ⟨q, ?_⟩
      simp [run, sourceRead, show r.answers = .reset :: rest from ha]
    | succ n =>
      rw [List.append_assoc] at hl
      have ha' : r.answers = .ok :: (List.replicate n .ok ++ .reset :: rest) := ha
      rw [run, sourceRead_ok (r := { r with regs := q }) _ ha' hl hf hw]
      obtain ⟨q', e⟩ := ih (r := ⟨q, r.source.advance w, List.replicate n .ok ++ .reset :: rest, r.freeReads⟩) rfl
        (by simpa using hn) (left_advance_append hl hf)
      exact ⟨q', by rw [e]; simp⟩

/-- The reset comes after all of these reads. -/
theorem Takes.run_skip (h : Takes Q p ws b p') {r : DecRun} {more : Bits} {rest : List SourceAnswer}
    (ha : r.answers = List.replicate ws.length .ok ++ rest) (hl : r.source.left = b ++ more) :
    p.run r = p'.run { r with source := r.source.advance ws.sum, answers := rest } := by
  induction h generalizing r with
  | done =>
    obtain ⟨regs, source, answers, free⟩ := r
    obtain rfl : answers = rest := ha
    rfl
  | @read w q next ws f b p _ hw hf _ ih =>
    rw [List.append_assoc] at hl
    have ha' : r.answers = .ok :: (List.replicate ws.length .ok ++ rest) := ha
    rw [run, sourceRead_ok (r := { r with regs := q }) _ ha' hl hf hw, ih rfl (left_advance_append hl hf),
      ← run_setRegs _ _ r.regs]
    simp

/-- A source that ends inside the bits of these reads: the command ends at one of them, with the registers it has there (R55,
R197). -/
theorem Takes.run_short (h : Takes Q p ws b p') {r : DecRun} {missing : Bits} (hmissing : missing ≠ [])
    (hok : ∀ a ∈ r.answers, a = SourceAnswer.ok) (hb : b = r.source.left ++ missing) :
    ∃ r' : DecRun, p.run r = r'.truncated ∧ Q r'.regs ∧ (∀ a ∈ r'.answers, a = SourceAnswer.ok) ∧
      r'.source.bytes = r.source.bytes := by
  induction h generalizing r with
  | done => exact absurd (List.append_eq_nil_iff.1 hb.symm).2 hmissing
  | @read w q next ws f b p hq hw hf _ ih =>
    by_cases hlen : w ≤ r.source.left.length
    · have hhead : r.source.left.take w = f := by
        rw [← List.take_append_of_le_length (l₂ := missing) hlen, ← hb, ← hf, List.take_left]
      have hl : r.source.left = f ++ r.source.left.drop w := by rw [← hhead, List.take_append_drop]
      have hb' : b = (r.source.advance w).left ++ missing := by
        rw [Source.left_advance]
        exact List.append_cancel_left (hb.trans (by rw [← List.append_assoc, ← hl]))
      rw [run, sourceRead_take (r := { r with regs := q }) _ hok hl hf hw]
      exact ih (tail_all hok) hb'
    · have hshort : r.source.bits.length < r.source.rpos + w := by
        rw [Source.left_length] at hlen; omega
      exact ⟨_, sourceRead_short (r := { r with regs := q }) _ hok hshort, hq, tail_all hok, rfl⟩

end Takes

/-! ### The codewords, read by read -/

section Codewords

variable {Q : Regs → Prop} {q : Regs}

/-- The unary parser stops at the first 0 (R185). -/
theorem takes_unary_stop (hq : Q q) {fuel n : Nat} (hn : n < fuel) (k : Nat) (cont : Nat → Plan) {ws : List Nat} {b : Bits}
    {p : Plan} (h : Takes Q (cont (k + n)) ws b p) :
    Takes Q (unary fuel k q cont) (List.replicate (n + 1) 1 ++ ws) (ones n ++ false :: b) p := by
  induction n generalizing fuel k with
  | zero =>
    obtain ⟨fuel, rfl⟩ := Nat.exists_eq_add_one.2 hn
    exact .bit hq h
  | succ n ih =>
    obtain ⟨fuel, rfl⟩ := Nat.exists_eq_add_one.2 (Nat.zero_lt_of_lt hn)
    refine .bit (x := true) hq (ih (by omega) (k + 1) ?_)
    rwa [Nat.add_right_comm]

/-- It also stops after as many ones as it may read. -/
theorem takes_unary_full (hq : Q q) {fuel : Nat} (k : Nat) (cont : Nat → Plan) {ws : List Nat} {b : Bits}
    {p : Plan} (h : Takes Q (cont (k + fuel)) ws b p) :
    Takes Q (unary fuel k q cont) (List.replicate fuel 1 ++ ws) (ones fuel ++ b) p := by
  induction fuel generalizing k with
  | zero => exact h
  | succ fuel ih =>
    refine .bit (x := true) hq (ih (k + 1) ?_)
    rwa [Nat.add_right_comm]

variable (cont : Regs → Plan)

theorem takes_payload (hq : Q q) {k v : Nat} (hpos : payloadWidth k ≠ 0) (hv : v < 2 ^ payloadWidth k)
    (hend : payloadWidth k = 32 → v ≠ Config.dodEndPayload) :
    Takes Q (payload q cont k) [payloadWidth k] (bin (payloadWidth k) v) (cont (q.addDod (sdec (payloadWidth k) v))) := by
  rw [payload, if_neg hpos, ← List.append_nil (bin _ _)]
  refine .field hq (Nat.pos_of_ne_zero hpos) hv ?_
  rw [if_neg fun h => hend h.1 h.2]
  exact .done _

theorem takes_endPayload (hq : Q q) :
    Takes Q (payload q cont 4) [32] (bin 32 Config.dodEndPayload) (endBlock q) := by
  rw [← List.append_nil (bin _ _)]
  exact .field hq (by decide) (by decide) (.done _)

/-- Four ones and the end marker (R188). -/
theorem takes_endSentinel (hq : Q q) : Takes Q (time q cont) Instr.wireEndSentinel.reads (ones 36) (endBlock q) := by
  have hones : ones 36 = ones 4 ++ bin 32 Config.dodEndPayload := by decide
  rw [hones]
  exact takes_unary_full hq 0 _ (takes_endPayload cont hq)

/-- A timestamp codeword is taken in the reads of `Instr.reads`, with the registers as they are (R185 to R187). -/
theorem takes_tsCode (hq : Q q) {i : Instr} (hctx : i.ctx = some .ts) (hend : i ≠ .wireEndSentinel) (hwf : i.wf = true) :
    Takes Q (time q cont) i.reads (encodeWire i) (cont (q.addDod (tsDod i))) := by
  cases i
  case wireTs0 => exact takes_unary_stop (n := 0) hq (by decide) 0 _ (.done _)
  case wireTs7 p =>
    exact takes_unary_stop (n := 1) hq (by decide) 0 _ (takes_payload (k := 1) cont hq (by decide) p.isLt nofun)
  case wireTs9 p =>
    exact takes_unary_stop (n := 2) hq (by decide) 0 _ (takes_payload (k := 2) cont hq (by decide) p.isLt nofun)
  case wireTs12 p =>
    exact takes_unary_stop (n := 3) hq (by decide) 0 _ (takes_payload (k := 3) cont hq (by decide) p.isLt nofun)
  case wireTs32 p =>
    have hp : p ≠ 0xFFFFFFFF := by simpa [Instr.wf] using hwf
    exact takes_unary_full hq 0 _
      (takes_payload (k := 4) cont hq (by decide) p.isLt fun _ h => hp (BitVec.eq_of_toNat_eq h))
  case wireEndSentinel => exact absurd rfl hend
  all_goals cases hctx

/-- Every term of the timestamp context is read to its last bit, the sentinels' patterns among them. -/
theorem exists_takes_tsCode (hq : Q q) {i : Instr} (hctx : i.ctx = some .ts) :
    ∃ p, Takes Q (time q cont) i.reads ((encodeWire i).take i.readLen) p := by
  by_cases hend : i = .wireEndSentinel
  · subst hend
    exact ⟨_, takes_endSentinel cont hq⟩
  have hall : (encodeWire i).take i.readLen = encodeWire i := by
    rw [← length_tsCode hctx hend, List.take_length]
  rw [hall]
  by_cases hwf : i.wf = true
  · exact ⟨_, takes_tsCode cont hq hctx hend hwf⟩
  · cases i
    case wireTs32 p =>
      obtain rfl : p = 0xFFFFFFFF := by simpa [Instr.wf] using hwf
      exact ⟨_, takes_endSentinel cont hq⟩
    case wireTs0 | wireTs7 | wireTs9 | wireTs12 | wireEndSentinel => exact absurd rfl hwf
    all_goals cases hctx

/-- A first-path codeword (R183). -/
theorem takes_firstPoint (hq : Q q) {d : BitVec 14} (hd : d ≠ 0x3FFF) (v : Value) :
    Takes Q (first q) [14, 64] (bin 14 d.toNat ++ bin 64 v.toNat)
      (point (q.setFirst (d.setWidth 32) (q.hdrTS + d.setWidth 32) v)) := by
  have hd' : d.toNat ≠ Config.firstDeltaSentinel := fun h => hd (BitVec.eq_of_toNat_eq h)
  refine .field hq (by decide) d.isLt ?_
  rw [if_neg hd', ← List.append_nil (bin _ _)]
  refine .field hq (by decide) v.isLt ?_
  rw [BitVec.ofNat_toNat, BitVec.ofNat_toNat, BitVec.setWidth_eq]
  exact .done _

/-- The sentinel delta (R184). -/
theorem takes_emptySentinel (hq : Q q) : Takes Q (first q) [14] (ones 14) (endBlock q) := by
  rw [ones_firstDelta, ← List.append_nil (bin _ _)]
  exact .field hq (by decide) (by decide) (.done _)

theorem takes_sig (hq : Q q) {n : Nat} {x : Value} (hn : n = q.reuseWidth) (hpos : 1 ≤ n) (hx : x.toNat < 2 ^ n) :
    Takes Q (sig q) [n] (bin n x.toNat) (point (q.xorSig x)) := by
  subst hn
  rw [← List.append_nil (bin _ _)]
  refine .field hq hpos hx ?_
  rw [BitVec.ofNat_toNat, BitVec.setWidth_eq]
  exact .done _

/-- The control and field bits of V-new (R190, R193): the window registers are written when they have been read (R194). -/
theorem takes_newWindow (hq : Q q) {l : BitVec 5} {m : BitVec 6} (hfits : l.toNat + sigCount m ≤ 64) :
    Takes Q (value q) [1, 1, 5, 6] ([true, true] ++ bin 5 l.toNat ++ bin 6 m.toNat)
      (sig (q.setWindow l (BitVec.ofNat 6 (64 - sigCount m - l.toNat)))) := by
  refine .bit (x := true) hq (.bit (x := true) hq (.field hq (by decide) l.isLt ?_))
  rw [← List.append_nil (bin _ _)]
  refine .field hq (by decide) m.isLt ?_
  simp only [BitVec.ofNat_toNat, BitVec.setWidth_eq]
  rw [if_neg (not_lt.2 hfits)]
  exact .done _

/-- The reuse width of the window V-new writes is its significant-bit count (R97, R194). -/
theorem reuseWidth_newWindow {l : BitVec 5} {m : BitVec 6} (hfits : l.toNat + sigCount m ≤ 64) :
    (q.setWindow l (BitVec.ofNat 6 (64 - sigCount m - l.toNat))).reuseWidth = sigCount m := by
  rw [Regs.reuseWidth, Regs.setWindow_storedLZ, Regs.setWindow_storedTZ, toNat_newTZ]
  omega

/-- V-reuse, under a window of its width (R191, R195). -/
theorem takes_reuse (hq : Q q) {n : Nat} {x : Value} (hwf : (Instr.wireVReuse n x).wf = true) (hwin : q.winValid = true)
    (hn : n = q.reuseWidth) :
    Takes Q (value q) [1, 1, n] ([true, false] ++ bin n x.toNat) (point (q.xorSig x)) := by
  simp only [Instr.wf, Bool.and_eq_true, decide_eq_true_eq] at hwf
  refine .bit (x := true) hq (.bit (x := false) hq ?_)
  rw [if_neg (by decide), if_pos hwin]
  exact takes_sig hq hn hwf.1.1 hwf.2

/-- A value codeword is taken in the reads of `Instr.reads` (R189 to R195). -/
theorem takes_valueCode {j : Instr} (hctx : j.ctx = some .value) (hwf : j.wf = true)
    (hwindow : ∀ n x, j = .wireVReuse n x → q.winValid = true ∧ n = q.reuseWidth) :
    Takes (fun _ => True) (value q) j.reads (encodeWire j) (point (valueEffect j q)) := by
  cases j <;> cases hctx
  case wireVSame => exact .bit trivial (.done _)
  case wireVReuse n x =>
    obtain ⟨hwin, hn⟩ := hwindow n x rfl
    exact takes_reuse trivial hwf hwin hn
  case wireVNew l m x =>
    simp only [Instr.wf, Bool.and_eq_true, decide_eq_true_eq] at hwf
    exact (takes_newWindow trivial hwf.1).trans
      (takes_sig trivial (reuseWidth_newWindow hwf.1).symm (one_le_sigCount m) hwf.2)

end Codewords

/-! ### How a command ends after its reads -/

section Ends

variable {s : State} {p : Plan} {ws : List Nat} {b : Bits} {st : BitVec 8} {rts : Time} {rval : Value} {q : Regs}

/-- All reads answered: the response, and the bits of the reads consumed. -/
theorem Takes.finish_ok (h : Takes (fun _ => True) p ws b (.respond st rts rval q)) (hok : SourceOk s) {rest : Bits}
    (hl : s.dec.source.left = b ++ rest) :
    s.decFinish (p.run s.decRun) = s.decAfter q (s.dec.source.advance ws.sum) (responseWord st rts rval) := by
  rw [h.run_ok (r := s.decRun) hok hl]
  exact decFinish_respond s _ _ _ _ (drop_all _ hok) rfl

/-- The state after a decoder command that a reset abandoned with the source at `c` (R261). -/
def abandonedAt (s : State) (c : Source) : State := s.retire.setDec (DecUnit.reset { s.dec with source := c })

/-- A reset where the command stands, at a read or before its response. -/
theorem run_reset_head (p : Plan) {r : DecRun} {rest : List SourceAnswer} (ha : r.answers = .reset :: rest)
    (hfree : r.freeReads = s.dec.freeReads) : s.decFinish (p.run r) = abandonedAt s r.source := by
  obtain ⟨regs, source, answers, free⟩ := r
  obtain rfl : answers = .reset :: rest := ha
  obtain rfl : free = s.dec.freeReads := hfree
  cases p <;> rfl

/-- A reset after `n` of the reads: what they consumed stays consumed. -/
theorem Takes.finish_reset {Q : Regs → Prop} {p' : Plan} (h : Takes Q p ws b p') {n : Nat}
    {rest : List SourceAnswer} {more : Bits} (hn : n ≤ ws.length)
    (ha : s.sourceAnswers = List.replicate n .ok ++ .reset :: rest) (hl : s.dec.source.left = b ++ more) :
    s.decFinish (p.run s.decRun) = abandonedAt s (s.dec.source.advance (ws.take n).sum) := by
  rcases hn.lt_or_eq with hlt | rfl
  · obtain ⟨q, e⟩ := h.run_reset (r := s.decRun) ha hlt hl
    rw [e]
    rfl
  · rw [h.run_skip (r := s.decRun) ha hl, run_reset_head p' rfl rfl, List.take_length]
    rfl

end Ends

end Plan

open Plan

/-! ### `DEC_POINT` on whole codewords (R182 to R196) -/

/-- A first-path codeword: what is consumed of it, and its effect. -/
theorem decPoint_first_code {s : State} {i : Instr} {rest : Bits} (hp : s.dec.regs.phase = .opened)
    (hts : s.dec.regs.storedTS = 0) (hok : SourceOk s) (hctx : i.ctx = some .first) (hwf : i.wf = true)
    (hl : s.dec.source.left = (encodeWire i).take i.readLen ++ rest) :
    exec .decPoint s = exec i s := by
  rw [exec_decPoint_first_eq_run hp hts]
  cases i
  case wireFirstPoint d v =>
    have hd : d ≠ 0x3FFF := by simpa [Instr.wf] using hwf
    rw [(Laws.ReadLength.wireFirstPoint d v).2 hwf nofun nofun nofun, List.take_length] at hl
    rw [(takes_firstPoint trivial hd v).finish_ok hok hl, exec_wireFirstPoint s hd v]
    rfl
  case wireEmptySentinel =>
    rw [(takes_emptySentinel trivial).finish_ok hok hl]
    rfl
  all_goals cases hctx

theorem decPoint_endSentinel {s : State} {rest : Bits} (hp : s.dec.regs.phase = .opened)
    (hts : s.dec.regs.storedTS ≠ 0) (hok : SourceOk s) (hl : s.dec.source.left = ones 36 ++ rest) :
    exec .decPoint s = exec .wireEndSentinel s := by
  rw [exec_decPoint_time_eq_run hp hts, (takes_endSentinel value trivial).finish_ok hok hl]
  rfl

section TimeAndValue

variable {q : Regs} {i j : Instr} (hctx : i.ctx = some .ts) (hend : i ≠ .wireEndSentinel) (hwf : i.wf = true)
  (hctx' : j.ctx = some .value) (hwf' : j.wf = true)
  (hwindow : ∀ n x, j = .wireVReuse n x → q.winValid = true ∧ n = q.reuseWidth)

include hctx hend hwf hctx' hwf' hwindow

/-- A timestamp codeword and a value codeword, in their reads: the moved clock, then the value (R187, R196). -/
theorem takes_point :
    Takes (fun _ => True) (time q value) (i.reads ++ j.reads) (encodeWire i ++ encodeWire j)
      (point (valueEffect j (q.addDod (tsDod i)))) :=
  (takes_tsCode value trivial hctx hend hwf).trans (takes_valueCode hctx' hwf' hwindow)

theorem decPoint_codes {s : State} {rest : Bits} (hq : s.dec.regs = q) (hp : q.phase = .opened) (hts : q.storedTS ≠ 0)
    (hok : SourceOk s) (hl : s.dec.source.left = encodeWire i ++ encodeWire j ++ rest) :
    exec .decPoint s
      = .next (s.decAfter (valueEffect j (q.addDod (tsDod i))) (s.dec.source.advance (i.readLen + j.readLen))
          (responseWord 0x01 (valueEffect j (q.addDod (tsDod i))).storedTS
            (valueEffect j (q.addDod (tsDod i))).storedVal)) := by
  subst hq
  rw [exec_decPoint_time_eq_run hp hts,
    (takes_point hctx hend hwf hctx' hwf' hwindow).finish_ok hok hl, List.sum_append,
    Instr.reads_sum i hwf, Instr.reads_sum j hwf']
  rfl

end TimeAndValue

/-- Settles O26: the reads of `DEC_POINT` take each codeword whole, with the effect the codeword has as an instruction. -/
theorem decPointRunsTheCodewords : Obligations.DecPointRunsTheCodewords := by
  refine ⟨fun s i rest hp hts hok hctx hwf hl => ?first, fun s rest hp hts hok hl => ?endSentinel,
    fun s i j rest hp hts hok hctx hend hwf hctx' hwf' hwindow hl => ?point⟩
  case first =>
    obtain ⟨t, ht⟩ := everyInstructionGivesANextState i s
    exact ⟨t, ht, (decPoint_first_code hp hts hok hctx hwf hl).trans ht⟩
  case endSentinel =>
    obtain ⟨t, ht⟩ := everyInstructionGivesANextState .wireEndSentinel s
    exact ⟨t, ht, (decPoint_endSentinel hp hts hok hl).trans ht⟩
  case point =>
    refine ⟨_, _, exec_tsCode hctx hend hwf s, exec_valueCode hctx' hwf' _ fun n x hj => (hwindow n x hj).1, ?_⟩
    rw [decPoint_codes hctx hend hwf hctx' hwf' hwindow rfl hp hts hok hl, ← Source.advance_advance]
    rfl

end Sys2Proof.Machine

namespace Sys2Proof.Machine

open Plan

/-! ### A source that ends inside a `DEC_POINT` (R55, R197) -/

section ShortRead

variable {s : State} {p p' p'' : Plan} {ws ws' : List Nat} {b b' : Bits} {q q' : Regs}

/-- The bits end inside reads that the command makes with registers `q`. -/
theorem Plan.Takes.truncatedInto (h : Takes (· = q) p ws b p') {r : DecRun} {missing : Bits} (hmissing : missing ≠ [])
    (hok : ∀ a ∈ r.answers, a = SourceAnswer.ok) (hbytes : r.source.bytes = s.dec.source.bytes)
    (hb : b = r.source.left ++ missing) : s.TruncatedInto q (s.decFinish (p.run r)) := by
  obtain ⟨r', e, rfl, hok', hbytes'⟩ := h.run_short hmissing hok hb
  rw [e]
  exact decFinish_truncated hok' (hbytes'.trans hbytes)

/-- Some of a command's reads are made with registers `q`, the others after them with `q'`; the bits end inside either. -/
theorem Plan.Takes.truncatedInto_trans (h : Takes (· = q) p ws b p') (h' : Takes (· = q') p' ws' b' p'') {r : DecRun}
    {missing : Bits} (hmissing : missing ≠ []) (hok : ∀ a ∈ r.answers, a = SourceAnswer.ok)
    (hbytes : r.source.bytes = s.dec.source.bytes) (hb : b ++ b' = r.source.left ++ missing) :
    s.TruncatedInto (if b.length ≤ r.source.left.length then q' else q) (s.decFinish (p.run r)) := by
  split_ifs with hlen
  · have hleft : r.source.left = b ++ r.source.left.drop b.length := by
      conv_lhs => rw [← List.take_append_drop b.length r.source.left]
      rw [← List.take_append_of_le_length (l₂ := missing) hlen, ← hb, List.take_left]
    have hb' : b' = (r.source.advance ws.sum).left ++ missing := by
      rw [Source.left_advance, ← h.length_eq_sum]
      exact List.append_cancel_left (hb.trans (by rw [← List.append_assoc, ← hleft]))
    rw [h.run_ok hok hleft]
    exact h'.truncatedInto hmissing (drop_all _ hok) hbytes hb'
  · have hlt : r.source.left.length < b.length := not_le.1 hlen
    have hb' : b = r.source.left ++ b.drop r.source.left.length := by
      conv_lhs => rw [← List.take_append_drop r.source.left.length b]
      rw [← List.take_append_of_le_length (l₂ := b') hlt.le, hb, List.take_left]
    exact h.truncatedInto (by simpa using hlt) hok hbytes hb'

end ShortRead

/-- The registers at a short read inside a value codeword of which `count` bits are there: V-new has written its window when its
13 control and field bits are read (R194, R197). -/
def shortValueRegs (j : Instr) (count : Nat) (q : Regs) : Regs :=
  match j with
  | .wireVNew l m _ => if 13 ≤ count then q.setWindow l (BitVec.ofNat 6 (64 - sigCount m - l.toNat)) else q
  | _ => q

theorem value_truncatedInto {s : State} {j : Instr} {r : DecRun} {missing : Bits} (hctx : j.ctx = some .value)
    (hwf : j.wf = true)
    (hwindow : ∀ n x, j = .wireVReuse n x → r.regs.winValid = true ∧ n = r.regs.reuseWidth) (hmissing : missing ≠ [])
    (hok : ∀ a ∈ r.answers, a = SourceAnswer.ok) (hbytes : r.source.bytes = s.dec.source.bytes)
    (hb : encodeWire j = r.source.left ++ missing) :
    s.TruncatedInto (shortValueRegs j r.source.left.length r.regs) (s.decFinish ((value r.regs).run r)) := by
  cases j <;> cases hctx
  case wireVSame =>
    have htakes : Takes (· = r.regs) (value r.regs) [1] [false] (point r.regs) := .bit rfl (.done _)
    exact htakes.truncatedInto hmissing hok hbytes hb
  case wireVReuse n x =>
    obtain ⟨hwin, hn⟩ := hwindow n x rfl
    exact (takes_reuse (Q := (· = r.regs)) rfl hwf hwin hn).truncatedInto hmissing hok hbytes hb
  case wireVNew l m x =>
    simp only [Instr.wf, Bool.and_eq_true, decide_eq_true_eq] at hwf
    have hsig := takes_sig (Q := (· = r.regs.setWindow l _)) rfl (reuseWidth_newWindow hwf.1).symm (one_le_sigCount m) hwf.2
    simpa [shortValueRegs] using (takes_newWindow (Q := (· = r.regs)) rfl hwf.1).truncatedInto_trans hsig hmissing hok hbytes hb

theorem decPoint_truncatedInto_value {s : State} {i j : Instr} {part missing : Bits}
    (hp : s.dec.regs.phase = .opened) (hts : s.dec.regs.storedTS ≠ 0) (hok : SourceOk s) (hctx : i.ctx = some .ts)
    (hend : i ≠ .wireEndSentinel) (hwf : i.wf = true) (hctx' : j.ctx = some .value) (hwf' : j.wf = true)
    (hwindow : ∀ n x, j = .wireVReuse n x → s.dec.regs.winValid = true ∧ n = s.dec.regs.reuseWidth)
    (hj : encodeWire j = part ++ missing) (hmissing : missing ≠ []) (hl : s.dec.source.left = encodeWire i ++ part) :
    ∃ t, exec .decPoint s = .next t ∧
      s.TruncatedInto (shortValueRegs j part.length (s.dec.regs.addDod (tsDod i))) t := by
  refine ⟨_, exec_decPoint_time_eq_run hp hts, ?_⟩
  have htime := takes_tsCode (Q := fun _ => True) (q := s.dec.regs) value trivial hctx hend hwf
  have hpart : (s.dec.source.advance i.reads.sum).left = part :=
    left_advance_append hl htime.length_eq_sum
  rw [htime.run_ok (r := s.decRun) hok hl, ← run_setRegs _ _ (s.dec.regs.addDod (tsDod i)), ← hpart]
  exact value_truncatedInto (r := ⟨s.dec.regs.addDod (tsDod i), s.dec.source.advance i.reads.sum, _, _⟩) hctx' hwf' hwindow
    hmissing (drop_all _ hok) rfl (by rw [hpart]; exact hj)

theorem decPoint_truncatedInto_time {s : State} {i : Instr} {n : Nat} (hp : s.dec.regs.phase = .opened)
    (hts : s.dec.regs.storedTS ≠ 0) (hok : SourceOk s) (hctx : i.ctx = some .ts) (hn : n < i.readLen)
    (hl : s.dec.source.left = (encodeWire i).take n) :
    ∃ t, exec .decPoint s = .next t ∧ s.TruncatedInto s.dec.regs t := by
  refine ⟨_, exec_decPoint_time_eq_run hp hts, ?_⟩
  obtain ⟨p', htakes⟩ := exists_takes_tsCode (Q := (· = s.dec.regs)) value rfl hctx
  have hsplit : (encodeWire i).take i.readLen = s.dec.source.left ++ ((encodeWire i).take i.readLen).drop n := by
    rw [hl, ← min_eq_left hn.le, ← List.take_take, min_eq_left hn.le, List.take_append_drop]
  have hlen : ((encodeWire i).take i.readLen).length = i.readLen := List.length_take_of_le (readLen_le_length i)
  exact htakes.truncatedInto (by simp [hlen, hn]) hok rfl hsplit

/-- A part of a field can be completed to a field. -/
theorem exists_missing {n : Nat} {part : Bits} (h : part.length < n) :
    ∃ (v : BitVec n) (missing : Bits), bin n v.toNat = part ++ missing ∧ missing ≠ [] := by
  have hlen : (part ++ zeros (n - part.length)).length = n := by simp [zeros]; omega
  have hlt := natOf_lt (part ++ zeros (n - part.length))
  have hbin := bin_natOf (part ++ zeros (n - part.length))
  rw [hlen] at hlt hbin
  refine ⟨BitVec.ofNatLT _ hlt, _, hbin, ?_⟩
  simp [zeros]
  omega

theorem decPoint_truncatedInto_delta {s : State} (hp : s.dec.regs.phase = .opened) (hts : s.dec.regs.storedTS = 0)
    (hok : SourceOk s) (hshort : s.dec.source.left.length < 14) :
    ∃ t, exec .decPoint s = .next t ∧ s.TruncatedInto s.dec.regs t := by
  refine ⟨_, exec_decPoint_first_eq_run hp hts, ?_⟩
  obtain ⟨d, missing, hd, hmissing⟩ := exists_missing hshort
  have htakes : Takes (· = s.dec.regs) (first s.dec.regs) [14] (bin 14 d.toNat ++ []) _ :=
    .field rfl (by decide) d.isLt (.done _)
  exact htakes.truncatedInto hmissing hok rfl ((List.append_nil _).trans hd)

theorem decPoint_truncatedInto_firstValue {s : State} {d : BitVec 14} {part : Bits} (hp : s.dec.regs.phase = .opened)
    (hts : s.dec.regs.storedTS = 0) (hok : SourceOk s) (hd : d ≠ 0x3FFF) (hshort : part.length < 64)
    (hl : s.dec.source.left = bin 14 d.toNat ++ part) :
    ∃ t, exec .decPoint s = .next t ∧ s.TruncatedInto s.dec.regs t := by
  refine ⟨_, exec_decPoint_first_eq_run hp hts, ?_⟩
  obtain ⟨v, missing, hv, hmissing⟩ := exists_missing hshort
  have hb : bin 14 d.toNat ++ bin 64 v.toNat = s.dec.source.left ++ missing := by rw [hv, hl, List.append_assoc]
  exact (takes_firstPoint (Q := (· = s.dec.regs)) rfl hd v).truncatedInto hmissing hok rfl hb

/-- Settles O28: a short read ends the command at the read it comes at, with the registers of that read; each codeword is
taken in reads with known registers. -/
theorem shortReadKeepsTheWritesBefore : Obligations.ShortReadKeepsTheWritesBefore := by
  refine ⟨fun s t i j part missing hp hts hok hctx hend hwf hctx' hwf' hwindow hexec hj hmissing hl => ?_,
    fun s i n hp hts hok hctx hn hl => decPoint_truncatedInto_time hp hts hok hctx hn hl,
    fun s hp hts hok hshort => decPoint_truncatedInto_delta hp hts hok hshort,
    fun s d part hp hts hok hd hshort hl => decPoint_truncatedInto_firstValue hp hts hok hd hshort hl⟩
  intro moved written
  have hmoved : moved = s.dec.regs.addDod (tsDod i) := by
    simp only [moved, exec_tsCode_regs hctx hend hwf hexec]
    rfl
  have hwritten : written = shortValueRegs j part.length moved := by
    cases j
    case wireVNew l m x =>
      simp only [written, shortValueRegs, Nat.sub_right_comm 64 l.toNat]
      rfl
    all_goals rfl
  rw [hwritten, hmoved]
  exact decPoint_truncatedInto_value hp hts hok hctx hend hwf hctx' hwf' hwindow hj hmissing hl

/-! ### A reset during a decoder command (R261) -/

/-- Settles O40: a reset at a read, or before the response, abandons the command with what the reads before it consumed; each
codeword is taken in the reads of `Instr.reads`. -/
theorem resetAbandonsADecoderCommand : Obligations.ResetAbandonsADecoderCommand := by
  unfold Obligations.ResetAbandonsADecoderCommand
  intro abandoned
  refine ⟨fun s i rest hport ha => ?head, fun s rest hp ha hle => ?header,
    fun s i n rest more hp hts hctx hwf hl hn ha => ?first, fun s n rest more hp hts hl hn ha => ?endSentinel,
    fun s i j n rest more hp hts hctx hend hwf hctx' hwf' hwindow hl hn ha => ?point⟩
  case head =>
    rw [exec_eq_run hport, run_reset_head _ ha rfl]
    rfl
  case header =>
    have hlen : 32 ≤ s.dec.source.left.length := by rw [Source.left_length]; omega
    have htakes : Takes (fun _ => True) (header s.dec.regs) [32] (s.dec.source.left.take 32 ++ []) _ :=
      .read trivial (by decide) (List.length_take_of_le hlen) (.done _)
    have hl : s.dec.source.left = s.dec.source.left.take 32 ++ [] ++ s.dec.source.left.drop 32 := by simp
    rw [exec_eq_run rfl, command_decHeader hp, htakes.finish_reset (n := 1) le_rfl ha hl]
    rfl
  case first =>
    rw [exec_decPoint_first_eq_run hp hts]
    cases i
    case wireFirstPoint d v =>
      have hd : d ≠ 0x3FFF := by simpa [Instr.wf] using hwf
      rw [(Laws.ReadLength.wireFirstPoint d v).2 hwf nofun nofun nofun, List.take_length] at hl
      rw [(takes_firstPoint (Q := fun _ => True) trivial hd v).finish_reset hn ha hl]
      rfl
    case wireEmptySentinel =>
      rw [(takes_emptySentinel (Q := fun _ => True) trivial).finish_reset hn ha hl]
      rfl
    all_goals cases hctx
  case endSentinel =>
    rw [exec_decPoint_time_eq_run hp hts, (takes_endSentinel (Q := fun _ => True) value trivial).finish_reset hn ha hl]
    rfl
  case point =>
    rw [exec_decPoint_time_eq_run hp hts,
      (takes_point hctx hend hwf hctx' hwf' hwindow).finish_reset hn ha hl]
    rfl

end Sys2Proof.Machine

namespace Sys2Proof.Machine

/-! ### An encoder command as its register writes and its sink accesses (R140 to R163)

Every encoder command either responds at once, or writes its registers and then makes one sink access after another. `EncPlan`
is that form, and `EncPlan.exec_eq_run` ties the commands of the model to it. -/

/-- One access to the sink: the bits it appends, and whether it is the flush. -/
structure Access where
  bits : Bits
  flush : Bool

/-- Accesses made in order; `k` is the rest of the command. -/
def runAccesses : List Access → EncRun → (EncRun → EncResult) → EncResult
  | [], r, k => k r
  | a :: as, r, k => sinkAccess a.bits a.flush r fun r => runAccesses as r k

/-- The sink after accesses that it answered with `ok`. -/
def Sink.after (k : Sink) (as : List Access) : Sink :=
  ⟨k.bits ++ (as.map Access.bits).flatten, as.any Access.flush || k.flushed⟩

theorem Sink.after_cons (k : Sink) (a : Access) (as : List Access) :
    (⟨k.bits ++ a.bits, a.flush || k.flushed⟩ : Sink).after as = k.after (a :: as) := by
  simp [Sink.after, Bool.or_comm, Bool.or_assoc]

/-- The accesses of a field list: one for each field that is not empty (R51, log 9). -/
def fieldAccesses (fs : List Field) : List Access := (fs.filter fun f => f.width != 0).map fun f => ⟨f.bits, false⟩

section Accesses

variable {as : List Access} {r : EncRun} (k : EncRun → EncResult)

theorem sinkPut_eq_runAccesses (fs : List Field) (r : EncRun) : sinkPut fs r k = runAccesses (fieldAccesses fs) r k := by
  induction fs generalizing r with
  | nil => rfl
  | cons f fs ih =>
    by_cases hw : f.width = 0
    · rw [sinkPut, if_pos hw, ih]
      simp [fieldAccesses, hw]
    · have haccesses : fieldAccesses (f :: fs) = ⟨f.bits, false⟩ :: fieldAccesses fs := by simp [fieldAccesses, hw]
      rw [sinkPut, if_neg hw, haccesses, runAccesses, sinkWrite]
      exact congrArg _ (funext ih)

/-- A sink access goes on only with its bits appended. -/
theorem sinkAccess_congr {b : Bits} {fl : Bool} {k k' : EncRun → EncResult}
    (h : ∀ r' : EncRun, r'.sink.bits = r.sink.bits ++ b → k r' = k' r') : sinkAccess b fl r k = sinkAccess b fl r k' := by
  obtain ⟨regs, sink, answers⟩ := r
  match answers with
  | [] => exact h _ rfl
  | .ok :: rest => exact h _ rfl
  | .fail left fl' :: rest => rfl
  | .never :: rest => rfl
  | .reset kept :: rest => rfl

/-- The flush pads what the sink holds when it comes (R52). -/
theorem runAccesses_flush (as : List Access) (r : EncRun) :
    runAccesses as r (fun r => sinkFlush r k)
      = runAccesses (as ++ [⟨zeros (padCount (r.sink.bits ++ (as.map Access.bits).flatten).length), true⟩]) r k := by
  induction as generalizing r with
  | nil => simp [runAccesses, sinkFlush, Sink.padding]
  | cons a as ih =>
    refine sinkAccess_congr fun r' hr' => ?_
    rw [ih, hr']
    simp

/-- Accesses that the sink answers with `ok`, the first of several. -/
theorem runAccesses_skip {n : Nat} {rest : List SinkAnswer} (hn : n ≤ as.length)
    (ha : r.answers = List.replicate n .ok ++ rest) :
    runAccesses as r k = runAccesses (as.drop n) { r with sink := r.sink.after (as.take n), answers := rest } k := by
  induction n generalizing as r with
  | zero =>
    obtain ⟨regs, sink, answers⟩ := r
    obtain rfl : answers = rest := ha
    simp [Sink.after]
  | succ n ih =>
    cases as with
    | nil => simp at hn
    | cons a as =>
      obtain ⟨regs, sink, answers⟩ := r
      obtain rfl : answers = .ok :: (List.replicate n .ok ++ rest) := by simpa [List.replicate_succ] using ha
      rw [List.take_succ_cons, ← Sink.after_cons]
      exact ih (r := ⟨regs, ⟨sink.bits ++ a.bits, a.flush || sink.flushed⟩, List.replicate n .ok ++ rest⟩)
        (by simpa using hn) rfl

theorem runAccesses_ok (h : ∀ a ∈ r.answers, a = SinkAnswer.ok) :
    ∃ rest, (∀ a ∈ rest, a = SinkAnswer.ok) ∧
      runAccesses as r k = k { r with sink := r.sink.after as, answers := rest } := by
  induction as generalizing r with
  | nil => exact ⟨r.answers, h, by simp [runAccesses, Sink.after]⟩
  | cons a as ih =>
    obtain ⟨rest, hrest, e⟩ := ih (r := ⟨r.regs, ⟨r.sink.bits ++ a.bits, a.flush || r.sink.flushed⟩, r.answers.tail⟩)
      (tail_all h)
    refine ⟨rest, hrest, ?_⟩
    rw [runAccesses, sinkAccess_ok _ _ _ _ h, e, Sink.after_cons]

/-- A failure at access `n` (R57, R232). -/
theorem runAccesses_fail {n : Nat} {left : Bits} {fl : Bool} {rest : List SinkAnswer} (hn : n < as.length)
    (ha : r.answers = List.replicate n .ok ++ .fail left fl :: rest) :
    runAccesses as r k = EncRun.raise { r with sink := ⟨left, fl⟩, answers := rest } .eIO := by
  rw [runAccesses_skip k hn.le ha, List.drop_eq_getElem_cons hn]
  rfl

/-- A reset at access `n` (R261). -/
theorem runAccesses_reset {n kept : Nat} {rest : List SinkAnswer} (hn : n < as.length)
    (ha : r.answers = List.replicate n .ok ++ .reset kept :: rest) :
    runAccesses as r k
      = .abandoned { r with
          sink := (r.sink.after (as.take n)).append (as[n].bits.take kept), answers := rest } := by
  rw [runAccesses_skip k hn.le ha, List.drop_eq_getElem_cons hn]
  rfl

/-- A sink that never answers the first access (R271). -/
theorem runAccesses_never {rest : List SinkAnswer} (hne : as ≠ []) (ha : r.answers = .never :: rest) :
    runAccesses as r k = .waits { r with answers := rest } := by
  obtain ⟨a, as, rfl⟩ := List.exists_cons_of_ne_nil hne
  rw [runAccesses, sinkAccess, ha]

end Accesses

/-- What an encoder command does: it responds; or it commits these registers, makes these accesses and responds `OK`. -/
inductive EncPlan where
  | respond (st : BitVec 8) (rval : Value) (q : Regs)
  | commit (q : Regs) (as : List Access)

namespace EncPlan

/-- The plan carried out on a sink. -/
def run : EncPlan → EncRun → EncResult
  | .respond st rval q, r => .respond st 0 rval { r with regs := q }
  | .commit q as, r => runAccesses as { r with regs := q } fun r => .respond Status.ok.code 0 0 r

/-- The accesses of a plan. -/
def accesses : EncPlan → List Access
  | .respond _ _ _ => []
  | .commit _ as => as

/-- The registers of a plan. -/
def regs : EncPlan → Regs
  | .respond _ _ q => q
  | .commit q _ => q

/-- A use error (R237, R238). -/
def misuse (x : Status) (q : Regs) : EncPlan := .respond x.code 0 q.setMisuse

/-- Steps 3 and 4 of R140, before the plan `p` of a command. -/
def checked (need : Phase) (q : Regs) (p : EncPlan) : EncPlan :=
  if q.phase = .error then .respond q.err 0 q else if q.phase ≠ need then misuse .eMisuse q else p

/-- `ENC_HEADER` (R141). -/
def header (t0 : Time) (q : Regs) : EncPlan := .commit (q.setHeader t0) (fieldAccesses [⟨t0.setWidth 64, 32⟩])

/-- `ENC_POINT` (R142). -/
def point (t : Time) (v : Value) (q : Regs) : EncPlan :=
  .commit (encPointEffect t v q).1 (fieldAccesses (encPointEffect t v q).2)

/-- `ENC_FINISH` (R160), on a sink that holds `k`. -/
def finish (q : Regs) (k : Bits) : EncPlan :=
  .commit (q.setPhase .finished)
    (fieldAccesses (sentinelFields q) ++
      [⟨zeros (padCount (k ++ ((fieldAccesses (sentinelFields q)).map Access.bits).flatten).length), true⟩])

/-- `ENC_RDREG` (R163). -/
def rdreg (idx : BitVec 3) (q : Regs) : EncPlan :=
  if idx = 7 then misuse .eIllegal q else .respond Status.ok.code (readReg q idx) q

/-- The plan of an encoder command on a sink that holds `k`; anything else is illegal on the port (R84). -/
def command (i : Instr) (q : Regs) (k : Bits) : EncPlan :=
  match i with
  | .encHeader t0 => checked .init q (header t0 q)
  | .encPoint t v => checked .opened q (point t v q)
  | .encFinish => checked .opened q (finish q k)
  | .encRdreg idx => rdreg idx q
  | _ => misuse .eIllegal q

/-! ### The commands follow their plans -/

theorem encHeaderBody_eq_run (t0 : Time) (r : EncRun) : encHeaderBody t0 r = (header t0 r.regs).run r := rfl

theorem encPointBody_eq_run (t : Time) (v : Value) (r : EncRun) : encPointBody t v r = (point t v r.regs).run r :=
  sinkPut_eq_runAccesses _ _ _

theorem encFinishBody_eq_run (r : EncRun) : encFinishBody r = (finish r.regs r.sink.bits).run r :=
  (sinkPut_eq_runAccesses _ _ _).trans (runAccesses_flush _ _ { r with regs := r.regs.setPhase .finished })

theorem encRdregBody_eq_run (idx : BitVec 3) (r : EncRun) : encRdregBody idx r = (rdreg idx r.regs).run r := by
  unfold encRdregBody rdreg
  split_ifs <;> rfl

theorem encAdmit_eq_run {need : Phase} {r : EncRun} {body : EncRun → EncResult} {p : EncPlan} (h : body r = p.run r) :
    encAdmit need r body = (checked need r.regs p).run r := by
  unfold encAdmit checked
  split_ifs
  · rfl
  · rfl
  · exact h

/-- Every command of the encoder follows its plan. -/
theorem exec_eq_run {i : Instr} (hp : i.port = some .enc) (s : State) :
    exec i s = .next (s.encFinish ((command i s.enc.regs s.enc.sink.bits).run s.encRun)) := by
  have hnext {res res' : EncResult} (h : res = res') :
      (.next (s.encFinish res) : Host.Outcome State Fault Refusal) = .next (s.encFinish res') := by rw [h]
  cases i
  case encHeader t0 => exact hnext (encAdmit_eq_run (encHeaderBody_eq_run t0 s.encRun))
  case encPoint t v => exact hnext (encAdmit_eq_run (encPointBody_eq_run t v s.encRun))
  case encFinish => exact hnext (encAdmit_eq_run (encFinishBody_eq_run s.encRun))
  case encRdreg idx => exact hnext (encRdregBody_eq_run idx s.encRun)
  all_goals cases hp

theorem checked_of_phase {need : Phase} {q : Regs} (h : q.phase = need) (hn : need ≠ .error) (p : EncPlan) :
    checked need q p = p := by
  rw [checked, if_neg (h ▸ hn), if_neg (not_not.2 h)]

/-- In another phase the command responds at once. -/
theorem checked_of_ne {need : Phase} {q : Regs} (h : q.phase ≠ need) (p : EncPlan) :
    ∃ st rval q', checked need q p = .respond st rval q' := by
  unfold checked
  split_ifs
  · exact ⟨_, _, _, rfl⟩
  · exact ⟨_, _, _, rfl⟩

/-! ### The accesses of the commands -/

theorem rdreg_accesses (idx : BitVec 3) (q : Regs) : (rdreg idx q).accesses = [] := by
  unfold rdreg
  split_ifs <;> rfl

/-- A command in the phase it needs makes the accesses of its plan, and in another none. -/
theorem checked_accesses {need : Phase} {q : Regs} {p : EncPlan} (hn : need ≠ .error) :
    (checked need q p).accesses = if q.phase = need then p.accesses else [] := by
  split_ifs with h
  · rw [checked_of_phase h hn]
  · obtain ⟨st, rval, q', e⟩ := checked_of_ne h p
    rw [e]
    rfl

theorem fieldAccesses_bits (fs : List Field) :
    (fieldAccesses fs).map Access.bits = (fs.filter fun f => f.width != 0).map Field.bits := List.map_map

/-- A field list without empty fields is written whole. -/
theorem fieldAccesses_sentinelFields (q : Regs) :
    (fieldAccesses (sentinelFields q)).map Access.bits = (sentinelFields q).map Field.bits := by
  rw [fieldAccesses_bits, List.filter_eq_self.2 (by simpa using sentinelFields_width_ne_zero q)]

/-- The accesses of the commands are those of `State.encAccesses`. -/
theorem command_accesses {i : Instr} (hp : i.port = some .enc) (s : State) :
    (command i s.enc.regs s.enc.sink.bits).accesses.map Access.bits = s.encAccesses i := by
  cases i
  case encHeader t0 =>
    have hheader : (header t0 s.enc.regs).accesses.map Access.bits = [bin 32 t0.toNat] :=
      congrArg (fun b => [b]) (Field.bits_setWidth t0 32)
    refine (congrArg (List.map _) (checked_accesses (by decide))).trans ?_
    rw [apply_ite (List.map Access.bits), hheader]
    rfl
  case encPoint t v =>
    refine (congrArg (List.map _) (checked_accesses (by decide))).trans ?_
    rw [apply_ite (List.map Access.bits), point, accesses, fieldAccesses_bits]
    rfl
  case encFinish =>
    refine (congrArg (List.map _) (checked_accesses (by decide))).trans ?_
    rw [apply_ite (List.map Access.bits), finish, accesses, List.map_append, fieldAccesses_sentinelFields]
    rfl
  case encRdreg idx => exact congrArg (List.map _) (rdreg_accesses idx _)
  all_goals cases hp

theorem fieldAccesses_any_flush (fs : List Field) (n : Nat) : ((fieldAccesses fs).take n).any Access.flush = false := by
  simp [fieldAccesses, ← List.map_take]

theorem any_flush_take {fs : List Field} {b : Bits} {n : Nat} (hn : n ≤ (fieldAccesses fs ++ [Access.mk b true]).length) :
    ((fieldAccesses fs ++ [Access.mk b true]).take n).any Access.flush
      = decide (n = (fieldAccesses fs ++ [Access.mk b true]).length) := by
  rcases hn.lt_or_eq with hlt | rfl
  · have hle : n ≤ (fieldAccesses fs).length := by rw [List.length_append] at hlt; exact Nat.le_of_lt_succ hlt
    rw [List.take_append_of_le_length hle, fieldAccesses_any_flush, decide_eq_false hlt.ne]
  · rw [List.take_length]
    simp

/-- Only the last access of `ENC_FINISH` is a flush. -/
theorem command_any_flush {i : Instr} (hp : i.port = some .enc) (q : Regs) (k : Bits) {n : Nat}
    (hn : n ≤ (command i q k).accesses.length) :
    ((command i q k).accesses.take n).any Access.flush
      = decide (i = .encFinish ∧ q.phase = .opened ∧ n = (command i q k).accesses.length) := by
  have hnone {need : Phase} {q' : Regs} {fs : List Field} (hneed : need ≠ .error) :
      ((checked need q (.commit q' (fieldAccesses fs))).accesses.take n).any Access.flush = false := by
    rw [checked_accesses hneed]
    split_ifs
    · exact fieldAccesses_any_flush fs n
    · simp
  cases i
  case encHeader t0 => exact (hnone (by decide)).trans (by simp)
  case encPoint t v => exact (hnone (by decide)).trans (by simp)
  case encFinish =>
    by_cases h : q.phase = .opened
    · have hcommand : (command .encFinish q k).accesses = (finish q k).accesses :=
        congrArg accesses (checked_of_phase h (by decide) _)
      rw [hcommand] at hn ⊢
      exact (any_flush_take hn).trans (decide_eq_decide.2 ⟨fun hlast => ⟨rfl, h, hlast⟩, fun hlast => hlast.2.2⟩)
    · have hcommand : (command .encFinish q k).accesses = [] := (checked_accesses (by decide)).trans (if_neg h)
      simp [hcommand, h]
  case encRdreg idx =>
    have hcommand : (command (.encRdreg idx) q k).accesses = [] := rdreg_accesses idx q
    simp [hcommand]
  all_goals cases hp

/-! ### How a command ends on a sink that answers, fails, is reset or never answers -/

section Ends

variable {s : State} {p : EncPlan}

/-- The response of a plan on a sink that answers `ok`. -/
def word : EncPlan → Word
  | .respond st rval _ => responseWord st 0 rval
  | .commit _ _ => responseWord 0x00 0 0

theorem finish_ok (p : EncPlan) (hok : SinkOk s) :
    s.encFinish (p.run s.encRun) = s.encAfter p.regs (s.enc.sink.after p.accesses) p.word := by
  cases p with
  | respond st rval q =>
    have hafter : s.enc.sink.after [] = s.enc.sink := by simp [Sink.after]
    rw [accesses, hafter]
    exact encFinish_respond s _ _ _ _ hok
  | commit q as =>
    obtain ⟨rest, hrest, e⟩ := runAccesses_ok (as := as) (r := { s.encRun with regs := q })
      (fun r => .respond Status.ok.code 0 0 r) hok
    rw [run, e]
    exact encFinish_respond s _ _ _ _ hrest

/-- The state after an encoder command that a reset abandoned with the sink as `k` (R261). -/
def abandonedWith (s : State) (k : Sink) : State := s.retire.setEnc (EncUnit.reset { s.enc with sink := k })

/-- A plan that a reset finds before its response. -/
theorem finish_reset_response {r : EncRun} {kept : Nat} {rest : List SinkAnswer} (st : BitVec 8) (rts : Time)
    (rval : Value) (ha : r.answers = .reset kept :: rest) :
    s.encFinish (.respond st rts rval r) = abandonedWith s r.sink := by
  obtain ⟨regs, sink, answers⟩ := r
  obtain rfl : answers = .reset kept :: rest := ha
  rfl

/-- A reset at access `n`, or before the response: the accesses before it stay, and what was kept of the interrupted one. -/
theorem finish_reset {n kept : Nat} {rest : List SinkAnswer} (hn : n ≤ p.accesses.length)
    (ha : s.sinkAnswers = List.replicate n .ok ++ .reset kept :: rest) :
    s.encFinish (p.run s.encRun)
      = abandonedWith s ((s.enc.sink.after (p.accesses.take n)).append
          (((p.accesses.map Access.bits).getD n []).take kept)) := by
  cases p with
  | respond st rval q =>
    obtain rfl : n = 0 := by simpa [accesses] using hn
    rw [run, finish_reset_response _ _ _ ha]
    simp [accesses, Sink.after, Sink.append]
  | commit q as =>
    simp only [accesses] at hn ⊢
    rcases hn.lt_or_eq with hlt | rfl
    · rw [run, runAccesses_reset _ hlt ha]
      rw [List.getD_eq_getElem _ _ (by simpa using hlt), List.getElem_map]
      rfl
    · rw [run, runAccesses_skip _ le_rfl ha, List.drop_length, runAccesses, finish_reset_response _ _ _ rfl]
      simp [Sink.append]

end Ends

end EncPlan

open EncPlan

/-- Settles O39: the accesses before the reset are answered, the one it comes at keeps its first bits, and nothing is left of
the command but its bits. -/
theorem resetAbandonsAnEncoderCommand : Obligations.ResetAbandonsAnEncoderCommand := by
  intro s i n kept rest hport accesses hn ha flushed
  have haccesses := command_accesses hport s
  have hlen : (command i s.enc.regs s.enc.sink.bits).accesses.length = accesses.length := by
    rw [← List.length_map, haccesses]
  rw [← hlen] at hn
  rw [EncPlan.exec_eq_run hport, finish_reset hn ha, haccesses, Sink.after, List.map_take, haccesses,
    command_any_flush hport _ _ hn, hlen]
  rfl

end Sys2Proof.Machine

namespace Sys2Proof.Machine

open EncPlan

/-! ### The accesses of an `ENC_POINT` (R143, R146 to R157) -/

section PointAccesses

variable (t : Time) (v : Value) (r : Regs)

theorem fieldAccesses_append (fs gs : List Field) :
    fieldAccesses (fs ++ gs) = fieldAccesses fs ++ fieldAccesses gs := by
  simp [fieldAccesses]

theorem fieldAccesses_pos {f : Field} {fs : List Field} (hf : f ∈ fs) (hw : f.width ≠ 0) :
    0 < (fieldAccesses fs).length :=
  List.length_pos_of_mem (List.mem_map_of_mem (List.mem_filter.2 ⟨hf, by simpa using hw⟩))

theorem bucket_prefixBits_ne_nil (dd : Int) : (bucket dd).prefixBits.length ≠ 0 := by
  obtain ⟨-, hb, -⟩ | ⟨-, hb, -⟩ | ⟨-, hb, -⟩ | ⟨-, hb, -⟩ | ⟨-, hb, -⟩ := bucket_cases dd <;> rw [hb] <;> decide

theorem encTime_accesses_pos : 0 < (fieldAccesses (encTime t r).2).length :=
  fieldAccesses_pos (List.mem_cons_self ..) (bucket_prefixBits_ne_nil (encDod t r))

/-- Every value codeword begins with control bits. -/
theorem encValue_accesses_pos : 0 < (fieldAccesses (encValue v r).2).length := by
  obtain ⟨x, hx⟩ : ∃ x, x = v ^^^ r.storedVal := ⟨_, rfl⟩
  by_cases h : x = 0
  · rw [encValue_same hx h]
    exact fieldAccesses_pos (List.mem_cons_self ..) (by decide)
  by_cases hw : fitsWindow r x = true
  · rw [encValue_reuse hx h hw]
    exact fieldAccesses_pos (List.mem_cons_self ..) (by decide)
  · rw [encValue_new hx h hw]
    exact fieldAccesses_pos (List.mem_cons_self ..) (by decide)

variable {t v r}

theorem point_accesses_first (h : r.storedTS = 0) : (point t v r).accesses.length = 2 := by
  rw [point, accesses, encPointEffect_first t v h]
  rfl

theorem two_le_point_accesses : 2 ≤ (point t v r).accesses.length := by
  by_cases h : r.storedTS = 0
  · exact (point_accesses_first h).ge
  · have htime := encTime_accesses_pos t r
    have hvalue := encValue_accesses_pos v (r.setTime (t - r.storedTS) t)
    rw [point, accesses, encPointEffect_subsequent t v h, fieldAccesses_append, List.length_append]
    omega

end PointAccesses

/-- The registers of a whole `ENC_POINT` (R143, R146, R151, R156). -/
theorem encPointEffect_regs (t : Time) (v : Value) (r : Regs) :
    (encPointEffect t v r).1
      = if r.storedTS = 0 then { r with storedTS := t, storedDelta := t - r.hdrTS, storedVal := v }
        else pointRegs t v r := by
  split_ifs with h
  · rw [encPointEffect_first t v h]
    rfl
  · rw [encPointEffect_subsequent t v h, encValue_regs]

/-- Fields do not flush. -/
theorem Sink.after_fieldAccesses (k : Sink) (fs : List Field) :
    k.after (fieldAccesses fs) = k.append ((fieldAccesses fs).map Access.bits).flatten := by
  have hnone := fieldAccesses_any_flush fs (fieldAccesses fs).length
  rw [List.take_length] at hnone
  rw [Sink.after, hnone]
  rfl

section PointEnds

variable {s : State} {t : Time} {v : Value}

theorem exec_encPoint_eq_run (hp : s.enc.regs.phase = .opened) :
    exec (.encPoint t v) s = .next (s.encFinish ((point t v s.enc.regs).run s.encRun)) := by
  rw [exec_encPoint_opened t v hp, encPointBody_eq_run]
  rfl

theorem point_accesses_eq (hp : s.enc.regs.phase = .opened) :
    (point t v s.enc.regs).accesses.map Access.bits = s.encAccesses (.encPoint t v) := by
  have hcommand : command (.encPoint t v) s.enc.regs s.enc.sink.bits = point t v s.enc.regs :=
    checked_of_phase hp (by decide) _
  rw [← hcommand]
  exact command_accesses rfl s

/-- A plan that fails at one of its accesses has committed its registers. -/
theorem EncPlan.run_fail {p : EncPlan} {r : EncRun} {n : Nat} {left : Bits} {fl : Bool} {rest : List SinkAnswer}
    (hn : n < p.accesses.length) (ha : r.answers = List.replicate n .ok ++ .fail left fl :: rest) :
    p.run r = EncRun.raise { regs := p.regs, sink := ⟨left, fl⟩, answers := rest } .eIO := by
  cases p with
  | respond => exact absurd hn (Nat.not_lt_zero n)
  | commit q as => exact runAccesses_fail (r := { r with regs := q }) _ hn ha

/-- An encoder command that responds, where no reset comes before the response. -/
theorem encFinish_respond_of_ne (st : BitVec 8) (rts : Time) (rval : Value) {r : EncRun}
    (h : ∀ kept more, r.answers ≠ .reset kept :: more) :
    s.encFinish (.respond st rts rval r) = s.encAfter r.regs r.sink (responseWord st rts rval) := by
  obtain ⟨regs, sink, answers⟩ := r
  match answers with
  | [] | .ok :: _ | .fail _ _ :: _ | .never :: _ => rfl
  | .reset kept :: more => exact absurd rfl (h kept more)

end PointEnds

/-- Settles O18: the registers are committed before the first access, and whichever access fails leaves them and the sink of
its answer. -/
theorem encPointCommitsBeforeWriting : Obligations.EncPointCommitsBeforeWriting := by
  intro s t v hp whole accesses
  have haccesses : (point t v s.enc.regs).accesses.map Access.bits = accesses := point_accesses_eq hp
  have hlen : accesses.length = (point t v s.enc.regs).accesses.length := by rw [← haccesses, List.length_map]
  have hwhole : whole = (point t v s.enc.regs).regs := (encPointEffect_regs t v s.enc.regs).symm
  rw [hlen, hwhole]
  refine ⟨two_le_point_accesses, point_accesses_first, fun hok => ?answered, fun n left fl rest hn ha hrest => ?failed⟩
  case answered =>
    have hsink : s.enc.sink.after (point t v s.enc.regs).accesses = s.enc.sink.append accesses.flatten :=
      (Sink.after_fieldAccesses _ _).trans (by rw [← haccesses]; rfl)
    rw [exec_encPoint_eq_run hp, finish_ok _ hok, hsink]
    rfl
  case failed =>
    rw [exec_encPoint_eq_run hp, run_fail (r := s.encRun) hn ha]
    exact congrArg _ (encFinish_respond_of_ne _ _ _ hrest)

/-! ### The bits of a header or a point (R159) -/

/-- Two encoders with equal registers follow the same plan, whatever their sinks hold, unless it is that of `ENC_FINISH`. -/
theorem command_congr_sink {i : Instr} (hi : i ≠ .encFinish) (q : Regs) (k k' : Bits) :
    command i q k = command i q k' := by
  cases i
  case encFinish => exact absurd rfl hi
  all_goals rfl

/-- Settles O45: one plan, so one list of accesses, on either sink. -/
theorem appendedBitsDependOnRegistersOnly : Obligations.AppendedBitsDependOnRegistersOnly := by
  intro i s s' t t' hi hregs hok hok' h h'
  have hport : i.port = some .enc := by obtain ⟨t0, rfl⟩ | ⟨ts, v, rfl⟩ := hi <;> rfl
  have hne : i ≠ .encFinish := by obtain ⟨t0, rfl⟩ | ⟨ts, v, rfl⟩ := hi <;> nofun
  rw [EncPlan.exec_eq_run hport, finish_ok _ hok] at h
  rw [EncPlan.exec_eq_run hport, finish_ok _ hok', ← hregs, command_congr_sink hne _ _ s.enc.sink.bits] at h'
  cases h
  cases h'
  exact ⟨rfl, _, rfl, rfl⟩

/-! ### How many bits a point appends (R158) -/

/-- 1, 2 + S or 13 + S bits, S being that of the stored window or of the new one. -/
theorem length_valueCodeword {r : Regs} {v x : Value} (hx : x = v ^^^ r.storedVal) :
    (encodeWire (valueCodeword r v)).length
      = if x = 0 then 1 else if fitsWindow r x = true then 2 + r.reuseWidth else 13 + (64 - clampedLZ x - ctz64 x) := by
  split_ifs with h hw
  · rw [valueCodeword_same hx h]
    rfl
  · rw [valueCodeword_reuse hx h hw]
    simp [encodeWire]
    omega
  · have hle := clampedLZ_add_ctz64_le h
    rw [valueCodeword_new hx h hw, encodeWire, sigCount_ofNat (by omega) (by omega)]
    simp
    omega

theorem bucket_length_mem (dd : Int) :
    (bucket dd).prefixBits.length + (bucket dd).width ∈ [1, 9, 12, 16, 36] := by
  obtain ⟨-, hb, -⟩ | ⟨-, hb, -⟩ | ⟨-, hb, -⟩ | ⟨-, hb, -⟩ | ⟨-, hb, -⟩ := bucket_cases dd <;> rw [hb] <;> decide

/-- Settles O46: the fields of the effect, and the value codeword in each of its three forms. -/
theorem bitsPerPoint : Obligations.BitsPerPoint := by
  intro s ts v hp hok r b a x lz tz reuse sig value
  refine ⟨_, exec_encPoint_ok ts v hp hok, fun hts => ?first, fun hts => ⟨bucket_length_mem _, fun hx => ?sig, ?subsequent⟩⟩
  case first =>
    rw [encPointEffect_first ts v hts, fieldsBits_encFirst]
    simp [State.encAfter]
  case sig =>
    have hnew : lz + tz ≤ 63 := clampedLZ_add_ctz64_le hx
    simp only [sig]
    split_ifs with hreuse
    · obtain ⟨-, hlz, htz⟩ := hreuse
      omega
    · omega
  case subsequent =>
    have hvalue : (encodeWire (valueCodeword r v)).length = value := by
      have hreuse : fitsWindow r x = true ↔ reuse := fitsWindow_iff
      simp only [length_valueCodeword (r := r) (x := x) rfl, hreuse, value, sig]
      split_ifs <;> rfl
    rw [encPointEffect_subsequent ts v hts, fieldsBits_append, fieldsBits_encTime, fieldsBits_encValue]
    have hsame : valueCodeword (s.enc.regs.setTime (ts - s.enc.regs.storedTS) ts) v = valueCodeword r v := rfl
    rw [hsame]
    simp only [State.encAfter, Sink.append_bits, List.length_append, bin_length, hvalue]
    exact (Nat.add_assoc _ _ _).symm

/-! ### Devices that never answer (R267, R271) -/

theorem header_accesses_ne_nil (t0 : Time) (q : Regs) : (EncPlan.header t0 q).accesses ≠ [] := nofun

theorem finish_accesses_ne_nil (q : Regs) (k : Bits) : (EncPlan.finish q k).accesses ≠ [] := by
  simp [EncPlan.finish, accesses]

theorem point_accesses_ne_nil (t : Time) (v : Value) (q : Regs) : (EncPlan.point t v q).accesses ≠ [] := by
  intro h
  have htwo := two_le_point_accesses (t := t) (v := v) (r := q)
  rw [h] at htwo
  exact absurd htwo (by decide)

/-- An encoder command that waits at its first access (R271). -/
def EncWaits (s t : State) : Prop :=
  t.enc.responses = s.enc.responses ∧ t.enc.waiting = true ∧ t.enc.sink = s.enc.sink ∧ t.dec = s.dec

/-- The same of a decoder command. -/
def DecWaits (s t : State) : Prop :=
  t.dec.responses = s.dec.responses ∧ t.dec.waiting = true ∧ t.dec.source = s.dec.source ∧ t.enc = s.enc

theorem EncPlan.run_never {p : EncPlan} {r : EncRun} {rest : List SinkAnswer} (hp : p.accesses ≠ [])
    (ha : r.answers = .never :: rest) : p.run r = .waits { regs := p.regs, sink := r.sink, answers := rest } := by
  cases p with
  | respond => exact absurd rfl hp
  | commit q as => exact runAccesses_never (r := { r with regs := q }) _ hp ha

theorem EncPlan.finish_never {s : State} {p : EncPlan} {rest : List SinkAnswer} (hp : p.accesses ≠ [])
    (ha : s.sinkAnswers = .never :: rest) : EncWaits s (s.encFinish (p.run s.encRun)) := by
  rw [run_never (r := s.encRun) hp ha]
  exact ⟨rfl, rfl, rfl, rfl⟩

theorem Plan.finish_never {s : State} {n : Nat} {q : Regs} {next : Nat → Plan} {rest : List SourceAnswer}
    (ha : s.sourceAnswers = .never :: rest) : DecWaits s (s.decFinish ((Plan.read n q next).run s.decRun)) := by
  have hrun : (Plan.read n q next).run s.decRun = .waits ⟨q, s.dec.source, rest, s.dec.freeReads⟩ := by
    simp [Plan.run, sourceRead, ha]
  rw [hrun]
  exact ⟨rfl, rfl, rfl, rfl⟩

theorem exec_enc_waits {s : State} {i : Instr} {rest : List SinkAnswer} (ha : s.sinkAnswers = .never :: rest)
    (hi : (∃ t0, i = .encHeader t0) ∧ s.enc.regs.phase = .init ∨
      (i = .encFinish ∨ ∃ t v, i = .encPoint t v) ∧ s.enc.regs.phase = .opened) :
    ∃ t, exec i s = .next t ∧ EncWaits s t := by
  have hport : i.port = some .enc := by obtain ⟨⟨t0, rfl⟩, -⟩ | ⟨rfl | ⟨t, v, rfl⟩, -⟩ := hi <;> rfl
  refine ⟨_, EncPlan.exec_eq_run hport s, EncPlan.finish_never ?_ ha⟩
  obtain ⟨⟨t0, rfl⟩, hp⟩ | ⟨rfl | ⟨t, v, rfl⟩, hp⟩ := hi
  · exact ne_of_eq_of_ne (congrArg accesses (checked_of_phase hp (by decide) _)) (header_accesses_ne_nil t0 _)
  · exact ne_of_eq_of_ne (congrArg accesses (checked_of_phase hp (by decide) _)) (finish_accesses_ne_nil _ _)
  · exact ne_of_eq_of_ne (congrArg accesses (checked_of_phase hp (by decide) _)) (point_accesses_ne_nil t v _)

/-- Both paths of `DEC_POINT` begin with a read. -/
theorem Plan.decPoint_eq_read (q : Regs) : ∃ n next, 0 < n ∧ Plan.decPoint q = .read n q next := by
  unfold Plan.decPoint
  split_ifs
  · exact ⟨14, _, by decide, rfl⟩
  · exact ⟨1, _, by decide, rfl⟩

theorem exec_dec_waits {s : State} {i : Instr} {rest : List SourceAnswer} (ha : s.sourceAnswers = .never :: rest)
    (hi : i = .decHeader ∧ s.dec.regs.phase = .init ∨ i = .decPoint ∧ s.dec.regs.phase = .opened) :
    ∃ t, exec i s = .next t ∧ DecWaits s t := by
  have hport : i.port = some .dec := by obtain ⟨rfl, -⟩ | ⟨rfl, -⟩ := hi <;> rfl
  refine ⟨_, Plan.exec_eq_run hport s, ?_⟩
  obtain ⟨rfl, hp⟩ | ⟨rfl, hp⟩ := hi
  · rw [Plan.command_decHeader hp]
    exact Plan.finish_never ha
  · obtain ⟨n, next, -, e⟩ := Plan.decPoint_eq_read s.dec.regs
    rw [Plan.command_decPoint hp, e]
    exact Plan.finish_never ha

/-- Settles O41: the first access of a command waits, and a waiting unit takes no word. -/
theorem unansweredCommandNeverFinishes : Obligations.UnansweredCommandNeverFinishes :=
  ⟨fun _ _ _ ha hi => exec_enc_waits ha hi, fun _ _ _ ha hi => exec_dec_waits ha hi,
    fun _ _ _ _ hs hw hi => step_encCmd_busy hs hi hw, fun _ _ _ _ hs hw hi => step_decCmd_busy hs hi hw⟩

end Sys2Proof.Machine

namespace Sys2Proof.Machine

open Plan

/-! ### The decoder undoes the encoder, half by half (R199) -/

/-- The payload of a delta-of-delta is converted back to it, modulo `2^32` (R125, R150). -/
theorem ofInt_tsDod_tsCodeword {dd : Int} (hlo : -2 ^ 31 ≤ dd) (hhi : dd < 2 ^ 31) :
    BitVec.ofInt 32 (tsDod (tsCodeword dd)) = BitVec.ofInt 32 dd := by
  obtain ⟨rfl, -, hc⟩ | ⟨h, -, hc⟩ | ⟨h, -, hc⟩ | ⟨h, -, hc⟩ | ⟨-, -, hc⟩ := bucket_cases dd <;> rw [hc]
  · rfl
  iterate 3 rw [tsDod, toNat_ofInt_eq_senc (by omega) (by omega), sdec_senc (by omega) (by omega) (by omega)]
  rw [tsDod, ofInt_sdec, toNat_ofInt_eq_senc (by omega) (by omega), ofInt_senc (by omega)]

theorem encDod_bounds (t : Time) (q : Regs) : -2 ^ 31 ≤ encDod t q ∧ encDod t q < 2 ^ 31 :=
  s32_bounds (t - q.storedTS - q.storedDelta)

/-- The timestamp half of a point, decoded, moves the clock to that point (R146, R187). -/
theorem addDod_tsCodeword (t : Time) (q : Regs) :
    q.addDod (tsDod (tsCodeword (encDod t q))) = q.setTime (t - q.storedTS) t := by
  obtain ⟨hlo, hhi⟩ := encDod_bounds t q
  have hdelta : q.storedDelta + BitVec.ofInt 32 (tsDod (tsCodeword (encDod t q))) = t - q.storedTS := by
    rw [ofInt_tsDod_tsCodeword hlo hhi, encDod, BitVec.ofInt_toInt, add_sub_cancel]
  rw [Regs.addDod, hdelta, add_sub_cancel]

/-- Only zeros are shifted out up to the trailing-zero count (R154, R195). -/
theorem ushiftRight_shiftLeft_of_le_ctz64 {x : Value} {n : Nat} (hx : x ≠ 0) (hn : n ≤ ctz64 x) :
    (x >>> n) <<< n = x := by
  obtain ⟨-, hbelow⟩ := lowest_set_bit hx
  refine BitVec.eq_of_getLsbD_eq fun i hi => ?_
  rw [BitVec.getLsbD_shiftLeft, BitVec.getLsbD_ushiftRight, decide_eq_true hi, Bool.true_and]
  by_cases hlow : i < n
  · simp [hlow, hbelow i (by omega)]
  · simp [hlow, Nat.add_sub_cancel' (not_lt.1 hlow)]

/-- The value half of a point, decoded, leaves the registers that the encoder has after it (R151, R156, R194, R195). -/
theorem valueEffect_valueCodeword (v : Value) (q : Regs) : valueEffect (valueCodeword q v) q = (encValue v q).1 := by
  obtain ⟨x, hx⟩ : ∃ x, x = v ^^^ q.storedVal := ⟨_, rfl⟩
  have hxor : q.storedVal ^^^ x = v := by rw [hx, BitVec.xor_comm v, ← BitVec.xor_assoc, BitVec.xor_self, BitVec.zero_xor]
  by_cases h : x = 0
  · have hv : q.storedVal = v := by rw [← hxor, h]; exact BitVec.xor_zero.symm
    rw [valueCodeword_same hx h, encValue_same hx h, ← hv]
    rfl
  by_cases hw : fitsWindow q x = true
  · obtain ⟨-, -, htz⟩ := fitsWindow_iff.1 hw
    rw [valueCodeword_reuse hx h hw, encValue_reuse hx h hw, valueEffect, Regs.xorSig,
      ushiftRight_shiftLeft_of_le_ctz64 h htz, hxor]
  · have hle := clampedLZ_add_ctz64_le h
    have hlz : (BitVec.ofNat 5 (clampedLZ x)).toNat = clampedLZ x :=
      Nat.mod_eq_of_lt (Nat.lt_succ_of_le (clampedLZ_le x))
    have htz : 64 - (64 - clampedLZ x - ctz64 x) - clampedLZ x = ctz64 x := by omega
    rw [valueCodeword_new hx h hw, encValue_new hx h hw, valueEffect, xorSig_newWindow,
      sigCount_ofNat (by omega) (by omega), hlz, htz, ushiftRight_shiftLeft_of_le_ctz64 h le_rfl, hxor]
    rfl

/-- V-reuse is chosen only with a window, and has its width (R154). -/
theorem window_of_valueCodeword {q : Regs} {v x : Value} {n : Nat} (h : valueCodeword q v = .wireVReuse n x) :
    q.winValid = true ∧ n = q.reuseWidth := by
  unfold valueCodeword at h
  dsimp only at h
  split_ifs at h with _ hw
  cases h
  exact ⟨hw.1, rfl⟩

/-! ### The effect of a point (R143 to R157) -/

section PointEffect

variable (t : Time) (v : Value) (q : Regs)

/-- A point writes its timestamp and its value, and neither the header nor the phase (R143, R146, R151). -/
theorem encPointEffect_written :
    ((encPointEffect t v q).1.storedTS = t ∧ (encPointEffect t v q).1.storedVal = v) ∧
      (encPointEffect t v q).1.phase = q.phase ∧ (encPointEffect t v q).1.hdrTS = q.hdrTS := by
  rw [encPointEffect_regs]
  split_ifs
  · exact ⟨⟨rfl, rfl⟩, rfl, rfl⟩
  · unfold pointRegs
    dsimp only
    split <;> exact ⟨⟨rfl, rfl⟩, rfl, rfl⟩

theorem encPointEffect_storedTS : (encPointEffect t v q).1.storedTS = t := (encPointEffect_written t v q).1.1

theorem encPointEffect_storedVal : (encPointEffect t v q).1.storedVal = v := (encPointEffect_written t v q).1.2

theorem encPointEffect_phase : (encPointEffect t v q).1.phase = q.phase := (encPointEffect_written t v q).2.1

theorem encPointEffect_hdrTS : (encPointEffect t v q).1.hdrTS = q.hdrTS := (encPointEffect_written t v q).2.2

variable {t v q}

/-- The bits of a point on the subsequent path are its two codewords. -/
theorem fieldsBits_encPointEffect (h : q.storedTS ≠ 0) :
    fieldsBits (encPointEffect t v q).2
      = encodeWire (tsCodeword (encDod t q)) ++ encodeWire (valueCodeword (q.setTime (t - q.storedTS) t) v) := by
  obtain ⟨hlo, hhi⟩ := encDod_bounds t q
  rw [encPointEffect_subsequent t v h, fieldsBits_append, fieldsBits_encTime, fieldsBits_encValue,
    bucketBits_eq_encodeWire hlo hhi]

/-- The first path, where the delta is not cut: the decoder takes the point back (R143, R183). -/
theorem takes_encFirst (hdelta : (t - q.hdrTS).toNat ≤ 16382) :
    Takes (fun _ => True) (first q) [14, 64] (fieldsBits (encFirst t v q).2) (point (encFirst t v q).1) := by
  have hcut : (BitVec.ofNat 14 (t - q.hdrTS).toNat).toNat = (t - q.hdrTS).toNat := Nat.mod_eq_of_lt (by omega)
  have hne : BitVec.ofNat 14 (t - q.hdrTS).toNat ≠ 0x3FFF := by bv_omega
  have hwide : (BitVec.ofNat 14 (t - q.hdrTS).toNat).setWidth 32 = t - q.hdrTS :=
    BitVec.eq_of_toNat_eq (by rw [BitVec.toNat_setWidth, hcut]; exact Nat.mod_eq_of_lt (t - q.hdrTS).isLt)
  have htakes := takes_firstPoint (Q := fun _ => True) (q := q) trivial hne v
  rw [hcut, hwide, add_sub_cancel] at htakes
  rw [fieldsBits_encFirst]
  exact htakes

/-- `DEC_POINT` takes exactly the bits that `ENC_POINT` appends from the same registers, and writes the same registers
(R199). -/
theorem exists_takes_encPoint (hfirst : q.storedTS = 0 → (t - q.hdrTS).toNat ≤ 16382) :
    ∃ ws, Takes (fun _ => True) (decPoint q) ws (fieldsBits (encPointEffect t v q).2) (point (encPointEffect t v q).1) := by
  by_cases h : q.storedTS = 0
  · rw [decPoint, if_pos h, encPointEffect_first t v h]
    exact ⟨_, takes_encFirst (hfirst h)⟩
  · obtain ⟨hlo, hhi⟩ := encDod_bounds t q
    have hmoved := addDod_tsCodeword t q
    have hvalue := valueEffect_valueCodeword v (q.setTime (t - q.storedTS) t)
    have htakes := takes_point (q := q) (tsCodeword_ctx (encDod t q)) (tsCodeword_ne_endSentinel _) (tsCodeword_wf hlo hhi)
      (valueCodeword_ctx (q.setTime (t - q.storedTS) t) v) (valueCodeword_wf _ _)
      (fun _ _ hj => window_of_valueCodeword hj)
    rw [hmoved, hvalue] at htakes
    rw [decPoint, if_neg h, fieldsBits_encPointEffect h, encPointEffect_subsequent t v h]
    exact ⟨_, htakes⟩

end PointEffect

/-! ### The effect of a point speaks of the codec registers alone (R199) -/

section CodecEq

variable {e d : Regs} (h : CodecEq e d)

include h

theorem CodecEq.setTime (delta ts : Time) : CodecEq (e.setTime delta ts) (d.setTime delta ts) := by
  obtain ⟨hhdr, -, -, hwin, hlz, htz, hval⟩ := h
  exact ⟨hhdr, rfl, rfl, hwin, hlz, htz, hval⟩

theorem CodecEq.setFirst (delta ts : Time) (v : Value) : CodecEq (e.setFirst delta ts v) (d.setFirst delta ts v) := by
  obtain ⟨hhdr, -, -, hwin, hlz, htz, -⟩ := h
  exact ⟨hhdr, rfl, rfl, hwin, hlz, htz, rfl⟩

theorem CodecEq.setVal (v : Value) : CodecEq (e.setVal v) (d.setVal v) := by
  obtain ⟨hhdr, hts, hdelta, hwin, hlz, htz, -⟩ := h
  exact ⟨hhdr, hts, hdelta, hwin, hlz, htz, rfl⟩

theorem CodecEq.setWindow (lz : BitVec 5) (tz : BitVec 6) : CodecEq (e.setWindow lz tz) (d.setWindow lz tz) := by
  obtain ⟨hhdr, hts, hdelta, -, -, -, hval⟩ := h
  exact ⟨hhdr, hts, hdelta, rfl, rfl, rfl, hval⟩

theorem encFirst_congr (t : Time) (v : Value) :
    CodecEq (encFirst t v e).1 (encFirst t v d).1 ∧ (encFirst t v e).2 = (encFirst t v d).2 := by
  rw [encFirst, encFirst, h.1]
  exact ⟨h.setFirst _ _ _, rfl⟩

theorem encTime_congr (t : Time) :
    CodecEq (encTime t e).1 (encTime t d).1 ∧ (encTime t e).2 = (encTime t d).2 := by
  obtain ⟨-, hts, hdelta, -⟩ := id h
  rw [encTime, encTime, encDod, encDod, hts, hdelta]
  exact ⟨h.setTime _ _, rfl⟩

theorem encValue_congr (v : Value) :
    CodecEq (encValue v e).1 (encValue v d).1 ∧ (encValue v e).2 = (encValue v d).2 := by
  obtain ⟨-, -, -, hwin, hlz, htz, hval⟩ := id h
  have hfits (x : Value) : fitsWindow e x = fitsWindow d x := by rw [fitsWindow, fitsWindow, hwin, hlz, htz]
  have hwidth : e.reuseWidth = d.reuseWidth := by rw [Regs.reuseWidth, Regs.reuseWidth, hlz, htz]
  obtain ⟨x, hx⟩ : ∃ x, x = v ^^^ d.storedVal := ⟨_, rfl⟩
  have hx' : x = v ^^^ e.storedVal := by rw [hx, hval]
  by_cases hzero : x = 0
  · rw [encValue_same hx hzero, encValue_same hx' hzero]
    exact ⟨h.setVal v, rfl⟩
  by_cases hw : fitsWindow d x = true
  · rw [encValue_reuse hx hzero hw, encValue_reuse hx' hzero (by rwa [hfits]), hwidth, htz]
    exact ⟨h.setVal v, rfl⟩
  · rw [encValue_new hx hzero hw, encValue_new hx' hzero (by rwa [hfits])]
    exact ⟨(h.setVal v).setWindow _ _, rfl⟩

theorem encPointEffect_congr (t : Time) (v : Value) :
    CodecEq (encPointEffect t v e).1 (encPointEffect t v d).1 ∧ (encPointEffect t v e).2 = (encPointEffect t v d).2 := by
  obtain ⟨htime, hfields⟩ := encTime_congr h t
  obtain ⟨hvalue, hfields'⟩ := encValue_congr htime v
  unfold encPointEffect
  rw [h.2.1]
  split_ifs
  · exact encFirst_congr h t v
  · exact ⟨hvalue, congrArg₂ (· ++ ·) hfields hfields'⟩

end CodecEq


/-! ### `DEC_POINT` after `ENC_POINT` -/

/-- `DEC_POINT` on the bits of a point that an encoder with equal codec registers appended: the point, the bits consumed, and
the encoder's own effect on the registers. -/
theorem exec_decPoint_of_encPoint {e : Regs} {d : State} {t : Time} {v : Value} {rest : Bits}
    (hp : d.dec.regs.phase = .opened) (hcodec : CodecEq e d.dec.regs) (hok : SourceOk d)
    (hfirst : e.storedTS = 0 → (t - e.hdrTS).toNat ≤ 16382)
    (hl : d.dec.source.left = fieldsBits (encPointEffect t v e).2 ++ rest) :
    exec .decPoint d
      = .next (d.decAfter (encPointEffect t v d.dec.regs).1
          (d.dec.source.advance (fieldsBits (encPointEffect t v e).2).length) (responseWord 0x01 t v)) := by
  obtain ⟨ws, htakes⟩ := exists_takes_encPoint (t := t) (v := v) (q := d.dec.regs)
    (by rw [← hcodec.1, ← hcodec.2.1]; exact hfirst)
  rw [← (encPointEffect_congr hcodec t v).2] at htakes
  rw [Plan.exec_eq_run rfl, command_decPoint hp, htakes.finish_ok hok hl, encPointEffect_storedTS,
    encPointEffect_storedVal, htakes.length_eq_sum]
  rfl

/-- Settles O48: on its own registers the decoder has the effect of the encoder, and the effect of a point speaks of the codec
registers alone. -/
theorem decoderInvertsTheEncoder : Obligations.DecoderInvertsTheEncoder := by
  intro e d t v rest hpe hpd hcodec _ hokE hokD hfirst
  refine ⟨_, _, exec_encPoint_ok t v hpe hokE, rfl, fun hl => ?_⟩
  refine ⟨_, exec_decPoint_of_encPoint hpd hcodec hokD hfirst hl, rfl, (encPointEffect_congr hcodec t v).1, rfl, ?_⟩
  exact (encPointEffect_phase t v _).trans hpd

/-- Settles O47: only the low 14 bits of the delta are written, and all ones is the sentinel. -/
theorem sentinelDeltaEndsTheBlock : Obligations.SentinelDeltaEndsTheBlock := by
  intro s t v hp hts hok hdelta
  have hsentinel : bin 14 (t - s.enc.regs.hdrTS).toNat = ones 14 := by
    rw [← bin_mod, hdelta]
    rfl
  refine ⟨_, _, exec_encPoint_ok t v hp hok, rfl, rfl, fun d rest hpd htsd hokd hl => ?_⟩
  rw [encPointEffect_first t v hts, fieldsBits_encFirst, hsentinel, List.append_assoc] at hl
  rw [exec_decPoint_first_eq_run hpd htsd, (takes_emptySentinel trivial).finish_ok hokd hl]
  rfl

end Sys2Proof.Machine

namespace Sys2Proof.Machine

/-! ### How an action of the host ends for a unit's registers and its response port

`UnitEnds` tells the status alone of a response; the rule of `err` speaks of the whole response word (R240). -/

/-- What one action does to registers and a response port that held `words`: a response and `Q` of it; no response and `Q`;
or a reset. -/
inductive WordEnds (Q : Option Word → Regs → Prop) (reset : Prop) (words : List Word) : Regs → List Word → Prop
  | responded {w : Word} {q : Regs} (h : Q (some w) q) : WordEnds Q reset words q (words ++ [w])
  | silent {q : Regs} (h : Q none q) : WordEnds Q reset words q words
  | reset (h : reset) : WordEnds Q reset words .reset words

section Ends

variable {Q : Option Word → Regs → Prop} {s : State}

theorem decFinish_respond_ends {st : BitVec 8} {rts : Time} {rval : Value} {r : DecRun}
    (h : Q (some (responseWord st rts rval)) r.regs) (ha : r.answers <:+ s.sourceAnswers) :
    WordEnds Q (s.decResets = true) s.dec.responses (s.decFinish (.respond st rts rval r)).dec.regs
      (s.decFinish (.respond st rts rval r)).dec.responses := by
  obtain ⟨regs, source, answers, free⟩ := r
  match answers with
  | [] | .ok :: _ | .never :: _ => exact .responded h
  | .reset :: rest => exact .reset (decResets_of_mem (ha.subset (List.mem_cons_self ..)))

theorem encFinish_respond_ends {st : BitVec 8} {rts : Time} {rval : Value} {r : EncRun}
    (h : Q (some (responseWord st rts rval)) r.regs) (ha : r.answers <:+ s.sinkAnswers) :
    WordEnds Q (s.encResets = true) s.enc.responses (s.encFinish (.respond st rts rval r)).enc.regs
      (s.encFinish (.respond st rts rval r)).enc.responses := by
  obtain ⟨regs, sink, answers⟩ := r
  match answers with
  | [] | .ok :: _ | .fail _ _ :: _ | .never :: _ => exact .responded h
  | .reset kept :: rest => exact .reset (encResets_of_mem (ha.subset (List.mem_cons_self ..)))

/-- `Q` holds of every way a plan can end: of its responses; and at each of its reads of the wait and of the short read. -/
def Plan.Every (Q : Option Word → Regs → Prop) : Plan → Prop
  | .respond st rts rval q => Q (some (responseWord st rts rval)) q
  | .read _ q next =>
    Q none q ∧ Q (some (responseWord Status.eTruncated.code 0 0)) (q.enterError .eTruncated) ∧ ∀ v, (next v).Every Q

/-- The same of an encoder plan: its response, the wait and the failure at an access (R232). -/
def EncPlan.Every (Q : Option Word → Regs → Prop) : EncPlan → Prop
  | .respond st rval q => Q (some (responseWord st 0 rval)) q
  | .commit q _ =>
    Q none q ∧ Q (some (responseWord Status.eIO.code 0 0)) (q.enterError .eIO) ∧
      Q (some (responseWord Status.ok.code 0 0)) q

theorem Plan.Every.finish {p : Plan} (h : p.Every Q) {r : DecRun} (ha : r.answers <:+ s.sourceAnswers) :
    WordEnds Q (s.decResets = true) s.dec.responses (s.decFinish (p.run r)).dec.regs
      (s.decFinish (p.run r)).dec.responses := by
  induction p generalizing r with
  | respond st rts rval q => exact decFinish_respond_ends (r := { r with regs := q }) h ha
  | read n q next ih =>
    obtain ⟨hwait, hshort, hnext⟩ := h
    have htail : r.answers.tail <:+ s.sourceAnswers := (List.tail_suffix _).trans ha
    rw [run]
    obtain ⟨-, ⟨-, e⟩ | ⟨-, e⟩⟩ | ⟨rest, -, e⟩ | ⟨rest, hr, e⟩ :=
      sourceRead_cases n { r with regs := q } fun v r => (next v).run r <;> rw [e]
    · exact ih _ (hnext _) htail
    · exact decFinish_respond_ends hshort htail
    · exact .silent hwait
    · have hr : r.answers = .reset :: rest := hr
      exact .reset (decResets_of_mem (ha.subset (hr ▸ List.mem_cons_self ..)))

theorem runAccesses_ends {q : Regs} (h : (EncPlan.commit q []).Every Q) (as : List Access) {r : EncRun} (hq : r.regs = q)
    (ha : r.answers <:+ s.sinkAnswers) :
    WordEnds Q (s.encResets = true) s.enc.responses
      (s.encFinish (runAccesses as r fun r => .respond Status.ok.code 0 0 r)).enc.regs
      (s.encFinish (runAccesses as r fun r => .respond Status.ok.code 0 0 r)).enc.responses := by
  subst hq
  obtain ⟨hwait, hfail, hok⟩ := id h
  induction as generalizing r with
  | nil => exact encFinish_respond_ends hok ha
  | cons a as ih =>
    rw [runAccesses]
    obtain ⟨-, e⟩ | ⟨left, fl, rest, hr, e⟩ | ⟨rest, -, e⟩ | ⟨kept, rest, hr, e⟩ :=
      sinkAccess_cases a.bits a.flush r fun r => runAccesses as r fun r => .respond Status.ok.code 0 0 r <;> rw [e]
    · exact ih ((List.tail_suffix _).trans ha) h hwait hfail hok
    · exact encFinish_respond_ends hfail ((List.suffix_cons _ _).trans (hr ▸ ha))
    · exact .silent hwait
    · exact .reset (encResets_of_mem (ha.subset (hr ▸ List.mem_cons_self ..)))

theorem EncPlan.Every.finish {p : EncPlan} (h : p.Every Q) :
    WordEnds Q (s.encResets = true) s.enc.responses (s.encFinish (p.run s.encRun)).enc.regs
      (s.encFinish (p.run s.encRun)).enc.responses := by
  cases p with
  | respond st rval q => exact encFinish_respond_ends (r := { s.encRun with regs := q }) h (List.suffix_refl _)
  | commit q as => exact runAccesses_ends h as (r := { s.encRun with regs := q }) rfl (List.suffix_refl _)

end Ends

/-! ### The registers of a command before any error, and what it may leave (R25, R40, R42) -/

/-- The invariant of one unit's registers. -/
structure Regs.Inv (codes : List Status) (q : Regs) : Prop where
  window : q.WindowInv
  err : q.ErrInv codes
  init : q.InitInv

/-- What a command that finds the registers `q₀` may leave, with its response: registers of the invariant, and `err` as it was
or, on entry to `ERR`, the code responded (R25, R240). -/
def Lawful (codes : List Status) (q₀ : Regs) (w : Option Word) (q : Regs) : Prop :=
  q.Inv codes ∧ (q.err = q₀.err ∨ (q₀.phase ≠ .error ∧ q.phase = .error ∧ w = some (responseWord q.err 0 0)))

/-- Registers behind a header and without an error, as a command that was not refused has them. -/
structure Regs.Running (q : Regs) : Prop where
  started : q.phase ≠ .init
  sound : q.phase ≠ .error
  clear : q.err = 0
  window : q.WindowInv

theorem Regs.reset_inv (codes : List Status) : Regs.reset.Inv codes where
  window := ⟨by decide, by decide⟩
  err := ⟨fun _ => rfl, fun h => absurd h (by decide)⟩
  init := fun _ => rfl

section Lawful

variable {codes : List Status} {q₀ q : Regs}

theorem Regs.Inv.lawful (h : q₀.Inv codes) (w : Option Word) : Lawful codes q₀ w q₀ := ⟨h, .inl rfl⟩

theorem Regs.Inv.setMisuse (h : q₀.Inv codes) : q₀.setMisuse.Inv codes where
  window := h.window
  err := h.err
  init := fun hp => by
    rw [h.init hp]
    rfl

theorem Regs.Inv.lawful_setMisuse (h : q₀.Inv codes) (w : Option Word) : Lawful codes q₀ w q₀.setMisuse :=
  ⟨h.setMisuse, .inl rfl⟩

theorem Regs.Running.lawful (h : q.Running) (hclear : q₀.err = 0) (w : Option Word) : Lawful codes q₀ w q :=
  ⟨⟨h.window, ⟨fun _ => h.clear, fun hp => absurd hp h.sound⟩, fun hp => absurd hp h.started⟩,
    .inl (h.clear.trans hclear.symm)⟩

theorem lawful_enterError (hwindow : q.WindowInv) {x : Status} (hx : x ∈ codes) (hsound : q₀.phase ≠ .error) :
    Lawful codes q₀ (some (responseWord x.code 0 0)) (q.enterError x) :=
  ⟨⟨hwindow, ⟨fun hp => absurd rfl hp, fun _ => ⟨x, hx, rfl⟩⟩, nofun⟩, .inr ⟨hsound, rfl, rfl⟩⟩

/-- In `OPEN` the registers are those of a running block. -/
theorem Regs.Inv.running (h : q₀.Inv codes) (hp : q₀.phase = .opened) : q₀.Running where
  started := by rw [hp]; decide
  sound := by rw [hp]; decide
  clear := h.err.1 (by rw [hp]; decide)
  window := h.window

theorem Regs.Inv.running_setHeader (h : q₀.Inv codes) (hp : q₀.phase = .init) (t0 : Time) : (q₀.setHeader t0).Running where
  started := nofun
  sound := nofun
  clear := h.err.1 (by rw [hp]; decide)
  window := h.window

theorem Regs.Running.setFinished (h : q.Running) : (q.setPhase .finished).Running := ⟨nofun, nofun, h.clear, h.window⟩

theorem Regs.Running.setFirst (h : q.Running) (d ts : Time) (v : Value) : (q.setFirst d ts v).Running :=
  ⟨h.started, h.sound, h.clear, h.window⟩

theorem Regs.Running.setTime (h : q.Running) (d ts : Time) : (q.setTime d ts).Running :=
  ⟨h.started, h.sound, h.clear, h.window⟩

theorem Regs.Running.setVal (h : q.Running) (v : Value) : (q.setVal v).Running := ⟨h.started, h.sound, h.clear, h.window⟩

theorem Regs.Running.setWindow (h : q.Running) {lz : BitVec 5} {tz : BitVec 6} (hle : lz.toNat + tz.toNat ≤ 63) :
    (q.setWindow lz tz).Running :=
  ⟨h.started, h.sound, h.clear, fun _ => hle, nofun⟩

end Lawful

/-! ### The encoder's commands keep the invariant -/

section Encoder

variable {q : Regs}

theorem Regs.Running.encValue (h : q.Running) (v : Value) : (encValue v q).1.Running := by
  obtain ⟨x, hx⟩ : ∃ x, x = v ^^^ q.storedVal := ⟨_, rfl⟩
  by_cases hzero : x = 0
  · rw [encValue_same hx hzero]
    exact h.setVal v
  by_cases hw : fitsWindow q x = true
  · rw [encValue_reuse hx hzero hw]
    exact h.setVal v
  · have hsum := clampedLZ_add_ctz64_le hzero
    rw [encValue_new hx hzero hw]
    refine (h.setVal v).setWindow ?_
    rw [BitVec.toNat_ofNat, BitVec.toNat_ofNat]
    exact (Nat.add_le_add (Nat.mod_le _ _) (Nat.mod_le _ _)).trans hsum

theorem Regs.Running.encPointEffect (h : q.Running) (t : Time) (v : Value) : (encPointEffect t v q).1.Running := by
  unfold Machine.encPointEffect
  split_ifs
  · exact h.setFirst _ _ _
  · exact (h.setTime _ _).encValue v

variable (inv : q.Inv [.eIO])

include inv

theorem every_commit {q' : Regs} (h : q'.Running) (hsound : q.phase ≠ .error) (as : List Access) :
    (EncPlan.commit q' as).Every (Lawful [.eIO] q) :=
  have hclear := inv.err.1 hsound
  ⟨h.lawful hclear _, lawful_enterError h.window (by decide) hsound, h.lawful hclear _⟩

/-- Outside the phase a command needs it leaves the registers, but for `misuse`. -/
theorem EncPlan.every_checked {need : Phase} {p : EncPlan} (h : q.phase = need → p.Every (Lawful [.eIO] q)) :
    (checked need q p).Every (Lawful [.eIO] q) := by
  unfold checked
  split_ifs with herror hneed
  · exact inv.lawful _
  · exact inv.lawful_setMisuse _
  · exact h (not_not.1 hneed)

theorem EncPlan.every_command (i : Instr) (k : Bits) : (command i q k).Every (Lawful [.eIO] q) := by
  cases i
  case encHeader t0 =>
    exact every_checked inv fun hp => every_commit inv (inv.running_setHeader hp t0) (by rw [hp]; decide) _
  case encPoint t v =>
    exact every_checked inv fun hp => every_commit inv ((inv.running hp).encPointEffect t v) (inv.running hp).sound _
  case encFinish =>
    exact every_checked inv fun hp => every_commit inv (inv.running hp).setFinished (inv.running hp).sound _
  case encRdreg idx =>
    change (rdreg idx q).Every _
    unfold rdreg
    split_ifs
    · exact inv.lawful_setMisuse _
    · exact inv.lawful _
  all_goals exact inv.lawful_setMisuse _

end Encoder

/-! ### The decoder's commands keep the invariant -/

/-- The data errors of the decoder (R231). -/
def decCodes : List Status := [.eTruncated, .eNoWindow, .eBadWindow]

namespace Plan

/-- What V-new leaves of 64 bits fits the window registers (R42, R194). -/
theorem newWindow_le {l : Nat} {m : BitVec 6} (hfits : ¬ l + sigCount m > 64) :
    (BitVec.ofNat 5 l).toNat + (BitVec.ofNat 6 (64 - sigCount m - l)).toNat ≤ 63 := by
  have hpos := one_le_sigCount m
  have hmod : l % 2 ^ 5 ≤ l := Nat.mod_le _ _
  rw [toNat_newTZ, BitVec.toNat_ofNat]
  omega

section Decoder

variable {q₀ : Regs} (hclear : q₀.err = 0) (hsound : q₀.phase ≠ .error)

include hclear in
theorem every_point {q : Regs} (h : q.Running) : (point q).Every (Lawful decCodes q₀) := h.lawful hclear _

include hclear in
theorem every_endBlock {q : Regs} (h : q.Running) : (endBlock q).Every (Lawful decCodes q₀) := h.setFinished.lawful hclear _

include hsound in
theorem every_raise {q : Regs} (h : q.Running) {x : Status} (hx : x ∈ decCodes) :
    (raise x q).Every (Lawful decCodes q₀) := lawful_enterError h.window hx hsound

include hclear hsound

theorem every_read {n : Nat} {q : Regs} {next : Nat → Plan} (h : q.Running)
    (hnext : ∀ v, (next v).Every (Lawful decCodes q₀)) : (Plan.read n q next).Every (Lawful decCodes q₀) :=
  ⟨h.lawful hclear _, lawful_enterError h.window (by decide) hsound, hnext⟩

theorem every_first {q : Regs} (h : q.Running) : (first q).Every (Lawful decCodes q₀) := by
  refine every_read hclear hsound h fun d => ?_
  split_ifs
  · exact every_endBlock hclear h
  · exact every_read hclear hsound h fun v => every_point hclear (h.setFirst _ _ _)

theorem every_unary {q : Regs} (h : q.Running) {cont : Nat → Plan}
    (hcont : ∀ k, (cont k).Every (Lawful decCodes q₀)) (fuel k : Nat) :
    (unary fuel k q cont).Every (Lawful decCodes q₀) := by
  induction fuel generalizing k with
  | zero => exact hcont k
  | succ fuel ih =>
    refine every_read hclear hsound h fun b => ?_
    split_ifs
    · exact hcont k
    · exact ih (k + 1)

theorem every_time {q : Regs} (h : q.Running) {cont : Regs → Plan}
    (hcont : ∀ q' : Regs, q'.Running → (cont q').Every (Lawful decCodes q₀)) :
    (time q cont).Every (Lawful decCodes q₀) := by
  refine every_unary hclear hsound h (fun k => ?_) 4 0
  unfold payload
  split_ifs
  · exact hcont _ (h.setTime _ _)
  · refine every_read hclear hsound h fun u => ?_
    split_ifs
    · exact every_endBlock hclear h
    · exact hcont _ (h.setTime _ _)

theorem every_sig {q : Regs} (h : q.Running) : (sig q).Every (Lawful decCodes q₀) :=
  every_read hclear hsound h fun _ => every_point hclear (h.setVal _)

theorem every_newWindow {q : Regs} (h : q.Running) : (newWindow q).Every (Lawful decCodes q₀) := by
  refine every_read hclear hsound h fun l => every_read hclear hsound h fun m => ?_
  split_ifs with hbad
  · exact every_raise hsound h (by decide)
  · exact every_sig hclear hsound (h.setWindow (newWindow_le hbad))

theorem every_value {q : Regs} (h : q.Running) : (value q).Every (Lawful decCodes q₀) := by
  refine every_read hclear hsound h fun changed => ?_
  by_cases hchanged : changed = 0
  · rw [if_pos hchanged]
    exact every_point hclear h
  · rw [if_neg hchanged]
    refine every_read hclear hsound h fun renew => ?_
    split_ifs
    · exact every_newWindow hclear hsound h
    · exact every_sig hclear hsound h
    · exact every_raise hsound h (by decide)

theorem every_decPoint {q : Regs} (h : q.Running) : (decPoint q).Every (Lawful decCodes q₀) := by
  unfold decPoint
  split_ifs
  · exact every_first hclear hsound h
  · exact every_time hclear hsound h fun _ => every_value hclear hsound

end Decoder

section Commands

variable {q : Regs} (inv : q.Inv decCodes)

include inv

theorem every_header (hp : q.phase = .init) : (header q).Every (Lawful decCodes q) :=
  have hsound : q.phase ≠ .error := by rw [hp]; decide
  ⟨inv.lawful _, lawful_enterError inv.window (by decide) hsound,
    fun _ => (inv.running_setHeader hp _).lawful (inv.err.1 hsound) _⟩

theorem every_checked {need : Phase} {p : Plan} (h : q.phase = need → p.Every (Lawful decCodes q)) :
    (checked need q p).Every (Lawful decCodes q) := by
  unfold checked
  split_ifs with herror hneed
  · exact inv.lawful _
  · exact inv.lawful_setMisuse _
  · exact h (not_not.1 hneed)

theorem every_command (i : Instr) : (command i q).Every (Lawful decCodes q) := by
  cases i
  case decHeader => exact every_checked inv fun hp => every_header inv hp
  case decPoint =>
    exact every_checked inv fun hp => every_decPoint (inv.running hp).clear (inv.running hp).sound (inv.running hp)
  case decRdreg idx =>
    change (rdreg idx q).Every _
    unfold rdreg
    split_ifs
    · exact inv.lawful_setMisuse _
    · exact inv.lawful _
  all_goals exact inv.lawful_setMisuse _

end Commands

end Plan

/-! ### Every step keeps the invariant (R25, R40, R42, R240) -/

section Steps

variable {s t : State}

theorem State.Inv.enc_regs (inv : s.Inv) : s.enc.regs.Inv [.eIO] := ⟨inv.encWindow, inv.encErr, inv.encInit⟩

theorem State.Inv.dec_regs (inv : s.Inv) : s.dec.regs.Inv decCodes := ⟨inv.decWindow, inv.decErr, inv.decInit⟩

theorem State.inv_of_regs (henc : s.enc.regs.Inv [.eIO]) (hdec : s.dec.regs.Inv decCodes) (hs : s.dec.stage = none) :
    s.Inv :=
  ⟨henc.window, hdec.window, henc.err, hdec.err, henc.init, hdec.init, hs⟩

theorem step_enc_lawful (inv : s.Inv) (h : step s = .next t) :
    WordEnds (Lawful [.eIO] s.enc.regs) (s.encResets = true) s.enc.responses t.enc.regs t.enc.responses := by
  have hregs := inv.enc_regs
  obtain e | rfl | ⟨w, i, hd, he⟩ | rfl | ⟨rfl, hr⟩ := step_enc_cases inv.between h
  · rw [e]
    exact .silent (hregs.lawful _)
  · exact .silent (hregs.lawful _)
  · cases he.symm.trans (EncPlan.exec_eq_run (decodeCmd_enc_port hd) s)
    exact (EncPlan.every_command hregs i _).finish
  · exact encFinish_respond_ends (hregs.lawful_setMisuse _) (List.suffix_refl _)
  · exact .reset hr

theorem step_dec_lawful (inv : s.Inv) (h : step s = .next t) :
    WordEnds (Lawful decCodes s.dec.regs) (s.decResets = true) s.dec.responses t.dec.regs t.dec.responses := by
  have hregs := inv.dec_regs
  obtain e | ⟨bytes, rfl⟩ | ⟨w, i, hd, he⟩ | rfl | ⟨rfl, hr⟩ := step_dec_cases inv.between h
  · rw [e]
    exact .silent (hregs.lawful _)
  · exact .silent (hregs.lawful _)
  · cases he.symm.trans (Plan.exec_eq_run (decodeCmd_dec_port hd) s)
    exact (Plan.every_command hregs i).finish (List.suffix_refl _)
  · exact decFinish_respond_ends (hregs.lawful_setMisuse _) (List.suffix_refl _)
  · exact .reset hr

/-- No command is half done after a step between commands (R270). -/
theorem step_stage_none (hs : s.dec.stage = none) (h : step s = .next t) : t.dec.stage = none := by
  obtain e | ⟨bytes, rfl⟩ | ⟨w, i, hd, he⟩ | rfl | ⟨rfl, -⟩ := step_dec_cases hs h
  · rw [e, hs]
  · exact hs
  · cases he.symm.trans (Plan.exec_eq_run (decodeCmd_dec_port hd) s)
    exact decFinish_stage s _
  · exact decFinish_stage s _
  · rfl

end Steps

section WordEnds

variable {codes : List Status} {reset : Prop} {words words' : List Word} {q₀ q : Regs}

theorem WordEnds.inv (h : WordEnds (Lawful codes q₀) reset words q words') : q.Inv codes := by
  cases h with
  | responded h => exact h.1
  | silent h => exact h.1
  | reset _ => exact Regs.reset_inv codes

/-- A stored error stays. -/
theorem WordEnds.err_kept (h : WordEnds (Lawful codes q₀) reset words q words') (hr : ¬ reset) (inv : q₀.Inv codes)
    (herr : q₀.err ≠ 0) : q.err = q₀.err := by
  have kept {w : Option Word} (hw : Lawful codes q₀ w q) : q.err = q₀.err := by
    obtain ⟨-, hsame | ⟨hsound, -, -⟩⟩ := hw
    · exact hsame
    · exact absurd (inv.err.1 hsound) herr
  cases h with
  | responded h => exact kept h
  | silent h => exact kept h
  | reset h => exact absurd h hr

/-- A new error is that of the response, on entry to `ERR`. -/
theorem WordEnds.err_written (h : WordEnds (Lawful codes q₀) reset words q words') (hr : ¬ reset) (hclear : q₀.err = 0)
    (herr : q.err ≠ 0) : q₀.phase ≠ .error ∧ q.phase = .error ∧ words' = words ++ [responseWord q.err 0 0] := by
  cases h with
  | responded h =>
    obtain ⟨-, hsame | ⟨hsound, hp, hw⟩⟩ := h
    · exact absurd (hsame.trans hclear) herr
    · exact ⟨hsound, hp, congrArg (fun w => words ++ [w]) (Option.some.inj hw)⟩
  | silent h =>
    obtain ⟨-, hsame | ⟨-, -, hw⟩⟩ := h
    · exact absurd (hsame.trans hclear) herr
    · cases hw
  | reset h => exact absurd h hr

end WordEnds

/-- Settles O43: the reset registers of both units. -/
theorem resetHasTheInvariant : Obligations.ResetHasTheInvariant :=
  State.inv_of_regs (Regs.reset_inv _) (Regs.reset_inv _) rfl

/-- Settles O44: every way a command can end leaves registers of the invariant. -/
theorem everyStepKeepsTheInvariant : Obligations.EveryStepKeepsTheInvariant := fun _ _ inv h =>
  State.inv_of_regs (step_enc_lawful inv h).inv (step_dec_lawful inv h).inv (step_stage_none inv.between h)

/-- Settles O36: `err` changes only with the entry of an error, whose code is responded. -/
theorem errIsWrittenOnce : Obligations.ErrIsWrittenOnce := by
  intro s t inv h
  have henc := step_enc_lawful inv h
  have hdec := step_dec_lawful inv h
  refine ⟨fun hr => ⟨henc.err_kept ?_ inv.enc_regs, henc.err_written ?_⟩,
    fun hr => ⟨hdec.err_kept ?_ inv.dec_regs, hdec.err_written ?_⟩⟩
  all_goals simp [hr]

end Sys2Proof.Machine

namespace Sys2Proof.Machine

/-! ### A call of a unit: one word given, one response taken (R220, R221) -/

/-- The host does `x` and nothing else. -/
def State.given (s : State) (x : Input) : State := { s with inputs := [x] }

theorem State.given_inv {s : State} (inv : s.Inv) (x : Input) : (s.given x).Inv := { inv with }

theorem next?_of_step {s t : State} (h : step s = .next t) : next? s = some t := by rw [next?, h]

section Calls

variable {s t : State} {i : Instr} {w : Word}

/-- A legal word on a port that does not wait is a call with the response of its instruction. -/
theorem encCall_eq {a : List SinkAnswer} (hs : s.dec.stage = none) (hw : s.enc.waiting = false)
    (hport : i.port = some .enc) (hwf : i.wf = true) (h : exec i (s.given (.encCmd (encodeCmd i) a)) = .next t)
    (hr : t.enc.responses = s.enc.responses ++ [w]) : encCall (encodeCmd i) a s = some (t, w) := by
  have hstep : step (s.given (.encCmd (encodeCmd i) a)) = .next t :=
    (step_encCmd_legal (s := s.given (.encCmd (encodeCmd i) a)) hs rfl hw (decodeCmd_encodeCmd hport hwf)).trans h
  have hnext : next? { s with inputs := [.encCmd (encodeCmd i) a] } = some t := next?_of_step hstep
  simp [encCall, hnext, hr]

theorem step_given_dec (hs : s.dec.stage = none) (hw : s.dec.waiting = false) (hport : i.port = some .dec)
    (hwf : i.wf = true) :
    step (s.given (.decCmd (encodeCmd i) [])) = exec i (s.given (.decCmd (encodeCmd i) [])) :=
  step_decCmd_legal hs rfl hw (decodeCmd_encodeCmd hport hwf)

theorem decCall_eq (hstep : step (s.given (.decCmd (encodeCmd i) [])) = .next t)
    (hr : t.dec.responses = s.dec.responses ++ [w]) : decCall (encodeCmd i) [] s = some (t, w) := by
  have hnext : next? { s with inputs := [.decCmd (encodeCmd i) []] } = some t := next?_of_step hstep
  simp [decCall, hnext, hr]

end Calls

/-! ### Decoder commands whose reads are all answered (R55, R222) -/

/-- A decoder command ends with a response and no answer left; the bytes stay, and the read position is at least `lo` and in
the source, or past it no further than `lo`; or it ends with a short read. -/
inductive Answered (lo : Nat) (c : Source) : DecResult → Prop
  | whole {st : BitVec 8} {rts : Time} {rval : Value} {r : DecRun} (ha : r.answers = []) (hbytes : r.source.bytes = c.bytes)
    (hlo : lo ≤ r.source.rpos) (hhi : r.source.rpos ≤ max lo c.bits.length) : Answered lo c (.respond st rts rval r)
  | short {r : DecRun} (ha : r.answers = []) (hbytes : r.source.bytes = c.bytes) :
    Answered lo c (.respond Status.eTruncated.code 0 0 r)

namespace Plan

section Unanswered

variable {r : DecRun} (ha : r.answers = [])

include ha

theorem run_read_answered {n : Nat} {q : Regs} {next : Nat → Plan} :
    (Plan.read n q next).run r
      = if r.source.rpos + n ≤ r.source.bits.length then
          (next (natOf (r.source.left.take n))).run { r with source := r.source.advance n }
        else DecRun.truncated { r with regs := q } := by
  obtain ⟨regs, source, answers, free⟩ := r
  obtain rfl : answers = [] := ha
  have hrun : (Plan.read n q next).run ⟨regs, source, [], free⟩
      = sourceTake n ⟨q, source, [], free⟩ fun v r => (next v).run r := rfl
  rw [hrun, sourceTake]
  split_ifs
  · rw [← run_setRegs _ _ regs]
  · rfl

theorem run_answered (p : Plan) : Answered r.source.rpos r.source (p.run r) := by
  induction p generalizing r with
  | respond st rts rval q => exact .whole ha rfl le_rfl (le_max_left _ _)
  | read n q next ih =>
    rw [run_read_answered ha]
    split_ifs with hfits
    · have hnext := ih (natOf (r.source.left.take n)) (r := { r with source := r.source.advance n }) ha
      cases h : (next (natOf (r.source.left.take n))).run { r with source := r.source.advance n } <;> rw [h] at hnext
      case respond =>
        cases hnext with
        | whole ha' hbytes hlo hhi =>
          rw [Source.advance_rpos] at hlo hhi
          rw [Source.advance_bits, max_eq_right hfits] at hhi
          exact .whole ha' hbytes (by omega) (hhi.trans (le_max_right _ _))
        | short ha' hbytes => exact .short ha' hbytes
      all_goals cases hnext
    · exact .short ha rfl

/-- A plan that begins with a read and does not end short has moved the read position, and not past the source. -/
theorem rpos_lt_of_run_read {n : Nat} {q : Regs} {next : Nat → Plan} {st : BitVec 8} {rts : Time} {rval : Value}
    {r' : DecRun} (hn : 0 < n) (h : (Plan.read n q next).run r = .respond st rts rval r')
    (hst : st ≠ Status.eTruncated.code) :
    r.source.rpos < r'.source.rpos ∧ r'.source.rpos ≤ r.source.bits.length := by
  rw [run_read_answered ha] at h
  split_ifs at h with hfits
  · have hnext := run_answered (r := { r with source := r.source.advance n }) ha (next (natOf (r.source.left.take n)))
    rw [h] at hnext
    cases hnext with
    | whole _ _ hlo hhi =>
      rw [Source.advance_rpos] at hlo hhi
      rw [Source.advance_bits, max_eq_right hfits] at hhi
      exact ⟨by omega, hhi⟩
    | short => exact absurd rfl hst
  · cases h
    exact absurd rfl hst

/-- Every `POINT` response of `DEC_POINT` consumes bits of the source (R222). -/
theorem rpos_lt_of_point {q : Regs} (inv : q.Inv decCodes) {rts : Time} {rval : Value} {r' : DecRun}
    (h : (command .decPoint q).run r = .respond Status.point.code rts rval r') :
    r.source.rpos < r'.source.rpos ∧ r'.source.rpos ≤ r.source.bits.length := by
  change (checked .opened q (decPoint q)).run r = _ at h
  unfold checked at h
  split_ifs at h with herror hopen
  · obtain ⟨x, hx, herr⟩ := inv.err.2 herror
    have hne : ∀ x ∈ decCodes, x.code ≠ Status.point.code := by decide
    injection h with hst
    exact absurd (herr.symm.trans hst) (hne x hx)
  · injection h with hst
    exact absurd hst (by decide)
  · obtain ⟨n, next, hn, e⟩ := decPoint_eq_read q
    rw [e] at h
    exact rpos_lt_of_run_read ha hn h (by decide)

end Unanswered

end Plan

/-! ### The loop of `UNMARSHAL` (R221, R222) -/

section Loop

variable {s : State}

/-- A decoder command on a source that answers gives a response. -/
theorem exists_decCall {i : Instr} (inv : s.Inv) (hw : s.dec.waiting = false) (hport : i.port = some .dec)
    (hwf : i.wf = true) :
    ∃ t st rts rval r, decCall (encodeCmd i) [] s = some (t, responseWord st rts rval) ∧
      (Plan.command i s.dec.regs).run (s.given (.decCmd (encodeCmd i) [])).decRun = .respond st rts rval r ∧
      t.dec.source = r.source ∧ r.source.bytes = s.dec.source.bytes ∧ t.Inv ∧ t.dec.waiting = false := by
  have hanswered := Plan.run_answered (r := (s.given (.decCmd (encodeCmd i) [])).decRun) rfl (Plan.command i s.dec.regs)
  have hstep := (step_given_dec inv.between hw hport hwf).trans (Plan.exec_eq_run hport _)
  obtain ⟨st, rts, rval, r, hrun, ha, hbytes⟩ : ∃ st rts rval r,
      (Plan.command i s.dec.regs).run (s.given (.decCmd (encodeCmd i) [])).decRun = .respond st rts rval r ∧
        r.answers = [] ∧ r.source.bytes = s.dec.source.bytes := by
    cases h : (Plan.command i s.dec.regs).run (s.given (.decCmd (encodeCmd i) [])).decRun <;> rw [h] at hanswered
    case respond =>
      cases hanswered with
      | whole ha hbytes => exact ⟨_, _, _, _, rfl, ha, hbytes⟩
      | short ha hbytes => exact ⟨_, _, _, _, rfl, ha, hbytes⟩
    all_goals cases hanswered
  have hregs : (s.given (.decCmd (encodeCmd i) [])).dec.regs = s.dec.regs := rfl
  have inv' := everyStepKeepsTheInvariant _ _ (State.given_inv inv _) hstep
  rw [hregs, hrun] at hstep inv'
  obtain ⟨regs, source, answers, free⟩ := r
  obtain rfl : answers = [] := ha
  exact ⟨_, st, rts, rval, _, decCall_eq hstep rfl, hrun, rfl, hbytes, inv', rfl⟩

theorem decPoints_isSome (inv : s.Inv) (hw : s.dec.waiting = false) {fuel : Nat}
    (hfuel : s.dec.source.bits.length - s.dec.source.rpos < fuel) : ∃ result, decPoints fuel s = some result := by
  induction fuel generalizing s with
  | zero => exact absurd hfuel (Nat.not_lt_zero _)
  | succ fuel ih =>
    obtain ⟨t, st, rts, rval, r, hcall, hrun, hsource, hbytes, inv', hw'⟩ :=
      exists_decCall (i := .decPoint) inv hw rfl rfl
    by_cases hst : st = Status.point.code
    · subst hst
      obtain ⟨hlo, hhi⟩ := Plan.rpos_lt_of_point (r := (s.given (.decCmd (encodeCmd .decPoint) [])).decRun) rfl
        inv.dec_regs hrun
      have hbits : t.dec.source.bits = s.dec.source.bits := by rw [hsource, Source.bits, hbytes, Source.bits]
      have hmoved : s.dec.source.rpos < t.dec.source.rpos := hsource ▸ hlo
      have hinside : t.dec.source.rpos ≤ s.dec.source.bits.length := hsource ▸ hhi
      obtain ⟨result, e⟩ := ih inv' hw' (by rw [hbits]; omega)
      exact ⟨_, by rw [decPoints, hcall]; simp only [stOf_responseWord, if_true, e]; rfl⟩
    · exact ⟨_, by rw [decPoints, hcall]; simp only [stOf_responseWord, if_neg hst]; rfl⟩

end Loop

/-- The source that `UNMARSHAL` attaches (R221). -/
theorem next?_attachSource (bytes : List Byte) :
    next? { State.reset with inputs := [.attachSource bytes] }
      = some ((State.reset.given (.attachSource bytes)).attachSource bytes) :=
  next?_of_step (step_attachSource rfl rfl)

/-- Settles O50: every `POINT` response consumes bits, so that the bound of the loop is not reached. -/
theorem unmarshalEndsOnAnyBytes : Obligations.UnmarshalEndsOnAnyBytes := by
  intro bytes
  have inv : ((State.reset.given (.attachSource bytes)).attachSource bytes).Inv := { resetHasTheInvariant with }
  obtain ⟨t, st, rts, rval, r, hcall, -, hsource, hbytes, inv', hw⟩ := exists_decCall (i := .decHeader) inv rfl rfl rfl
  have hlength : t.dec.source.bits.length = 8 * bytes.length := by
    rw [hsource, Source.bits, hbytes]
    exact unpackBytes_length bytes
  obtain ⟨result, hloop⟩ := decPoints_isSome (fuel := 8 * bytes.length + 1) inv' hw (by omega)
  rw [unmarshal, next?_attachSource]
  simp only [hcall, hloop]
  split_ifs
  · exact ⟨_, rfl⟩
  · exact ⟨_, rfl⟩

end Sys2Proof.Machine

namespace Sys2Proof.Machine

open Plan

/-! ### The bits of a block (R199, R220) -/

/-- The bits that a list of points appends, from the registers `q` on. -/
def pointsBits : Regs → List (Time × Value) → Bits
  | _, [] => []
  | q, p :: ps => fieldsBits (encPointEffect p.1 p.2 q).2 ++ pointsBits (encPointEffect p.1 p.2 q).1 ps

/-- The registers after a list of points. -/
def pointsRegs : Regs → List (Time × Value) → Regs
  | q, [] => q
  | q, p :: ps => pointsRegs (encPointEffect p.1 p.2 q).1 ps

/-- The points of a block and the sentinel after them. -/
def blockBits (q : Regs) (points : List (Time × Value)) : Bits :=
  pointsBits q points ++ fieldsBits (sentinelFields (pointsRegs q points))

theorem blockBits_cons (q : Regs) (p : Time × Value) (ps : List (Time × Value)) :
    blockBits q (p :: ps) = fieldsBits (encPointEffect p.1 p.2 q).2 ++ blockBits (encPointEffect p.1 p.2 q).1 ps :=
  List.append_assoc _ _ _

/-- Every point appends at least one bit. -/
theorem fieldsBits_encPointEffect_pos (t : Time) (v : Value) (q : Regs) :
    0 < (fieldsBits (encPointEffect t v q).2).length := by
  by_cases h : q.storedTS = 0
  · rw [encPointEffect_first t v h, fieldsBits_encFirst]
    simp
  · have hcontrol := bucket_prefixBits_ne_nil (encDod t q)
    rw [encPointEffect_subsequent t v h, fieldsBits_append, fieldsBits_encTime]
    simp only [List.length_append]
    omega

theorem length_le_blockBits (q : Regs) (points : List (Time × Value)) : points.length ≤ (blockBits q points).length := by
  induction points generalizing q with
  | nil => exact Nat.zero_le _
  | cons p ps ih =>
    have hpos := fieldsBits_encPointEffect_pos p.1 p.2 q
    have hrest := ih (encPointEffect p.1 p.2 q).1
    rw [blockBits_cons, List.length_append, List.length_cons]
    omega

/-! ### `MARSHAL` appends the header, the block and the padding -/

/-- The encoder between commands, with these registers and these bits on its sink. -/
structure EncStands (s : State) (q : Regs) (b : Bits) : Prop where
  regs : s.enc.regs = q
  bits : s.enc.sink.bits = b
  free : s.enc.waiting = false
  between : s.dec.stage = none

section Marshal

variable {s : State} {q : Regs} {b : Bits}

/-- A call whose instruction ends with `OK`. -/
theorem EncStands.call (h : EncStands s q b) {i : Instr} (hport : i.port = some .enc) (hwf : i.wf = true)
    (a : List SinkAnswer) {q' : Regs} {k : Sink}
    (hexec : exec i (s.given (.encCmd (encodeCmd i) a))
      = .next ((s.given (.encCmd (encodeCmd i) a)).encAfter q' k (responseWord 0x00 0 0))) :
    ∃ t, encCall (encodeCmd i) a s = some (t, responseWord 0x00 0 0) ∧ EncStands t q' k.bits :=
  ⟨_, encCall_eq h.between h.free hport hwf hexec rfl, rfl, rfl, rfl, h.between⟩

variable {a : List SinkAnswer} (hok : ∀ x ∈ a, x = SinkAnswer.ok)

include hok

theorem EncStands.header (h : EncStands s q b) (hp : q.phase = .init) (t0 : Time) :
    ∃ t, encCall (encodeCmd (.encHeader t0)) a s = some (t, responseWord 0x00 0 0) ∧
      EncStands t (q.setHeader t0) (b ++ bin 32 t0.toNat) := by
  obtain ⟨rfl, rfl, -, -⟩ := id h
  exact h.call rfl rfl a
    (exec_encHeader_ok (s := s.given (.encCmd (encodeCmd (.encHeader t0)) a)) t0 hp hok)

theorem EncStands.point (h : EncStands s q b) (hp : q.phase = .opened) (t : Time) (v : Value) :
    ∃ t', encCall (encodeCmd (.encPoint t v)) a s = some (t', responseWord 0x00 0 0) ∧
      EncStands t' (encPointEffect t v q).1 (b ++ fieldsBits (encPointEffect t v q).2) := by
  obtain ⟨rfl, rfl, -, -⟩ := id h
  exact h.call rfl rfl a
    (exec_encPoint_ok (s := s.given (.encCmd (encodeCmd (.encPoint t v)) a)) t v hp hok)

theorem EncStands.finish (h : EncStands s q b) (hp : q.phase = .opened) :
    ∃ t, encCall (encodeCmd .encFinish) a s = some (t, responseWord 0x00 0 0) ∧
      EncStands t (q.setPhase .finished)
        (b ++ fieldsBits (sentinelFields q) ++ zeros (padCount (b ++ fieldsBits (sentinelFields q)).length)) := by
  obtain ⟨rfl, rfl, -, -⟩ := id h
  exact h.call rfl rfl a (exec_encFinish_ok (s := s.given (.encCmd (encodeCmd .encFinish) a)) hp hok)

end Marshal

section MarshalLoop

variable {oracle : Nat → List SinkAnswer} (hok : ∀ n, ∀ a ∈ oracle n, a = SinkAnswer.ok)

/-- A word that is answered with `OK`. -/
theorem encCalls_cons {s t : State} {n : Nat} {w : Word} (ws : List Word)
    (h : encCall w (oracle n) s = some (t, responseWord 0x00 0 0)) :
    encCalls oracle n (w :: ws) s = encCalls oracle (n + 1) ws t := by
  have hst : stOf (responseWord 0x00 0 0) = Status.ok.code := stOf_responseWord _ _ _
  rw [encCalls, h]
  exact if_pos hst

include hok

theorem encCalls_block {s : State} {q : Regs} {b : Bits} (h : EncStands s q b) (hp : q.phase = .opened)
    (points : List (Time × Value)) (n : Nat) :
    ∃ t,
      encCalls oracle n (points.map (fun p => encodeCmd (.encPoint p.1 p.2)) ++ [encodeCmd .encFinish]) s = some (.ok t) ∧
      t.enc.sink.bits = b ++ blockBits q points ++ zeros (padCount (b ++ blockBits q points).length) := by
  induction points generalizing s q b n with
  | nil =>
    obtain ⟨t, hcall, ht⟩ := h.finish (hok n) hp
    exact ⟨t, encCalls_cons [] hcall, ht.bits⟩
  | cons p ps ih =>
    obtain ⟨t, hcall, ht⟩ := h.point (hok n) hp p.1 p.2
    obtain ⟨u, hcalls, hu⟩ := ih ht ((encPointEffect_phase p.1 p.2 q).trans hp) (n + 1)
    rw [List.append_assoc b, ← blockBits_cons] at hu
    exact ⟨u, (encCalls_cons _ hcall).trans hcalls, hu⟩

theorem marshal_eq (t0 : Time) (points : List (Time × Value)) :
    marshal oracle t0 points
      = some (.ok (packBytes (bin 32 t0.toNat ++ blockBits (Regs.reset.setHeader t0) points ++
          zeros (padCount (bin 32 t0.toNat ++ blockBits (Regs.reset.setHeader t0) points).length)))) := by
  have hreset : EncStands State.reset .reset [] := ⟨rfl, rfl, rfl, rfl⟩
  obtain ⟨t, hcall, ht⟩ := hreset.header (hok 0) rfl t0
  obtain ⟨u, hcalls, hu⟩ := encCalls_block hok ht rfl points 1
  have hwords : encCalls oracle 0 (marshalWords t0 points) State.reset = some (.ok u) :=
    (encCalls_cons _ hcall).trans hcalls
  rw [marshal, hwords]
  exact congrArg (fun bits => some (Except.ok (packBytes bits))) hu

end MarshalLoop

/-! ### `UNMARSHAL` reads them back -/

/-- The decoder between commands, with these registers and these bits next on its source. -/
structure DecStands (s : State) (q : Regs) (b : Bits) : Prop where
  regs : s.dec.regs = q
  left : s.dec.source.left = b
  free : s.dec.waiting = false
  between : s.dec.stage = none

section Unmarshal

variable {s : State} {q : Regs} {b more : Bits}

theorem rtsOf_responseWord (st : BitVec 8) (rts : Time) (rval : Value) : rtsOf (responseWord st rts rval) = rts := by
  unfold rtsOf responseWord
  rw [BitVec.extractLsb'_append_eq_of_le (by decide)]
  exact BitVec.extractLsb'_append_eq_right

theorem rvalOf_responseWord (st : BitVec 8) (rts : Time) (rval : Value) : rvalOf (responseWord st rts rval) = rval :=
  BitVec.extractLsb'_append_eq_right

/-- A call whose instruction consumes the bits `b`. -/
theorem DecStands.call (h : DecStands s q (b ++ more)) {i : Instr} (hport : i.port = some .dec) (hwf : i.wf = true)
    {q' : Regs} {w : Word} {n : Nat} (hn : b.length = n)
    (hexec : exec i (s.given (.decCmd (encodeCmd i) []))
      = .next ((s.given (.decCmd (encodeCmd i) [])).decAfter q' (s.dec.source.advance n) w)) :
    ∃ t, decCall (encodeCmd i) [] s = some (t, w) ∧ DecStands t q' more :=
  ⟨_, decCall_eq ((step_given_dec h.between h.free hport hwf).trans hexec) rfl, rfl, left_advance_append h.left hn,
    rfl, rfl⟩

theorem DecStands.header {t0 : Time} (h : DecStands s q (bin 32 t0.toNat ++ more)) (hp : q.phase = .init) :
    ∃ t, decCall (encodeCmd .decHeader) [] s = some (t, responseWord 0x00 t0 0) ∧ DecStands t (q.setHeader t0) more := by
  obtain ⟨rfl, hl, -, -⟩ := id h
  exact h.call rfl rfl (bin_length 32 _)
    (exec_decHeader_ok (s := s.given (.decCmd (encodeCmd .decHeader) [])) hp nofun hl)

theorem DecStands.point {e : Regs} {t : Time} {v : Value} (h : DecStands s q (fieldsBits (encPointEffect t v e).2 ++ more))
    (hp : q.phase = .opened) (hcodec : CodecEq e q) (hfirst : e.storedTS = 0 → (t - e.hdrTS).toNat ≤ 16382) :
    ∃ t', decCall (encodeCmd .decPoint) [] s = some (t', responseWord 0x01 t v) ∧
      DecStands t' (encPointEffect t v q).1 more := by
  obtain ⟨rfl, hl, -, -⟩ := id h
  exact h.call rfl rfl rfl
    (exec_decPoint_of_encPoint (d := s.given (.decCmd (encodeCmd .decPoint) [])) hp hcodec nofun hfirst hl)

/-- The sentinel of either path ends the block (R161, R162, R184, R188). -/
theorem exists_takes_sentinel (q : Regs) :
    ∃ ws b rest, Takes (fun _ => True) (decPoint q) ws b (endBlock q) ∧ fieldsBits (sentinelFields q) = b ++ rest := by
  rw [fieldsBits_sentinelFields, decPoint]
  split_ifs
  · exact ⟨_, _, _, takes_emptySentinel trivial, congrArg (· ++ _) ones_firstDelta.symm⟩
  · exact ⟨_, _, [false], takes_endSentinel value trivial, by decide⟩

theorem DecStands.sentinel {e : Regs} (h : DecStands s q (fieldsBits (sentinelFields e) ++ more))
    (hp : q.phase = .opened) (hcodec : CodecEq e q) :
    ∃ t, decCall (encodeCmd .decPoint) [] s = some (t, responseWord 0x02 0 0) := by
  obtain ⟨rfl, hl, hfree, hbetween⟩ := h
  have hfields : sentinelFields e = sentinelFields s.dec.regs := by rw [sentinelFields, hcodec.2.1]; rfl
  obtain ⟨ws, b, rest, htakes, hb⟩ := exists_takes_sentinel s.dec.regs
  rw [hfields, hb, List.append_assoc] at hl
  have hexec := Plan.exec_eq_run (i := .decPoint) rfl (s.given (.decCmd (encodeCmd .decPoint) []))
  have hcommand : command .decPoint (s.given (.decCmd (encodeCmd .decPoint) [])).dec.regs = decPoint s.dec.regs :=
    command_decPoint hp
  rw [hcommand, htakes.finish_ok (s := s.given (.decCmd (encodeCmd .decPoint) [])) nofun hl] at hexec
  exact ⟨_, decCall_eq ((step_given_dec hbetween hfree rfl rfl).trans hexec) rfl⟩

/-- The loop returns the points in order, and then `END` (R199, R221). -/
theorem decPoints_block {e : Regs} {points : List (Time × Value)} (h : DecStands s q (blockBits e points ++ more))
    (hp : q.phase = .opened) (hcodec : CodecEq e q) (hfirst : firstPathOk e.hdrTS e.storedTS points = true) {fuel : Nat}
    (hfuel : points.length < fuel) : decPoints fuel s = some (points, 0x02) := by
  induction points generalizing s e q fuel with
  | nil =>
    obtain ⟨fuel, rfl⟩ := Nat.exists_eq_add_one.2 hfuel
    obtain ⟨t, hcall⟩ := h.sentinel hp hcodec
    rw [decPoints, hcall]
    simp only [stOf_responseWord]
    rfl
  | cons p ps ih =>
    obtain ⟨fuel, rfl⟩ := Nat.exists_eq_add_one.2 (Nat.zero_lt_of_lt hfuel)
    simp only [firstPathOk, Bool.and_eq_true, Bool.or_eq_true, bne_iff_ne, decide_eq_true_eq] at hfirst
    obtain ⟨hdelta, hrest⟩ := hfirst
    rw [blockBits_cons, List.append_assoc] at h
    obtain ⟨t, hcall, ht⟩ := h.point hp hcodec fun h0 => hdelta.resolve_left (not_not.2 h0)
    have hloop := ih ht ((encPointEffect_phase p.1 p.2 q).trans hp) (encPointEffect_congr hcodec p.1 p.2).1
      (by rwa [encPointEffect_hdrTS, encPointEffect_storedTS]) (Nat.lt_of_succ_lt_succ hfuel)
    rw [decPoints, hcall]
    simp only [stOf_responseWord, rtsOf_responseWord, rvalOf_responseWord, hloop]
    rfl

end Unmarshal

/-- A block whose bits fill whole bytes unmarshals to its header and points. -/
theorem unmarshal_packBytes {t0 : Time} {points : List (Time × Value)} {pad : Bits}
    (hfirst : firstPathOk t0 0 points = true)
    (hbytes : (bin 32 t0.toNat ++ blockBits (Regs.reset.setHeader t0) points ++ pad).length % 8 = 0) :
    unmarshal (packBytes (bin 32 t0.toNat ++ blockBits (Regs.reset.setHeader t0) points ++ pad))
      = some (.ok (t0, points)) := by
  set bits := bin 32 t0.toNat ++ blockBits (Regs.reset.setHeader t0) points ++ pad with hbits
  have hunpack : unpackBytes (packBytes bits) = bin 32 t0.toNat ++ (blockBits (Regs.reset.setHeader t0) points ++ pad) := by
    rw [unpackBytes_packBytes (Nat.mul_div_cancel' (Nat.dvd_of_mod_eq_zero hbytes)).symm, hbits, List.append_assoc]
  have hattached : DecStands ((State.reset.given (.attachSource (packBytes bits))).attachSource (packBytes bits)) .reset
      (bin 32 t0.toNat ++ (blockBits (Regs.reset.setHeader t0) points ++ pad)) := ⟨rfl, hunpack, rfl, rfl⟩
  obtain ⟨t, hheader, ht⟩ := hattached.header rfl
  have hfuel : points.length < 8 * (packBytes bits).length + 1 := by
    have hlength := congrArg List.length hunpack
    have hle := length_le_blockBits (Regs.reset.setHeader t0) points
    rw [unpackBytes_length, List.length_append, List.length_append] at hlength
    omega
  have hloop := decPoints_block ht rfl ⟨rfl, rfl, rfl, rfl, rfl, rfl, rfl⟩ hfirst hfuel
  rw [unmarshal, next?_attachSource]
  simp only [hheader, hloop, rtsOf_responseWord]
  rfl

/-- Settles O49: `MARSHAL` appends the header, the points, the sentinel and the padding; the padding fills the last byte, and
the decoder's registers follow the encoder's point by point. -/
theorem marshalUnmarshalRoundTrip : Obligations.MarshalUnmarshalRoundTrip := by
  intro oracle t0 points hok hfirst
  refine ⟨_, marshal_eq hok t0 points, unmarshal_packBytes hfirst ?_⟩
  rw [List.length_append, zeros, List.length_replicate]
  exact padCount_aligns _

end Sys2Proof.Machine
